-- ==== Sys2Proof/Word.lean ====
section
/-! DEFINITION. The two word types of the CORE: every register, coefficient and ROM word is a `u32`, every BUF
location and every stream byte a `u8` (spec/00_scope.md R12). -/

namespace Sys2Proof

/-- A `u32` (R12, R31). -/
abbrev Word := BitVec 32

/-- A `u8` (R12). -/
abbrev Byte := BitVec 8

end Sys2Proof
end

