-- ==== Sys2Proof/Config.lean ====
section
/-! DEFINITION. What is fixed when an instance of the CORE is built (spec/00_scope.md R8 to R10), and the free values:
what the spec leaves open. A free value is an `opaque` constant with no body, so no proof can see what it is. -/

namespace Sys2Proof

/-- The three sampler kinds `k ∈ {U, E, G}` (R10): uniform, eta, gamma1m1. -/
inductive SamplerKind where
  | U
  | E
  | G
  deriving DecidableEq, Repr

/-- The five roles a packer serialises (spec/44_packing.md R291). -/
inductive Role where
  | eta
  | t0
  | t1
  | z
  | w1
  deriving DecidableEq, Repr

/-- The configuration and structural parameters of one built CORE (R8, R9, R10). They are fixed at build time: State
carries them, the `CFG_*` registers read them (spec/10_state.md R33), and no step writes them. -/
structure Config where
  /-- `D`, the rounding bit-width (R8). -/
  d : Nat
  /-- `ETA`, the bounded-sampling range (R8). -/
  eta : Nat
  /-- `GAMMA1`, the masking-vector range (R8). -/
  gamma1 : Nat
  /-- `ZBITS`, the bits of a packed masking-vector coefficient (R8). -/
  zbits : Nat
  /-- `NPOLY`, the number of polynomial slots (R9). -/
  npoly : Nat
  /-- `BUF_BYTES`, the size of BUF in bytes (R9). -/
  bufBytes : Nat
  /-- `BLOCKBYTES_U` (R10). -/
  blockBytesU : Nat
  /-- `BLOCKBYTES_E` (R10). -/
  blockBytesE : Nat
  /-- `BLOCKBYTES_G` (R10). -/
  blockBytesG : Nat
  /-- `NB_INIT_U` (R10). -/
  nbInitU : Nat
  /-- `NB_INIT_E` (R10). -/
  nbInitE : Nat
  /-- `NB_INIT_G` (R10). -/
  nbInitG : Nat
  deriving DecidableEq, Repr

/-- The defaults of R8, R9 and R10, the spec's reference build ("the defaults as the reference instance",
spec/92_eei_decisions.md). -/
def Config.reference : Config where
  d := 13
  eta := 2
  gamma1 := 524288
  zbits := 20
  npoly := 16
  bufBytes := 1024
  blockBytesU := 168
  blockBytesE := 136
  blockBytesG := 136
  nbInitU := 5
  nbInitE := 2
  nbInitG := 5

/-- The legal ranges of R8, R9 and R10. Values outside them are outside the spec (spec/93_implementation_defined.md). -/
def Config.legal (c : Config) : Bool :=
  (c.d == 13 || c.d == 14)
    && (1 ≤ c.eta && c.eta ≤ 7)
    && (2 ≤ c.gamma1 && c.gamma1 ≤ 2 ^ 19)
    && (c.zbits == 18 || c.zbits == 20)
    && 2 * c.gamma1 - 1 ≤ 2 ^ c.zbits
    && (1 ≤ c.npoly && c.npoly ≤ 16)
    && (c.bufBytes % 4 == 0 && 640 ≤ c.bufBytes && c.bufBytes ≤ 57344)
    && (1 ≤ c.blockBytesU && c.blockBytesU ≤ 65535)
    && (1 ≤ c.blockBytesE && c.blockBytesE ≤ 65535)
    && (1 ≤ c.blockBytesG && c.blockBytesG ≤ 65535)
    && (1 ≤ c.nbInitU && c.nbInitU ≤ 255)
    && (1 ≤ c.nbInitE && c.nbInitE ≤ 255)
    && (1 ≤ c.nbInitG && c.nbInitG ≤ 255)

/-- The unspecified `u32` draws of R18 ("free per occurrence, no law"): the n-th draw. What a refused read while BUSY
returns (R80), what an aborted command leaves in a destination coefficient (R383). Log entry 5. -/
opaque Config.freeWord : Nat → BitVec 32

/-- The unspecified `u8` draws of R18: what an aborted PACK leaves in a destination byte (R383). Log entry 5. -/
opaque Config.freeByte : Nat → BitVec 8

/-- What SAMPLE_BYTES holds after a sampler of this kind and nonce that consumed `v ≥ 2^32` bytes: the spec states no value, but
the same one after every such command (spec/43_samplers.md R276). Log entry 11. -/
opaque Config.freeBytesCount : SamplerKind → BitVec 16 → Nat → BitVec 32

/-- The same of SAMPLE_BLOCKS and `v ≥ 2^32` blocks. Log entry 11. -/
opaque Config.freeBlocksCount : SamplerKind → BitVec 16 → Nat → BitVec 32

/-- `STREAM(kind, nonce, j)` (R10, spec/43_samplers.md R241): the Stream Source's bytes, an OPEN parameter of the model
that includes the Source's seed. Log entry 6. -/
opaque Config.stream : SamplerKind → BitVec 16 → Nat → BitVec 8

/-- `CORE_BASE` (R9): the host's base address of the 128 KiB aperture, an OPEN platform parameter. Log entry 12. -/
opaque Config.coreBase : Nat

end Sys2Proof
end

