-- ==== Sys2Proof/Syntax.lean ====
section
/-! DEFINITION. The commands of the CORE, its instruction set (spec/30_encoding.md R105): one constructor for each row of
spec/opcode_table.json. A command's other operand, the 32-bit ARG, is not part of its word (R100). -/

namespace Sys2Proof

/-- A slot operand: a 4-bit field value (R101, R103). -/
abbrev Slot := Fin 16

/-- The command set. `rd` is the field RD, `ra` the field RA and `rb` the field RB of the command word (R101); each
constructor takes exactly the fields its format uses (R102). -/
inductive Instr where
  /-- REDUCE (0x01, D). -/
  | reduce (rd : Slot)
  /-- FREEZE (0x02, D). -/
  | freeze (rd : Slot)
  /-- PWMUL (0x03, T). -/
  | pwmul (rd ra rb : Slot)
  /-- NTT (0x04, D). -/
  | ntt (rd : Slot)
  /-- INVNTT (0x05, D). -/
  | invntt (rd : Slot)
  /-- ADD (0x06, T). -/
  | add (rd ra rb : Slot)
  /-- SUB (0x07, T). -/
  | sub (rd ra rb : Slot)
  /-- SHL (0x08, D). -/
  | shl (rd : Slot)
  /-- CHKNORM (0x09, S). -/
  | chknorm (ra : Slot)
  /-- POWER2ROUND (0x0A, T): `ra` the source, `rd` receives the high part, `rb` the low part (R105). -/
  | power2round (rd ra rb : Slot)
  /-- SAMPLE_UNIFORM (0x10, D). -/
  | sampleUniform (rd : Slot)
  /-- SAMPLE_ETA (0x11, D). -/
  | sampleEta (rd : Slot)
  /-- SAMPLE_GAMMA1M1 (0x12, D). -/
  | sampleGamma1m1 (rd : Slot)
  /-- PACK_ETA (0x18, S). -/
  | packEta (ra : Slot)
  /-- PACK_T0 (0x19, S). -/
  | packT0 (ra : Slot)
  /-- PACK_T1 (0x1A, S). -/
  | packT1 (ra : Slot)
  /-- PACK_Z (0x1B, S). -/
  | packZ (ra : Slot)
  /-- PACK_W1 (0x1C, S). -/
  | packW1 (ra : Slot)
  /-- UNPACK_ETA (0x20, D). -/
  | unpackEta (rd : Slot)
  /-- UNPACK_T0 (0x21, D). -/
  | unpackT0 (rd : Slot)
  /-- UNPACK_T1 (0x22, D). -/
  | unpackT1 (rd : Slot)
  /-- UNPACK_Z (0x23, D). -/
  | unpackZ (rd : Slot)
  /-- UNPACK_W1 (0x24, D). -/
  | unpackW1 (rd : Slot)
  deriving DecidableEq, Repr

end Sys2Proof
end

