-- ==== Sys2Proof/Machine/State.lean ====
section
/-! DEFINITION. The state of the CORE as plain data (spec/10_state.md, spec/20_memory.md R70, spec/43_samplers.md R240),
the reasons a step can stop, and the state after power-on reset (spec/70_reset_and_hazards.md R380).

Three groups of fields. What the spec gives the CORE; the agents around it (the host's accesses and the Stream Source's
answers still to come, in the order in which they happen, and what is known of the stream's bytes); and two records of what
the CORE showed them. The last two groups are the model's own (log entries 3, 6, 13). -/

namespace Sys2Proof.Machine

/-- A store, as (key, value) pairs. A key that is not listed is UNWRITTEN (spec/00_scope.md R18): it holds no value. The
canonical form (keys strictly rising) is `Memory.wf` of Machine/Ops.lean. -/
abbrev Memory (β : Type) := List (Nat × β)

/-- Where data is stored (R70). -/
inductive Space where
  /-- The slot file. -/
  | slotFile
  /-- The byte buffer BUF. -/
  | buf
  deriving DecidableEq, Repr

/-- What stops the machine. Both are safe: the model stops where no claim about the hardware may rest on what follows. -/
inductive Fault where
  /-- UNWRITTEN_READ (R18, R380): the host or a command reads a slot coefficient or a BUF byte that nothing has written.
  Raised by every command that reads a slot or BUF and by a host read of the POLY or BUF window. Safe. -/
  | unwrittenRead (space : Space)
  /-- The Stream Source sends DATA that no SQUEEZE asked for, which the spec says is no move of the platform
  (spec/43_samplers.md R242). Raised by the move `data` with no SQUEEZE outstanding and by `lateData` with none abandoned.
  Safe. -/
  | sourceProtocol
  deriving DecidableEq, Repr

/-- Why an instruction has no meaning in the model. -/
inductive Refusal where
  /-- The instruction is not modelled yet. Raised by an arm of `exec` alone; no arm raises it now. Safe. -/
  | notModelled (mnemonic : String)
  deriving DecidableEq, Repr

/-- The ERRCODE values (spec/60_exceptions.md R341). The codes 0x0A to 0xFF are never recorded and have no constructor. -/
inductive ErrCode where
  /-- 0x00: no error since ERR was last cleared. -/
  | noError
  /-- 0x01 ILLEGAL_OPCODE. -/
  | illegalOpcode
  /-- 0x02 ILLEGAL_FIELD. -/
  | illegalField
  /-- 0x03 BAD_SLOT. -/
  | badSlot
  /-- 0x04 ALIAS. -/
  | aliased
  /-- 0x05 BUF_RANGE. -/
  | bufRange
  /-- 0x06 CMD_WHILE_BUSY. -/
  | cmdWhileBusy
  /-- 0x07 ACCESS_WHILE_BUSY. -/
  | accessWhileBusy
  /-- 0x08 BAD_ADDRESS. -/
  | badAddress
  /-- 0x09 BAD_ACCESS. -/
  | badAccess
  deriving DecidableEq, Repr

/-- PHASE (R44). A command other than a sampler runs in one step (R390), so RUNNING carries no progress of its own. -/
inductive Phase where
  | idle
  | running
  deriving DecidableEq, Repr

/-- The sampler state (R44, spec/43_samplers.md R248). The counter `ctr` is the number of coefficients accepted,
`got.length`; the coefficients themselves are held here and written to the slot at completion (R340, log entry 17). -/
structure Sampler where
  /-- The coefficients accepted so far, index 0 first. -/
  got : List Word
  /-- Stream bytes consumed. -/
  pos : Nat
  /-- Stream bytes delivered in this session. -/
  avail : Nat
  /-- Blocks requested. -/
  blk : Nat
  deriving DecidableEq, Repr

/-- An OPEN stream session (R44, R240). -/
structure Session where
  kind : SamplerKind
  nonce : BitVec 16
  deriving DecidableEq, Repr

/-- A message of the stream port (R240). -/
inductive PortMsg where
  /-- OPEN(kind, nonce), CORE to Source. -/
  | opened (kind : SamplerKind) (nonce : BitVec 16)
  /-- SQUEEZE(n), CORE to Source. -/
  | squeeze (n : Nat)
  /-- DATA of so many bytes, Source to CORE. -/
  | data (bytes : Nat)
  /-- CLOSE, CORE to Source. -/
  | closed
  deriving DecidableEq, Repr

/-- The first bytes of one stream, where a run fixes them (log entry 6). -/
structure KnownStream where
  kind : SamplerKind
  nonce : BitVec 16
  bytes : List Byte
  deriving DecidableEq, Repr

/-- The width of a host access in bytes (spec/20_memory.md R76). -/
inductive AccessWidth where
  | w1
  | w2
  | w4
  | w8
  deriving DecidableEq, Repr

/-- One move of one agent. The CORE handles host accesses one at a time in arrival order (spec/20_memory.md R81); a host
access and a completion that are ready together may come in either order (spec/60_exceptions.md R351): the agenda of a state
says which order happens. -/
inductive Move where
  /-- `MemRead(off, width)` by the host, at a byte offset of the 128 KiB aperture. -/
  | hostRead (width : AccessWidth) (off : BitVec 17)
  /-- `MemWrite(off, width, value)` by the host. The value of an access that is not 4 bytes wide is never used (R76). -/
  | hostWrite (width : AccessWidth) (off : BitVec 17) (value : Word)
  /-- The CORE's command engine takes a step. -/
  | core
  /-- The Stream Source answers the outstanding SQUEEZE (R242). -/
  | data
  /-- The Stream Source sends the DATA of a SQUEEZE whose session was closed (R244). -/
  | lateData
  /-- The platform drives the power-on reset input (spec/70_reset_and_hazards.md R381). -/
  | powerOn
  deriving DecidableEq, Repr

/-- The state. Registers with no field here: ID and the `CFG_*` registers are constants, read from `cfg`
(spec/10_state.md R32, R33); STATUS and CONTROL are the fields `busy` to `errcode` and `ieDone`, `ieErr` (R36, R37), which
Machine/Flags.lean reads as words; IRQ is a function of the state (R45); the zeta ROMs are constants (R43). -/
structure State where
  /-- The build's parameters (R8 to R10). -/
  cfg : Config
  /-- The slot file (R30): coefficient `x[s][i]` has the key `256 * s + i`. -/
  slots : Memory Word
  /-- The byte buffer (R42): byte `BUF[o]` has the key `o`. -/
  buf : Memory Byte
  /-- CMD (R34). -/
  cmd : Word
  /-- ARG (R35). -/
  arg : Word
  /-- STATUS.BUSY (R36). -/
  busy : Bool
  /-- STATUS.DONE (R36). -/
  done : Bool
  /-- STATUS.ERR (R36). -/
  err : Bool
  /-- STATUS.NORM (R36). -/
  norm : Bool
  /-- STATUS.ERRCODE (R36). -/
  errcode : ErrCode
  /-- CONTROL.IE_DONE (R37). -/
  ieDone : Bool
  /-- CONTROL.IE_ERR (R37). -/
  ieErr : Bool
  /-- ERRINFO (R39). -/
  errinfo : Word
  /-- SAMPLE_BYTES (R40). -/
  sampleBytes : Word
  /-- SAMPLE_BLOCKS (R40). -/
  sampleBlocks : Word
  /-- LCMD (R44). -/
  lcmd : Word
  /-- LARG (R44). -/
  larg : Word
  /-- PHASE (R44). -/
  phase : Phase
  /-- The sampler state, while a sampler command runs (R44). -/
  sampler : Option Sampler
  /-- The stream session: `none` is CLOSED (R44). -/
  session : Option Session
  /-- The outstanding SQUEEZE, if there is one, with its number of blocks (R44, R242). -/
  squeeze : Option Nat
  /-- SQUEEZEs abandoned by a reset whose DATA may still arrive (R244, R383). -/
  abandoned : Nat
  /-- What is known of the Stream Source's bytes; every other byte is a free value (log entry 6). -/
  streams : List KnownStream
  /-- The moves to come, first one first; when it is empty the command engine moves (log entry 3). -/
  agenda : List Move
  /-- What the last host access returned: a read's value, `none` for a write (log entry 13). -/
  response : Option Word
  /-- The stream port's messages so far, first one first (log entry 13). -/
  portLog : List PortMsg
  /-- How many unspecified values have been drawn (log entry 5). -/
  drawn : Nat
  deriving DecidableEq, Repr

/-- The CORE right after power-on reset (R380), on the reference build: every register 0, every slot coefficient and BUF
byte unwritten, PHASE idle, the session closed; and, of the model's own fields, no move to come, no known stream byte, no
record, no draw. -/
def State.reset : State where
  cfg := Config.reference
  slots := []
  buf := []
  cmd := 0#32
  arg := 0#32
  busy := false
  done := false
  err := false
  norm := false
  errcode := .noError
  ieDone := false
  ieErr := false
  errinfo := 0#32
  sampleBytes := 0#32
  sampleBlocks := 0#32
  lcmd := 0#32
  larg := 0#32
  phase := .idle
  sampler := none
  session := none
  squeeze := none
  abandoned := 0
  streams := []
  agenda := []
  response := none
  portLog := []
  drawn := 0

/-- What an instruction, or a step, ends in. -/
abbrev Result := Host.Outcome State Fault Refusal

end Sys2Proof.Machine
end

