-- ==== Sys2Proof/WellFormed.lean ====
section
/-! DEFINITION. Which commands are well formed on a given build: every slot field names a slot below NPOLY, and the two
destinations of POWER2ROUND differ (spec/30_encoding.md R104, spec/60_exceptions.md R342, R343). The third operand check,
BUF_RANGE, depends on ARG and is in Machine/Operands.lean. -/

namespace Sys2Proof

/-- Every slot field the command's format uses is below NPOLY (R343). -/
def Instr.slotsExist (c : Config) : Instr → Bool
  | .pwmul rd ra rb | .add rd ra rb | .sub rd ra rb | .power2round rd ra rb =>
    rd.val < c.npoly && ra.val < c.npoly && rb.val < c.npoly
  | .chknorm ra | .packEta ra | .packT0 ra | .packT1 ra | .packZ ra | .packW1 ra => ra.val < c.npoly
  | .reduce rd | .freeze rd | .ntt rd | .invntt rd | .shl rd | .sampleUniform rd | .sampleEta rd
  | .sampleGamma1m1 rd | .unpackEta rd | .unpackT0 rd | .unpackT1 rd | .unpackZ rd | .unpackW1 rd =>
    rd.val < c.npoly

/-- The two destinations of POWER2ROUND differ; every other command may alias its slots (R104, R224). -/
def Instr.destinationsDiffer : Instr → Bool
  | .power2round rd _ rb => rd != rb
  | .reduce _ | .freeze _ | .pwmul _ _ _ | .ntt _ | .invntt _ | .add _ _ _ | .sub _ _ _ | .shl _ | .chknorm _
  | .sampleUniform _ | .sampleEta _ | .sampleGamma1m1 _ | .packEta _ | .packT0 _ | .packT1 _ | .packZ _ | .packW1 _
  | .unpackEta _ | .unpackT0 _ | .unpackT1 _ | .unpackZ _ | .unpackW1 _ => true

/-- A command that the build accepts, ARG apart (R104). -/
def Instr.wellFormed (c : Config) (i : Instr) : Bool :=
  i.slotsExist c && i.destinationsDiffer

end Sys2Proof
end

