-- ==== Sys2Proof/Decode.lean ====
section
/-! DEFINITION. Reading a command word (spec/30_encoding.md R100 to R110) and, after it, writing one (`encode`). The decoder
is total on the 2^32 words and refuses by the name of the error the spec gives: ILLEGAL_OPCODE or ILLEGAL_FIELD (R107). The
checks on the operands' values (BAD_SLOT, ALIAS, BUF_RANGE) come after it, in Machine/Operands.lean. -/

namespace Sys2Proof

/-- Why a word spells no command (R107). -/
inductive DecodeError where
  /-- OP is not in the opcode map. -/
  | illegalOpcode
  /-- A bit outside the fields the format uses is 1. -/
  | illegalField
  deriving DecidableEq, Repr

/-- The three command formats (R102). -/
inductive Format where
  /-- Destination: RD. -/
  | D
  /-- Source: RA. -/
  | S
  /-- Three slots: RD, RA, RB. -/
  | T
  deriving DecidableEq, Repr

/-- The bits the opcode and the format fix (R102). -/
def Format.mask : Format → Word
  | .D => 0xFFFFF0FF#32
  | .S => 0xFFFF0FFF#32
  | .T => 0xFFF000FF#32

/-- OP, bits 5:0 (R101). -/
def opField (w : Word) : Nat := w.toNat % 64

/-- RD, bits 11:8 (R101). -/
def rdField (w : Word) : Slot := Fin.ofNat 16 (w.toNat / 2 ^ 8)

/-- RA, bits 15:12 (R101). -/
def raField (w : Word) : Slot := Fin.ofNat 16 (w.toNat / 2 ^ 12)

/-- RB, bits 19:16 (R101). -/
def rbField (w : Word) : Slot := Fin.ofNat 16 (w.toNat / 2 ^ 16)

/-- The instruction `i`, if the word has no bit set outside its opcode and the fields of its format (R102, R107). -/
def checkFields (w : Word) (fmt : Format) (op : Nat) (i : Instr) : Except DecodeError Instr :=
  if w &&& fmt.mask = BitVec.ofNat 32 op then .ok i else .error .illegalField

/-- The opcode map (R105), read as a decoder of the whole word (R107). -/
def decode (w : Word) : Except DecodeError Instr :=
  match opField w with
  | 0x01 => checkFields w .D 0x01 (.reduce (rdField w))
  | 0x02 => checkFields w .D 0x02 (.freeze (rdField w))
  | 0x03 => checkFields w .T 0x03 (.pwmul (rdField w) (raField w) (rbField w))
  | 0x04 => checkFields w .D 0x04 (.ntt (rdField w))
  | 0x05 => checkFields w .D 0x05 (.invntt (rdField w))
  | 0x06 => checkFields w .T 0x06 (.add (rdField w) (raField w) (rbField w))
  | 0x07 => checkFields w .T 0x07 (.sub (rdField w) (raField w) (rbField w))
  | 0x08 => checkFields w .D 0x08 (.shl (rdField w))
  | 0x09 => checkFields w .S 0x09 (.chknorm (raField w))
  | 0x0A => checkFields w .T 0x0A (.power2round (rdField w) (raField w) (rbField w))
  | 0x10 => checkFields w .D 0x10 (.sampleUniform (rdField w))
  | 0x11 => checkFields w .D 0x11 (.sampleEta (rdField w))
  | 0x12 => checkFields w .D 0x12 (.sampleGamma1m1 (rdField w))
  | 0x18 => checkFields w .S 0x18 (.packEta (raField w))
  | 0x19 => checkFields w .S 0x19 (.packT0 (raField w))
  | 0x1A => checkFields w .S 0x1A (.packT1 (raField w))
  | 0x1B => checkFields w .S 0x1B (.packZ (raField w))
  | 0x1C => checkFields w .S 0x1C (.packW1 (raField w))
  | 0x20 => checkFields w .D 0x20 (.unpackEta (rdField w))
  | 0x21 => checkFields w .D 0x21 (.unpackT0 (rdField w))
  | 0x22 => checkFields w .D 0x22 (.unpackT1 (rdField w))
  | 0x23 => checkFields w .D 0x23 (.unpackZ (rdField w))
  | 0x24 => checkFields w .D 0x24 (.unpackW1 (rdField w))
  | _ => .error .illegalOpcode

/-- The instruction of a row of spec/opcode_table.json: the command is one 32-bit word (R100), so bit 0 of the table is bit 0
of the word and nothing follows it. -/
def decodeTableWord (nbits w : Nat) : Option Instr :=
  if w % 2 ^ nbits < 2 ^ 32 then
    match decode (BitVec.ofNat 32 (w % 2 ^ nbits)) with
    | .ok i => some i
    | .error _ => none
  else none

/-- The OP value of a command (R105). -/
def Instr.opcode : Instr → Nat
  | .reduce _ => 0x01
  | .freeze _ => 0x02
  | .pwmul _ _ _ => 0x03
  | .ntt _ => 0x04
  | .invntt _ => 0x05
  | .add _ _ _ => 0x06
  | .sub _ _ _ => 0x07
  | .shl _ => 0x08
  | .chknorm _ => 0x09
  | .power2round _ _ _ => 0x0A
  | .sampleUniform _ => 0x10
  | .sampleEta _ => 0x11
  | .sampleGamma1m1 _ => 0x12
  | .packEta _ => 0x18
  | .packT0 _ => 0x19
  | .packT1 _ => 0x1A
  | .packZ _ => 0x1B
  | .packW1 _ => 0x1C
  | .unpackEta _ => 0x20
  | .unpackT0 _ => 0x21
  | .unpackT1 _ => 0x22
  | .unpackZ _ => 0x23
  | .unpackW1 _ => 0x24

/-- The format of a command (R105). -/
def Instr.format : Instr → Format
  | .reduce _ => .D
  | .freeze _ => .D
  | .pwmul _ _ _ => .T
  | .ntt _ => .D
  | .invntt _ => .D
  | .add _ _ _ => .T
  | .sub _ _ _ => .T
  | .shl _ => .D
  | .chknorm _ => .S
  | .power2round _ _ _ => .T
  | .sampleUniform _ => .D
  | .sampleEta _ => .D
  | .sampleGamma1m1 _ => .D
  | .packEta _ => .S
  | .packT0 _ => .S
  | .packT1 _ => .S
  | .packZ _ => .S
  | .packW1 _ => .S
  | .unpackEta _ => .D
  | .unpackT0 _ => .D
  | .unpackT1 _ => .D
  | .unpackZ _ => .D
  | .unpackW1 _ => .D

/-- The word of a command, `OP | RD << 8 | RA << 12 | RB << 16` with the fields its format uses (R101, R102). -/
def encodeFields (op rd ra rb : Nat) : Word :=
  BitVec.ofNat 32 (op + rd * 2 ^ 8 + ra * 2 ^ 12 + rb * 2 ^ 16)

/-- The word that spells a command (R101, R105, R111). -/
def encode : Instr → Word
  | .reduce rd => encodeFields 0x01 rd 0 0
  | .freeze rd => encodeFields 0x02 rd 0 0
  | .pwmul rd ra rb => encodeFields 0x03 rd ra rb
  | .ntt rd => encodeFields 0x04 rd 0 0
  | .invntt rd => encodeFields 0x05 rd 0 0
  | .add rd ra rb => encodeFields 0x06 rd ra rb
  | .sub rd ra rb => encodeFields 0x07 rd ra rb
  | .shl rd => encodeFields 0x08 rd 0 0
  | .chknorm ra => encodeFields 0x09 0 ra 0
  | .power2round rd ra rb => encodeFields 0x0A rd ra rb
  | .sampleUniform rd => encodeFields 0x10 rd 0 0
  | .sampleEta rd => encodeFields 0x11 rd 0 0
  | .sampleGamma1m1 rd => encodeFields 0x12 rd 0 0
  | .packEta ra => encodeFields 0x18 0 ra 0
  | .packT0 ra => encodeFields 0x19 0 ra 0
  | .packT1 ra => encodeFields 0x1A 0 ra 0
  | .packZ ra => encodeFields 0x1B 0 ra 0
  | .packW1 ra => encodeFields 0x1C 0 ra 0
  | .unpackEta rd => encodeFields 0x20 rd 0 0
  | .unpackT0 rd => encodeFields 0x21 rd 0 0
  | .unpackT1 rd => encodeFields 0x22 rd 0 0
  | .unpackZ rd => encodeFields 0x23 rd 0 0
  | .unpackW1 rd => encodeFields 0x24 rd 0 0

end Sys2Proof
end

