-- ==== Sys2Proof/Machine/Arith.lean ====
section
/-! DEFINITION. The per-coefficient datapaths: modular reduction (spec/40_reduction.md section 1), norm check and
power-of-two decomposition (spec/42_arith.md sections 2 and 3). Values are mathematical integers and every narrowing is
written out, as in the spec's pseudocode (spec/00_scope.md R12, R13). Every datapath is total over all `u32` inputs (R17). -/

namespace Sys2Proof.Machine

/-- The modulus (R7). -/
abbrev q : Nat := 8380417

/-- `QINV = −q^(−1) mod 2^32` (R11). -/
abbrev qinv : Nat := 4236238847

/-- `MONT = R mod q` (R11). -/
abbrev mont : Nat := 4193792

/-- `RINV = R^(−1) mod q` (R11). -/
abbrev rinv : Nat := 8265825

/-- `F = R^2 · N^(−1) mod q`, the final scale of INVNTT (R11). -/
abbrev finalScale : Nat := 41978

/-- `HALFQ = (q − 1)/2` (R11). -/
abbrev halfq : Nat := 4190208

/-- `ROOT`, a primitive 512-th root of unity mod q (R11). -/
abbrev root : Nat := 1753

/-- `w32(v) = v mod 2^32` (R12). -/
def w32 (v : Int) : Nat := (v % 4294967296).toNat

/-- `w64(v) = v mod 2^64` (R12). -/
def w64 (v : Int) : Nat := (v % 18446744073709551616).toNat

/-- `s32(v)`: the low 32 bits read as two's complement (R13). -/
def s32 (v : Nat) : Int := if w32 v < 2147483648 then w32 v else (w32 v : Int) - 4294967296

/-- `asr(v, k) = floor(s32(v) / 2^k)` (R13); the division by a positive integer rounds down. -/
def asr (v k : Nat) : Int := s32 v / 2 ^ k

/-- `centered(x)`: the integer congruent to x mod q in `[−HALFQ, HALFQ]` (R14). -/
def centered (x : Nat) : Int := if x % q ≤ halfq then (x % q : Nat) else ((x % q : Nat) : Int) - q

/-- The bit reversal `brv8(k)` of an 8-bit number (R14). -/
def brv8 (k : Nat) : Nat :=
  (List.range 8).foldl (fun r i => r + (k / 2 ^ i % 2) * 2 ^ (7 - i)) 0

/-- Montgomery reduction of a `u64` (R130). -/
def montred (a : Nat) : Nat :=
  w64 ((a : Int) + w32 ((w32 a : Int) * qinv) * q) / 2 ^ 32

/-- Partial reduction (R132): `a[22:0] + (hi << 13) − hi` with `hi = a[31:23]`. -/
def reduce32 (a : Nat) : Nat :=
  a % 2 ^ 23 + a / 2 ^ 23 % 2 ^ 9 * 2 ^ 13 - a / 2 ^ 23 % 2 ^ 9

/-- Conditional subtraction (R133). -/
def csubq (a : Nat) : Nat :=
  if 2147483648 ≤ w32 ((a : Int) - q) then w32 ((w32 ((a : Int) - q) : Int) + q) else w32 ((a : Int) - q)

/-- FREEZE of one coefficient (R136). -/
def freezeCoeff (a : Nat) : Nat := csubq (reduce32 a)

/-- ADD of one coefficient (R200). -/
def addCoeff (a b : Nat) : Nat := w32 ((a : Int) + b)

/-- SUB of one coefficient (R202): `a + 2q − b`. -/
def subCoeff (a b : Nat) : Nat := w32 ((a : Int) + 2 * q - b)

/-- PWMUL of one coefficient (R137). -/
def mulCoeff (a b : Nat) : Nat := montred (a * b)

/-- SHL of one coefficient by `D` (R204). -/
def shlCoeff (d a : Nat) : Nat := w32 ((a : Int) * 2 ^ d)

/-- The norm checker's flip of `t` by the mask of its sign (R210). -/
def flipSign (t : Nat) : Nat := t ^^^ w32 (asr t 31)

/-- The norm checker's value of one coefficient (R210). -/
def chkval (a : Nat) : Nat :=
  w32 ((halfq : Int) - flipSign (w32 ((halfq : Int) - a)))

/-- The high part `a1` of the decomposition (R220). -/
def highPart (d a : Nat) : Nat := w32 ((a : Int) + 2 ^ (d - 1) - 1) / 2 ^ d

/-- The Q-biased low part `a0out` of the decomposition (R220). -/
def lowPart (d a : Nat) : Nat := w32 ((q : Int) + a - highPart d a * 2 ^ d)

end Sys2Proof.Machine
end

