-- ==== Sys2Proof/Machine/Ops.lean ====
section
/-! DEFINITION. The named operations over storage and registers: reading and writing a store, a slot and BUF bytes; drawing
unspecified values; recording an error, which is all the CORE does where a processor takes an exception (spec/60_exceptions.md
R345, R352), and its acknowledgement beside it (R353); and the messages of the stream port. -/

namespace Sys2Proof.Machine

/-! ### Stores -/

/-- The canonical form of a store: the keys strictly rise. -/
def Memory.wf {β : Type} : Memory β → Bool
  | [] => true
  | [_] => true
  | c :: d :: m => decide (c.1 < d.1) && Memory.wf (d :: m)

/-- What a key holds; `none` is unwritten (spec/00_scope.md R18). -/
def Memory.read {β : Type} : Memory β → Nat → Option β
  | [], _ => none
  | (k, v) :: m, a => if k = a then some v else Memory.read m a

/-- Write one key. -/
def Memory.write {β : Type} : Memory β → Nat → β → Memory β
  | [], a, v => [(a, v)]
  | (k, u) :: m, a, v =>
    if a < k then (a, v) :: (k, u) :: m
    else if a = k then (a, v) :: m
    else (k, u) :: Memory.write m a v

/-- The values of `n` consecutive keys; `none` if one of them is unwritten. -/
def Memory.readRange {β : Type} (m : Memory β) : Nat → Nat → Option (List β)
  | _, 0 => some []
  | a, n + 1 =>
    match Memory.read m a, Memory.readRange m (a + 1) n with
    | some v, some vs => some (v :: vs)
    | _, _ => none

/-- Values paired with consecutive keys. -/
def numberFrom {β : Type} : Nat → List β → Memory β
  | _, [] => []
  | a, v :: vs => (a, v) :: numberFrom (a + 1) vs

/-- Write consecutive keys. -/
def Memory.writeRange {β : Type} (m : Memory β) (a : Nat) (vs : List β) : Memory β :=
  m.filter (fun c => decide (c.1 < a)) ++ numberFrom a vs ++ m.filter (fun c => decide (a + vs.length ≤ c.1))

/-! ### Slots and BUF (spec/00_scope.md R15) -/

/-- The key of coefficient `i` of slot `k`. -/
def slotKey (k i : Nat) : Nat := 256 * k + i

/-- `x[k][i]`, if it has been written. -/
def State.coeff (s : State) (k i : Nat) : Option Word := Memory.read s.slots (slotKey k i)

/-- `x[k]` as 256 integers, if every coefficient has been written. -/
def State.poly (s : State) (k : Slot) : Option (List Nat) :=
  (Memory.readRange s.slots (slotKey k 0) 256).map (fun p => p.map BitVec.toNat)

/-- `x[k] <- p`. -/
def State.setPoly (s : State) (k : Slot) (p : List Nat) : State :=
  { s with slots := Memory.writeRange s.slots (slotKey k 0) (p.map (BitVec.ofNat 32)) }

/-- Write one coefficient, by its key. -/
def State.setCoeff (s : State) (key : Nat) (v : Word) : State :=
  { s with slots := Memory.write s.slots key v }

/-- `BUF[o]`, if it has been written. -/
def State.bufByte (s : State) (o : Nat) : Option Byte := Memory.read s.buf o

/-- `BUF[off .. off + n − 1]`, if every byte has been written. -/
def State.bufBytes (s : State) (off n : Nat) : Option (List Byte) := Memory.readRange s.buf off n

/-- `BUF[off ..] <- bs`. -/
def State.setBytes (s : State) (off : Nat) (bs : List Byte) : State :=
  { s with buf := Memory.writeRange s.buf off bs }

/-! ### Unspecified values (spec/00_scope.md R18) -/

/-- `n` draws of an unspecified `u32`, from the `from`-th on. -/
def freeWords (first n : Nat) : List Word := (List.range n).map (fun i => Config.freeWord (first + i))

/-- `n` draws of an unspecified `u8`. -/
def freeBytes (first n : Nat) : List Byte := (List.range n).map (fun i => Config.freeByte (first + i))

/-- Slot `k` holds unspecified values (spec/70_reset_and_hazards.md R383). -/
def State.havocSlot (s : State) (k : Slot) : State :=
  { s with slots := Memory.writeRange s.slots (slotKey k 0) (freeWords s.drawn 256), drawn := s.drawn + 256 }

/-- `n` bytes of BUF hold unspecified values (R383). -/
def State.havocBytes (s : State) (off n : Nat) : State :=
  { s with buf := Memory.writeRange s.buf off (freeBytes s.drawn n), drawn := s.drawn + n }

/-! ### Errors: the record and its acknowledgement -/

/-- `raise CmdError(code, info)` (spec/60_exceptions.md R345): the first error since ERR was last cleared is recorded, ERR is
set, and nothing else changes (R346). The CORE has no trap: no state is saved, no mode changes and control goes nowhere
(R352). -/
def State.raiseError (s : State) (code : ErrCode) (info : Word) : State :=
  { s with
    errcode := if s.err then s.errcode else code
    errinfo := if s.err then s.errinfo else info
    err := true }

/-- `ackerr`: ERR, ERRCODE and ERRINFO are cleared together (spec/10_state.md R36, R353). -/
def State.ackError (s : State) : State :=
  { s with err := false, errcode := .noError, errinfo := 0#32 }

/-- `ack`: DONE is cleared (R36, R353). -/
def State.ackDone (s : State) : State :=
  { s with done := false }

/-! ### The stream port (spec/43_samplers.md section 1) -/

/-- Send OPEN(kind, nonce) (R240). -/
def State.openSession (s : State) (k : SamplerKind) (n : BitVec 16) : State :=
  { s with session := some ⟨k, n⟩, portLog := s.portLog ++ [.opened k n] }

/-- Send SQUEEZE(n) (R240, R242). -/
def State.sendSqueeze (s : State) (n : Nat) : State :=
  { s with squeeze := some n, portLog := s.portLog ++ [.squeeze n] }

/-- Send CLOSE; an outstanding SQUEEZE is abandoned (R244). -/
def State.closeSession (s : State) : State :=
  { s with
    session := none
    squeeze := none
    abandoned := s.abandoned + (if s.squeeze.isSome then 1 else 0)
    portLog := s.portLog ++ [.closed] }

/-- What is known of the bytes of one stream (log entry 6). -/
def State.knownBytes (s : State) (k : SamplerKind) (n : BitVec 16) : List Byte :=
  match s.streams.find? (fun t => decide (t.kind = k ∧ t.nonce = n)) with
  | some t => t.bytes
  | none => []

/-- `STREAM(kind, nonce, j)` (R241): the known byte where there is one, else a free value. -/
def State.streamByte (s : State) (k : SamplerKind) (n : BitVec 16) (j : Nat) : Byte :=
  ((s.knownBytes k n)[j]?).getD (Config.stream k n j)

/-- The bytes of `STREAM(kind, nonce, ·)` from `first` on, `count` of them: each is the `streamByte` of its index. -/
def State.streamBytes (s : State) (k : SamplerKind) (n : BitVec 16) (first count : Nat) : List Byte :=
  let known := ((s.knownBytes k n).drop first).take count
  known ++ (List.range (count - known.length)).map (fun d => Config.stream k n (first + known.length + d))

end Sys2Proof.Machine
end

