-- ==== Sys2Proof/Machine/Operands.lean ====
section
/-! DEFINITION. The operands of the commands: the slot operands and ARG in its three readings (spec/30_encoding.md R103,
R104), the parameters of the packing roles (spec/44_packing.md R291) and of the sampler kinds (spec/43_samplers.md R248), the
decode checks of a submitted word (spec/60_exceptions.md R342 to R344), and the sets of locations a command writes
(spec/70_reset_and_hazards.md R383). -/

namespace Sys2Proof.Machine

/-! ### ARG (R103) -/

/-- A sampler's nonce, `LARG[15:0]` (R245). -/
def State.nonce (s : State) : BitVec 16 := BitVec.ofNat 16 s.larg.toNat

/-- CHKNORM's bound B, the whole of LARG (R216). -/
def State.bound (s : State) : Nat := s.larg.toNat

/-- A PACK or UNPACK command's byte offset into BUF, the whole of LARG (R295). -/
def State.offset (s : State) : Nat := s.larg.toNat

/-! ### Source slots -/

/-- Run `f` on the coefficients of slot `k`; an unwritten one is the fault UNWRITTEN_READ (spec/00_scope.md R18). -/
def State.withPoly (s : State) (k : Slot) (f : List Nat → Result) : Result :=
  match s.poly k with
  | some p => f p
  | none => .fault (.unwrittenRead .slotFile)

/-- Run `f` on `n` bytes of BUF; an unwritten one is the fault UNWRITTEN_READ (R18, R296). -/
def State.withBytes (s : State) (off n : Nat) (f : List Byte → Result) : Result :=
  match s.bufBytes off n with
  | some bs => f bs
  | none => .fault (.unwrittenRead .buf)

/-! ### Roles (R291, spec/00_scope.md R11) -/

/-- `W_r`, the bits of one packed coefficient. -/
def roleWidth (c : Config) : Role → Nat
  | .eta => if 2 * c.eta ≤ 7 then 3 else 4
  | .t0 => c.d
  | .t1 => 23 - c.d
  | .z => c.zbits
  | .w1 => 4

/-- Whether the role packs `OFF_r − coefficient`. -/
def roleBiased : Role → Bool
  | .eta => true
  | .t0 => true
  | .t1 => false
  | .z => true
  | .w1 => false

/-- `OFF_r`; 0 for a straight role, which has none. -/
def roleOffset (c : Config) : Role → Nat
  | .eta => c.eta
  | .t0 => 2 ^ (c.d - 1)
  | .t1 => 0
  | .z => c.gamma1 - 1
  | .w1 => 0

/-- `SIZE_r = N · W_r / 8`, the packed bytes of one polynomial (R290). -/
def roleSize (c : Config) (r : Role) : Nat := 256 * roleWidth c r / 8

/-! ### Sampler kinds -/

/-- `CH`, the bytes of one chunk (R248). -/
def chunkBytes : SamplerKind → Nat
  | .U => 3
  | .E => 1
  | .G => 5

/-- `BB = BLOCKBYTES_kind` (spec/00_scope.md R10). -/
def blockBytes (c : Config) : SamplerKind → Nat
  | .U => c.blockBytesU
  | .E => c.blockBytesE
  | .G => c.blockBytesG

/-- `NBI = NB_INIT_kind` (R10). -/
def initialBlocks (c : Config) : SamplerKind → Nat
  | .U => c.nbInitU
  | .E => c.nbInitE
  | .G => c.nbInitG

/-! ### What a command reads and writes -/

/-- The role of a PACK or UNPACK command. -/
def bufRole : Instr → Option Role
  | .packEta _ => some .eta
  | .packT0 _ => some .t0
  | .packT1 _ => some .t1
  | .packZ _ => some .z
  | .packW1 _ => some .w1
  | .unpackEta _ => some .eta
  | .unpackT0 _ => some .t0
  | .unpackT1 _ => some .t1
  | .unpackZ _ => some .z
  | .unpackW1 _ => some .w1
  | .reduce _ | .freeze _ | .pwmul _ _ _ | .ntt _ | .invntt _ | .add _ _ _ | .sub _ _ _ | .shl _ | .chknorm _
  | .power2round _ _ _ | .sampleUniform _ | .sampleEta _ | .sampleGamma1m1 _ => none

/-- The kind of a sampler command (R246). -/
def samplerKind : Instr → Option SamplerKind
  | .sampleUniform _ => some .U
  | .sampleEta _ => some .E
  | .sampleGamma1m1 _ => some .G
  | .reduce _ | .freeze _ | .pwmul _ _ _ | .ntt _ | .invntt _ | .add _ _ _ | .sub _ _ _ | .shl _ | .chknorm _
  | .power2round _ _ _ | .packEta _ | .packT0 _ | .packT1 _ | .packZ _ | .packW1 _ | .unpackEta _ | .unpackT0 _
  | .unpackT1 _ | .unpackZ _ | .unpackW1 _ => none

/-- The slots a command writes, all 256 coefficients of each (R383). -/
def destSlots : Instr → List Slot
  | .reduce rd | .freeze rd | .ntt rd | .invntt rd | .shl rd => [rd]
  | .pwmul rd _ _ | .add rd _ _ | .sub rd _ _ => [rd]
  | .power2round rd _ rb => [rd, rb]
  | .sampleUniform rd | .sampleEta rd | .sampleGamma1m1 rd => [rd]
  | .unpackEta rd | .unpackT0 rd | .unpackT1 rd | .unpackZ rd | .unpackW1 rd => [rd]
  | .packEta _ | .packT0 _ | .packT1 _ | .packZ _ | .packW1 _ | .chknorm _ => []

/-- The role of a PACK command: it writes SIZE_r bytes of BUF from the offset in LARG on; no other command writes BUF (R383). -/
def destRole : Instr → Option Role
  | .packEta _ => some .eta
  | .packT0 _ => some .t0
  | .packT1 _ => some .t1
  | .packZ _ => some .z
  | .packW1 _ => some .w1
  | .reduce _ | .freeze _ | .pwmul _ _ _ | .ntt _ | .invntt _ | .add _ _ _ | .sub _ _ _ | .shl _ | .chknorm _
  | .power2round _ _ _ | .sampleUniform _ | .sampleEta _ | .sampleGamma1m1 _ | .unpackEta _ | .unpackT0 _ | .unpackT1 _
  | .unpackZ _ | .unpackW1 _ => none

/-! ### The decode checks (R342) -/

/-- The checks on the values of the operands, in the order of R342: BAD_SLOT, ALIAS, BUF_RANGE. The sum of BUF_RANGE is
exact (R344). -/
def operandError (c : Config) (i : Instr) (arg : Word) : Option ErrCode :=
  if i.slotsExist c = false then some .badSlot
  else if i.destinationsDiffer = false then some .aliased
  else
    match bufRole i with
    | some r => if c.bufBytes < arg.toNat + roleSize c r then some .bufRange else none
    | none => none

/-- `decode_check(w, arg)` (R342): the command the word spells, or the first error that applies. -/
def commandCheck (c : Config) (w arg : Word) : Except ErrCode Instr :=
  match decode w with
  | .error .illegalOpcode => .error .illegalOpcode
  | .error .illegalField => .error .illegalField
  | .ok i =>
    match operandError c i arg with
    | some e => .error e
    | none => .ok i

end Sys2Proof.Machine
end

