-- ==== Sys2Proof/Machine/Flags.lean ====
section
/-! DEFINITION. The flags BUSY, DONE, ERR and NORM and their writers (spec/10_state.md R41), the registers STATUS and CONTROL
as words (R36, R37), and the interrupt line (R45, spec/60_exceptions.md R350). -/

namespace Sys2Proof.Machine

/-- The 8-bit code of ERRCODE (R341). -/
def ErrCode.code : ErrCode → Nat
  | .noError => 0x00
  | .illegalOpcode => 0x01
  | .illegalField => 0x02
  | .badSlot => 0x03
  | .aliased => 0x04
  | .bufRange => 0x05
  | .cmdWhileBusy => 0x06
  | .accessWhileBusy => 0x07
  | .badAddress => 0x08
  | .badAccess => 0x09

/-- STATUS as it reads (R36); the reserved bits 7:4 and 31:16 read 0. -/
def State.statusWord (s : State) : Word :=
  BitVec.ofNat 32 (s.busy.toNat + s.done.toNat * 2 + s.err.toNat * 4 + s.norm.toNat * 8 + s.errcode.code * 256)

/-- CONTROL as it reads (R37); SOFT_RESET and the reserved bits read 0. -/
def State.controlWord (s : State) : Word :=
  BitVec.ofNat 32 (s.ieDone.toNat * 2 + s.ieErr.toNat * 4)

/-- IRQ (R350). -/
def State.irq (s : State) : Bool := (s.done && s.ieDone) || (s.err && s.ieErr)

/-- A write to STATUS: 1 in bit 1 clears DONE, 1 in bit 2 clears ERR, ERRCODE and ERRINFO; nothing else changes (R36). -/
def State.writeStatus (s : State) (v : Word) : State :=
  let s := if v.getLsbD 1 then s.ackDone else s
  if v.getLsbD 2 then s.ackError else s

/-- A write to CONTROL with bit 0 clear: the interrupt enables (R37). -/
def State.writeEnables (s : State) (v : Word) : State :=
  { s with ieDone := v.getLsbD 1, ieErr := v.getLsbD 2 }

/-- The sampler state that the acceptance of a word creates (R44): `ctr`, `pos`, `avail` and `blk` at 0 (spec/43_samplers.md R248)
for a sampler command, none for another. -/
def freshSampler (w : Word) : Option Sampler :=
  match decode w with
  | .ok i => (samplerKind i).map (fun _ => { got := [], pos := 0, avail := 0, blk := 0 })
  | .error _ => none

/-- Acceptance of a command (R340): the word and ARG are latched, DONE is cleared and BUSY set; the sampler state of a sampler
command is created (R44). -/
def State.accept (s : State) (w : Word) : State :=
  { s with lcmd := w, larg := s.arg, done := false, busy := true, phase := .running, sampler := freshSampler w }

/-- Completion of the running command (R340): BUSY is cleared and DONE set. -/
def State.complete (s : State) : State :=
  { s with busy := false, done := true, phase := .idle }

/-- The result of CHKNORM (R216), at its completion. -/
def State.setNorm (s : State) (v : Bool) : State :=
  { s with norm := v }

end Sys2Proof.Machine
end

