-- ==== Sys2Proof/Machine/Submit.lean ====
section
/-! DEFINITION. Submitting a command (spec/60_exceptions.md section 1) and the two resets
(spec/70_reset_and_hazards.md section 1). -/

namespace Sys2Proof.Machine

/-- A host write of `w` to CMD, one indivisible step (R340): CMD holds the word, accepted or not; CMD_WHILE_BUSY is tested
before the decode checks (R342, R347); a refused word changes the error record and nothing else (R346). -/
def State.submit (s : State) (w : Word) : State :=
  let t := { s with cmd := w }
  if s.busy then t.raiseError .cmdWhileBusy w
  else
    match commandCheck s.cfg w s.arg with
    | .error e => t.raiseError e w
    | .ok _ => t.accept w

/-- The destination set of a command holds unspecified values (R383). -/
def State.havocDestinations (s : State) (i : Instr) : State :=
  let t := (destSlots i).foldl State.havocSlot s
  match destRole i with
  | some r => t.havocBytes s.offset (roleSize s.cfg r)
  | none => t

/-- Abort the running command (R382, R383): its destination set holds unspecified values, and an open session is closed. -/
def State.abortRunning (s : State) : State :=
  let t := match decode s.lcmd with
    | .ok i => s.havocDestinations i
    | .error _ => s
  if s.session.isSome then t.closeSession else t

/-- The registers, PHASE and the sampler state after a reset (R380, R382). -/
def State.clearRegisters (s : State) : State :=
  { s with
    cmd := 0#32
    arg := 0#32
    busy := false
    done := false
    err := false
    norm := false
    errcode := .noError
    ieDone := false
    ieErr := false
    errinfo := 0#32
    sampleBytes := 0#32
    sampleBlocks := 0#32
    lcmd := 0#32
    larg := 0#32
    phase := .idle
    sampler := none }

/-- Soft reset, one indivisible step (R382). -/
def State.softReset (s : State) : State :=
  match s.phase with
  | .running => s.abortRunning.clearRegisters
  | .idle => s.clearRegisters

/-- Power-on reset (R380, R381): every register at its reset value, every slot coefficient and BUF byte unwritten, the session
closed and nothing sent on the port. The agents around the CORE go on: the moves to come, the Source's bytes, a DATA in
flight, the records and the count of draws stay (log entry 15). -/
def State.powerOn (s : State) : State :=
  { s.clearRegisters with
    slots := []
    buf := []
    session := none
    squeeze := none
    abandoned := s.abandoned + (if s.squeeze.isSome then 1 else 0) }

end Sys2Proof.Machine
end

