-- ==== Sys2Proof/Machine/Aperture.lean ====
section
/-! DEFINITION. The host's accesses to the 128 KiB aperture (spec/20_memory.md): the map, the register block, the windows,
and the three ways an access is refused. -/

namespace Sys2Proof.Machine

/-- What stands at a byte offset of the aperture (R71). -/
inductive Region where
  /-- The register block. -/
  | register
  /-- `ZETAS[k]`. -/
  | zeta (k : Nat)
  /-- `ZETAS_INV[k]`. -/
  | zetaInv (k : Nat)
  /-- The BUF window, from `BUF[o]` on. -/
  | bufWord (o : Nat)
  /-- The POLY window: the coefficient with this key. -/
  | coeff (key : Nat)
  /-- Unmapped, or a slot or a BUF byte that the build does not have (R77). -/
  | unmapped
  deriving DecidableEq, Repr

/-- The aperture map (R71), on an aligned offset. -/
def regionOf (c : Config) (off : Nat) : Region :=
  if off < 0x100 then .register
  else if off < 0x1000 then .unmapped
  else if off < 0x1400 then .zeta ((off - 0x1000) / 4)
  else if off < 0x1800 then .zetaInv ((off - 0x1400) / 4)
  else if off < 0x2000 then .unmapped
  else if off < 0x2000 + c.bufBytes then .bufWord (off - 0x2000)
  else if off < 0x10000 then .unmapped
  else if off < 0x10000 + 1024 * c.npoly then .coeff ((off - 0x10000) / 4)
  else .unmapped

/-- The aperture offset of a host address, if the address is in the aperture (R85): nothing translates it. -/
def apertureOffset (addr : Nat) : Option (BitVec 17) :=
  if Config.coreBase ≤ addr ∧ addr < Config.coreBase + 0x20000 then some (BitVec.ofNat 17 (addr - Config.coreBase))
  else none

/-- A read of the register block (spec/10_state.md section 2); an unlisted offset reads 0 (R72). -/
def State.readRegister (s : State) (off : Nat) : Word :=
  match off with
  | 0x000 => 0x4E545401#32
  | 0x004 => BitVec.ofNat 32 256
  | 0x008 => BitVec.ofNat 32 q
  | 0x00C => BitVec.ofNat 32 s.cfg.d
  | 0x010 => BitVec.ofNat 32 s.cfg.eta
  | 0x014 => BitVec.ofNat 32 s.cfg.gamma1
  | 0x018 => BitVec.ofNat 32 s.cfg.zbits
  | 0x01C => BitVec.ofNat 32 s.cfg.npoly
  | 0x020 => BitVec.ofNat 32 s.cfg.bufBytes
  | 0x024 => BitVec.ofNat 32 s.cfg.blockBytesU
  | 0x028 => BitVec.ofNat 32 s.cfg.blockBytesE
  | 0x02C => BitVec.ofNat 32 s.cfg.blockBytesG
  | 0x030 => BitVec.ofNat 32 (s.cfg.nbInitU + s.cfg.nbInitE * 2 ^ 8 + s.cfg.nbInitG * 2 ^ 16)
  | 0x040 => s.cmd
  | 0x044 => s.arg
  | 0x048 => s.statusWord
  | 0x04C => s.controlWord
  | 0x050 => s.errinfo
  | 0x054 => s.sampleBytes
  | 0x058 => s.sampleBlocks
  | _ => 0#32

/-- A write to ARG (R35). -/
def State.setArg (s : State) (v : Word) : State := { s with arg := v }

/-- A write to CONTROL (R37): bit 0 performs a soft reset and the other bits of that write are discarded. -/
def State.writeControl (s : State) (v : Word) : State :=
  if v.getLsbD 0 then s.softReset else s.writeEnables v

/-- A write to the register block. Read-only registers and unlisted offsets ignore it (R32, R33, R39, R40, R72). -/
def State.writeRegister (s : State) (off : Nat) (v : Word) : State :=
  match off with
  | 0x040 => s.submit v
  | 0x044 => s.setArg v
  | 0x048 => s.writeStatus v
  | 0x04C => s.writeControl v
  | _ => s

/-- What the access returns to the host (log entry 13). -/
def State.respond (s : State) (r : Option Word) : State := { s with response := r }

/-- The word at `BUF[o]` to `BUF[o+3]`, little-endian (R74). -/
def wordOfBytes (bs : List Byte) : Word :=
  BitVec.ofNat 32 (bs.foldr (fun b n => b.toNat + 256 * n) 0)

/-- The four bytes of a word, least significant first (R74). -/
def bytesOfWord (v : Word) : List Byte :=
  (List.range 4).map (fun i => BitVec.ofNat 8 (v.toNat / 256 ^ i))

/-- An access that is not 4 bytes wide, or not at a multiple of 4 (R76). -/
def badAccess (width : AccessWidth) (off : BitVec 17) : Bool :=
  width != .w4 || off.toNat % 4 != 0

/-- ERRINFO of a refused access: the aperture byte offset (R341). -/
def offsetWord (off : BitVec 17) : Word := BitVec.ofNat 32 off.toNat

/-- A refused read returns 0 (R76, R77), except while BUSY, where it returns an unspecified word (R80). -/
def State.refuseBusyRead (s : State) (off : BitVec 17) : State :=
  { (s.raiseError .accessWhileBusy (offsetWord off)).respond (some (Config.freeWord s.drawn)) with drawn := s.drawn + 1 }

/-- `MemRead(off, width)`. The checks come in the order BAD_ACCESS, BAD_ADDRESS, ACCESS_WHILE_BUSY (R351). -/
def hostRead (width : AccessWidth) (off : BitVec 17) (s : State) : Result :=
  if badAccess width off then .next ((s.raiseError .badAccess (offsetWord off)).respond (some 0#32))
  else
    match regionOf s.cfg off.toNat with
    | .register => .next (s.respond (some (s.readRegister off.toNat)))
    | .zeta k => .next (s.respond (some (BitVec.ofNat 32 (zetas.getD k 0))))
    | .zetaInv k => .next (s.respond (some (BitVec.ofNat 32 (zetasInv.getD k 0))))
    | .unmapped => .next ((s.raiseError .badAddress (offsetWord off)).respond (some 0#32))
    | .bufWord o =>
      if s.busy then .next (s.refuseBusyRead off)
      else s.withBytes o 4 fun bs => .next (s.respond (some (wordOfBytes bs)))
    | .coeff key =>
      if s.busy then .next (s.refuseBusyRead off)
      else
        match Memory.read s.slots key with
        | some v => .next (s.respond (some v))
        | none => .fault (.unwrittenRead .slotFile)

/-- `MemWrite(off, width, value)`, with the same checks in the same order. -/
def hostWrite (width : AccessWidth) (off : BitVec 17) (value : Word) (s : State) : Result :=
  if badAccess width off then .next ((s.raiseError .badAccess (offsetWord off)).respond none)
  else
    match regionOf s.cfg off.toNat with
    | .register => .next ((s.writeRegister off.toNat value).respond none)
    | .zeta _ => .next (s.respond none)
    | .zetaInv _ => .next (s.respond none)
    | .unmapped => .next ((s.raiseError .badAddress (offsetWord off)).respond none)
    | .bufWord o =>
      if s.busy then .next ((s.raiseError .accessWhileBusy (offsetWord off)).respond none)
      else .next ((s.setBytes o (bytesOfWord value)).respond none)
    | .coeff key =>
      if s.busy then .next ((s.raiseError .accessWhileBusy (offsetWord off)).respond none)
      else .next ((s.setCoeff key value).respond none)

end Sys2Proof.Machine
end

