-- ==== Sys2Proof/Machine/Reduction.lean ====
section
/-! DEFINITION. The Modular Reduction Engine: REDUCE, FREEZE, PWMUL (spec/40_reduction.md section 2), and the two shapes of a
per-coefficient command, which the polynomial arithmetic shares: one slot in place, and two sources into a third. Each index
reads its inputs before it writes, so the slots may coincide (spec/70_reset_and_hazards.md R393). -/

namespace Sys2Proof.Machine

/-- A command that replaces slot `rd` by a function of its coefficients, and completes. -/
def inPlace (f : List Nat → List Nat) (rd : Slot) (s : State) : Result :=
  s.withPoly rd fun p => .next (s.setPoly rd (f p)).complete

/-- A command that writes slot `rd` index by index from slots `ra` and `rb`, and completes. -/
def threeSlots (f : Nat → Nat → Nat) (rd ra rb : Slot) (s : State) : Result :=
  s.withPoly ra fun a => s.withPoly rb fun b => .next (s.setPoly rd (List.zipWith f a b)).complete

/-- REDUCE (R135). -/
def execReduce (rd : Slot) (s : State) : Result :=
  inPlace (fun p => p.map reduce32) rd s

/-- FREEZE (R136). -/
def execFreeze (rd : Slot) (s : State) : Result :=
  inPlace (fun p => p.map freezeCoeff) rd s

/-- PWMUL (R137). -/
def execPwmul (rd ra rb : Slot) (s : State) : Result :=
  threeSlots mulCoeff rd ra rb s

end Sys2Proof.Machine
end

