-- ==== Sys2Proof/Machine/Ntt.lean ====
section
/-! DEFINITION. The NTT Engine: NTT and INVNTT (spec/41_ntt.md sections 2 and 3), layer by layer and block by block in the
order of the schedules (R167, R173). The butterflies of one block read the block's old coefficients and write its new ones
together (R165, R175, R182). -/

namespace Sys2Proof.Machine

/-- The 'len' forward butterflies of one block with twiddle `z` (R165), from the block's lower and upper halves: each
`a + t` and then each `a + 2q − t`, with `t = montred(z · b)`. -/
def forwardBlock (z : Nat) (lo hi : List Nat) : List Nat :=
  List.zipWith (fun a b => w32 ((a : Int) + montred (z * b))) lo hi
    ++ List.zipWith (fun a b => w32 ((a : Int) + 2 * q - montred (z * b))) lo hi

/-- The `len` inverse butterflies of one block with twiddle `z` (R175): each `a + b` and then each
`montred(z · (a + 256q − b))`. -/
def inverseBlock (z : Nat) (lo hi : List Nat) : List Nat :=
  List.zipWith (fun a b => w32 ((a : Int) + b)) lo hi
    ++ List.zipWith (fun a b => montred (z * w32 ((a : Int) + 256 * q - b))) lo hi

/-- One layer over the blocks of `2·len` coefficients, with the ROM's words from index `k` on, one a block (R167, R173). -/
def layer (block : Nat → List Nat → List Nat → List Nat) (rom : List Nat) (len : Nat) : Nat → Nat → List Nat → List Nat
  | 0, _, _ => []
  | blocks + 1, k, p =>
    block (rom.getD k 0) (p.take len) ((p.drop len).take len)
      ++ layer block rom len blocks (k + 1) (p.drop (2 * len))

/-- Forward layer `l`, 1 to 8 (R167): `len = 2^(8−l)`, `2^(l−1)` blocks, twiddles from `ZETAS[2^(l−1)]` on. -/
def forwardLayer (l : Nat) (p : List Nat) : List Nat :=
  layer forwardBlock zetas (2 ^ (8 - l)) (2 ^ (l - 1)) (2 ^ (l - 1)) p

/-- Inverse layer `l`, 1 to 8 (R173): `len = 2^(l−1)`, `2^(8−l)` blocks, twiddles from `ZETAS_INV[256 − 2^(9−l)]` on. -/
def inverseLayer (l : Nat) (p : List Nat) : List Nat :=
  layer inverseBlock zetasInv (2 ^ (l - 1)) (2 ^ (8 - l)) (256 - 2 ^ (9 - l)) p

/-- The forward transform: layers 1 to 8 in this order (R164, R166). -/
def forwardNtt (p : List Nat) : List Nat :=
  [1, 2, 3, 4, 5, 6, 7, 8].foldl (fun p l => forwardLayer l p) p

/-- The inverse transform: layers 1 to 8 in this order, then the final scaling by F (R172, R174, R176). -/
def inverseNtt (p : List Nat) : List Nat :=
  ([1, 2, 3, 4, 5, 6, 7, 8].foldl (fun p l => inverseLayer l p) p).map (fun v => montred (finalScale * v))

/-- NTT (R166). -/
def execNtt (rd : Slot) (s : State) : Result :=
  inPlace forwardNtt rd s

/-- INVNTT (R174). -/
def execInvntt (rd : Slot) (s : State) : Result :=
  inPlace inverseNtt rd s

end Sys2Proof.Machine
end

