-- ==== Sys2Proof/Machine/Packing.lean ====
section
/-! DEFINITION. The bit-packers and unpackers (spec/44_packing.md): one little-endian bit string of 256 fields (R290), the
field formulas of the roles (R292, R293), and the five PACK and five UNPACK commands. -/

namespace Sys2Proof.Machine

/-- The integer in which field `i` occupies bits `i·w` to `i·w + w − 1` (R290, R297). -/
def joinFields (w : Nat) : List Nat → Nat
  | [] => 0
  | f :: fs => f + 2 ^ w * joinFields w fs

/-- The first `n` fields of `w` bits of an integer (R290, R298). -/
def splitFields (w n v : Nat) : List Nat :=
  (List.range n).map (fun i => v / 2 ^ (i * w) % 2 ^ w)

/-- `pack_field_r` (R292): it depends on the coefficient's residue alone. -/
def packField (c : Config) (r : Role) (x : Nat) : Nat :=
  if roleBiased r then (((roleOffset c r : Int) - centered x) % (2 ^ roleWidth c r : Nat)).toNat
  else x % q % 2 ^ roleWidth c r

/-- `unpack_value_r` (R293): a standard representative, for every field value. -/
def unpackValue (c : Config) (r : Role) (f : Nat) : Nat :=
  if roleBiased r then (((roleOffset c r : Int) - f) % q).toNat else f

/-- The packed bytes of a polynomial (R297). -/
def packPoly (c : Config) (r : Role) (p : List Nat) : List Byte :=
  (splitFields 8 (roleSize c r) (joinFields (roleWidth c r) (p.map (packField c r)))).map (BitVec.ofNat 8)

/-- The polynomial of packed bytes (R298). -/
def unpackBytes (c : Config) (r : Role) (bs : List Byte) : List Nat :=
  (splitFields (roleWidth c r) 256 (joinFields 8 (bs.map BitVec.toNat))).map (unpackValue c r)

/-- A PACK command (R297): SIZE_r bytes of BUF from the offset in LARG on are written, and no slot (R296). -/
def pack (r : Role) (ra : Slot) (s : State) : Result :=
  s.withPoly ra fun p => .next (s.setBytes s.offset (packPoly s.cfg r p)).complete

/-- An UNPACK command (R298): SIZE_r bytes of BUF are read and slot `rd` is written, and no byte of BUF (R296). -/
def unpack (r : Role) (rd : Slot) (s : State) : Result :=
  s.withBytes s.offset (roleSize s.cfg r) fun bs => .next (s.setPoly rd (unpackBytes s.cfg r bs)).complete

/-- PACK_ETA (R300). -/
def execPackEta (ra : Slot) (s : State) : Result := pack .eta ra s

/-- PACK_T0 (R301). -/
def execPackT0 (ra : Slot) (s : State) : Result := pack .t0 ra s

/-- PACK_T1 (R302). -/
def execPackT1 (ra : Slot) (s : State) : Result := pack .t1 ra s

/-- PACK_Z (R303). -/
def execPackZ (ra : Slot) (s : State) : Result := pack .z ra s

/-- PACK_W1 (R304). -/
def execPackW1 (ra : Slot) (s : State) : Result := pack .w1 ra s

/-- UNPACK_ETA (R310). -/
def execUnpackEta (rd : Slot) (s : State) : Result := unpack .eta rd s

/-- UNPACK_T0 (R311). -/
def execUnpackT0 (rd : Slot) (s : State) : Result := unpack .t0 rd s

/-- UNPACK_T1 (R312). -/
def execUnpackT1 (rd : Slot) (s : State) : Result := unpack .t1 rd s

/-- UNPACK_Z (R313). -/
def execUnpackZ (rd : Slot) (s : State) : Result := unpack .z rd s

/-- UNPACK_W1 (R314). -/
def execUnpackW1 (rd : Slot) (s : State) : Result := unpack .w1 rd s

end Sys2Proof.Machine
end

