-- ==== Sys2Proof/Machine/PolyArith.lean ====
section
/-! DEFINITION. Polynomial arithmetic, the norm check and the power-of-two decomposition: ADD, SUB, SHL, CHKNORM,
POWER2ROUND (spec/42_arith.md). -/

namespace Sys2Proof.Machine

/-- ADD (R200). -/
def execAdd (rd ra rb : Slot) (s : State) : Result :=
  threeSlots addCoeff rd ra rb s

/-- SUB (R202). -/
def execSub (rd ra rb : Slot) (s : State) : Result :=
  threeSlots subCoeff rd ra rb s

/-- SHL by the configuration parameter D (R204). -/
def execShl (rd : Slot) (s : State) : Result :=
  inPlace (fun p => p.map (shlCoeff s.cfg.d)) rd s

/-- CHKNORM (R216): NORM says whether some coefficient's norm value is at least the bound B, an unsigned compare with no guard
on B (R213). No slot is written. -/
def execChknorm (ra : Slot) (s : State) : Result :=
  s.withPoly ra fun p => .next (s.setNorm (p.any (fun a => decide (s.bound ≤ chkval a)))).complete

/-- POWER2ROUND (R224): the source is read before either destination is written; `rd` receives the high parts and `rb` the
low parts. -/
def execPower2round (rd ra rb : Slot) (s : State) : Result :=
  s.withPoly ra fun p =>
    .next ((s.setPoly rd (p.map (highPart s.cfg.d))).setPoly rb (p.map (lowPart s.cfg.d))).complete

end Sys2Proof.Machine
end

