-- ==== Sys2Proof/Machine/Samplers.lean ====
section
/-! DEFINITION. The rejection samplers: SAMPLE_UNIFORM, SAMPLE_ETA, SAMPLE_GAMMA1M1 (spec/43_samplers.md). A sampler is a
sequence of steps that meets the outside through the stream port alone (spec/70_reset_and_hazards.md R390): it opens the
session and asks for the first blocks, waits for the Source's DATA, consumes every chunk delivered, and either completes or
asks for one block more. -/

namespace Sys2Proof.Machine

/-- `fields_kind` (R253, R262, R272): the candidate values of one chunk of `chunkBytes` bytes, in order. -/
def chunkFields (c : Config) : SamplerKind → List Nat → List Nat
  | .U, [b0, b1, b2] => [(b0 + b1 * 2 ^ 8 + b2 * 2 ^ 16) % 2 ^ 23]
  | .E, [b] => if c.eta ≤ 3 then [b % 8, b / 2 ^ 5] else [b % 16, b / 2 ^ 4]
  | .G, [b0, b1, b2, b3, b4] =>
    [(b0 + b1 * 2 ^ 8 + b2 * 2 ^ 16 + b3 * 2 ^ 24 + b4 * 2 ^ 32) % 2 ^ 20,
      (b0 + b1 * 2 ^ 8 + b2 * 2 ^ 16 + b3 * 2 ^ 24 + b4 * 2 ^ 32) / 2 ^ 20]
  | _, _ => []

/-- `accept_kind` (R254, R263, R273). -/
def acceptField (c : Config) (k : SamplerKind) (t : Nat) : Bool :=
  match k with
  | .U => decide (t < q)
  | .E => decide (t ≤ 2 * c.eta)
  | .G => decide (t ≤ 2 * c.gamma1 - 2)

/-- `out_kind` (R254, R263, R273): the coefficient of an accepted field, Q-biased for eta and gamma1m1. -/
def outField (c : Config) (k : SamplerKind) (t : Nat) : Nat :=
  match k with
  | .U => t
  | .E => q + c.eta - t
  | .G => q + c.gamma1 - 1 - t

/-- Test the fields of one chunk in order, with room for so many coefficients more: the coefficients of those accepted. With no
room left a field is not tested and not used (R249). -/
def takeFields (c : Config) (k : SamplerKind) : Nat → List Nat → List Word
  | 0, _ => []
  | _ + 1, [] => []
  | room + 1, t :: ts =>
    if acceptField c k t then BitVec.ofNat 32 (outField c k t) :: takeFields c k room ts
    else takeFields c k (room + 1) ts

/-- What one chunk adds, with room for so many coefficients more. -/
def chunkCoeffs (c : Config) (k : SamplerKind) (room : Nat) (chunk : List Byte) : List Word :=
  takeFields c k room (chunkFields c k (chunk.map BitVec.toNat))

/-- The inner loop of R248 on the bytes delivered and not yet consumed: while there is room and a whole chunk is there, process
it. The answer is the coefficients accepted and the number of bytes consumed; the first number bounds the rounds. -/
def consume (c : Config) (k : SamplerKind) : Nat → Nat → List Byte → List Word × Nat
  | 0, _, _ => ([], 0)
  | n + 1, room, bs =>
    if 0 < room ∧ (bs.take (chunkBytes k)).length = chunkBytes k then
      let new := chunkCoeffs c k room (bs.take (chunkBytes k))
      let rest := consume c k n (room - new.length) (bs.drop (chunkBytes k))
      (new ++ rest.1, chunkBytes k + rest.2)
    else ([], 0)

/-- The inner loop on the bytes of the session delivered so far, from `pos` on; each round consumes at least one byte. -/
def consumeDelivered (s : State) (k : SamplerKind) (m : Sampler) : Sampler :=
  let r := consume s.cfg k (m.avail - m.pos) (256 - m.got.length) (s.streamBytes k s.nonce m.pos (m.avail - m.pos))
  { m with got := m.got ++ r.1, pos := m.pos + r.2 }

/-- A count as a `u32` register; the spec states no value for a count of 2^32 or more, and `free` stands for it (log entry 11). -/
def countWord (free : Nat → Word) (v : Nat) : Word :=
  if v < 2 ^ 32 then BitVec.ofNat 32 v else free v

/-- SAMPLE_BYTES and SAMPLE_BLOCKS, written when a sampler completes (spec/10_state.md R40). Both depend on the kind, the nonce
and the count alone, so equal commands write equal counts, however large (R276). -/
def State.setCounts (s : State) (k : SamplerKind) (bytes blocks : Nat) : State :=
  { s with
    sampleBytes := countWord (Config.freeBytesCount k s.nonce) bytes
    sampleBlocks := countWord (Config.freeBlocksCount k s.nonce) blocks }

/-- The sampler state is written (R44). -/
def State.setSampler (s : State) (m : Option Sampler) : State :=
  { s with sampler := m }

/-- The first step of a sampler (R248): OPEN and SQUEEZE(NBI), from the counters of a new command. -/
def samplerStart (k : SamplerKind) (s : State) : State :=
  ((s.openSession k s.nonce).setSampler
    (some { got := [], pos := 0, avail := 0, blk := initialBlocks s.cfg k })).sendSqueeze (initialBlocks s.cfg k)

/-- The last step of a sampler (R248, R340): the 256 coefficients are written, the session is closed, the counts are written
and the command completes; the sampler state is discarded (R44). -/
def samplerFinish (k : SamplerKind) (rd : Slot) (m : Sampler) (s : State) : State :=
  (((s.setPoly rd (m.got.map BitVec.toNat)).closeSession.setCounts k m.pos m.blk).setSampler none).complete

/-- A sampler that is short asks for exactly one block more (R248). -/
def samplerRefill (m : Sampler) (s : State) : State :=
  (s.setSampler (some { m with blk := m.blk + 1 })).sendSqueeze 1

/-- One step of a sampler command (R248): with no session open yet, the first one. While a SQUEEZE is outstanding the CORE waits:
nothing changes (R243). -/
def runSampler (k : SamplerKind) (rd : Slot) (s : State) : Result :=
  match s.session, s.sampler with
  | none, _ => .next (samplerStart k s)
  | some _, none => .next (samplerStart k s)
  | some _, some m =>
    match s.squeeze with
    | some _ => .next s
    | none =>
      let m' := consumeDelivered s k m
      if m'.got.length = 256 then .next (samplerFinish k rd m' s) else .next (samplerRefill m' s)

/-- SAMPLE_UNIFORM (R252). -/
def execSampleUniform (rd : Slot) (s : State) : Result :=
  runSampler .U rd s

/-- SAMPLE_ETA (R260). -/
def execSampleEta (rd : Slot) (s : State) : Result :=
  runSampler .E rd s

/-- SAMPLE_GAMMA1M1 (R270). -/
def execSampleGamma1m1 (rd : Slot) (s : State) : Result :=
  runSampler .G rd s

end Sys2Proof.Machine
end

