-- ==== Sys2Proof/Machine/Dispatch.lean ====
section
/-! DEFINITION. One arm for each command of the opcode map (spec/30_encoding.md R105): its meaning. -/

namespace Sys2Proof.Machine

def exec (i : Instr) (s : State) : Host.Outcome State Fault Refusal :=
  match i with
  | .reduce rd => Sys2Proof.Machine.execReduce rd s
  | .freeze rd => Sys2Proof.Machine.execFreeze rd s
  | .pwmul rd ra rb => Sys2Proof.Machine.execPwmul rd ra rb s
  | .ntt rd => Sys2Proof.Machine.execNtt rd s
  | .invntt rd => Sys2Proof.Machine.execInvntt rd s
  | .add rd ra rb => Sys2Proof.Machine.execAdd rd ra rb s
  | .sub rd ra rb => Sys2Proof.Machine.execSub rd ra rb s
  | .shl rd => Sys2Proof.Machine.execShl rd s
  | .chknorm ra => Sys2Proof.Machine.execChknorm ra s
  | .power2round rd ra rb => Sys2Proof.Machine.execPower2round rd ra rb s
  | .sampleUniform rd => Sys2Proof.Machine.execSampleUniform rd s
  | .sampleEta rd => Sys2Proof.Machine.execSampleEta rd s
  | .sampleGamma1m1 rd => Sys2Proof.Machine.execSampleGamma1m1 rd s
  | .packEta ra => Sys2Proof.Machine.execPackEta ra s
  | .packT0 ra => Sys2Proof.Machine.execPackT0 ra s
  | .packT1 ra => Sys2Proof.Machine.execPackT1 ra s
  | .packZ ra => Sys2Proof.Machine.execPackZ ra s
  | .packW1 ra => Sys2Proof.Machine.execPackW1 ra s
  | .unpackEta rd => Sys2Proof.Machine.execUnpackEta rd s
  | .unpackT0 rd => Sys2Proof.Machine.execUnpackT0 rd s
  | .unpackT1 rd => Sys2Proof.Machine.execUnpackT1 rd s
  | .unpackZ rd => Sys2Proof.Machine.execUnpackZ rd s
  | .unpackW1 rd => Sys2Proof.Machine.execUnpackW1 rd s

end Sys2Proof.Machine
end

