-- ==== Sys2Proof/Machine/Engine.lean ====
section
/-! DEFINITION. The moves of the agents: the command engine runs the latched command (spec/10_state.md R38), the Stream Source
answers (spec/43_samplers.md R242, R244), the platform resets (spec/70_reset_and_hazards.md R381), and the host accesses the
aperture (Machine/Aperture.lean). -/

namespace Sys2Proof.Machine

/-- The latched word does not pass the checks of R342. No run comes here: acceptance is checked (R340). The error the spec
gives such a word is recorded and the engine is idle (log entry 10). -/
def State.dropLatched (s : State) (e : ErrCode) : State :=
  { s.raiseError e s.lcmd with busy := false, phase := .idle, sampler := none }

/-- The command engine: the single command latched by the last accepted CMD write is executed (R38); with no command it is
idle and holds all state (spec/60_exceptions.md R365). -/
def engine (s : State) : Result :=
  match s.phase with
  | .idle => .next s
  | .running =>
    match commandCheck s.cfg s.lcmd s.larg with
    | .ok i => exec i s
    | .error e => .next (s.dropLatched e)

/-- The Stream Source answers the outstanding SQUEEZE(n) with exactly `n · BLOCKBYTES_kind` bytes (R242): that many more
bytes of the session are delivered. -/
def deliver (s : State) : Result :=
  match s.session, s.squeeze, s.sampler with
  | some p, some n, some m =>
    .next { s with
      squeeze := none
      sampler := some { m with avail := m.avail + n * blockBytes s.cfg p.kind }
      portLog := s.portLog ++ [.data (n * blockBytes s.cfg p.kind)] }
  | _, _, _ => .fault .sourceProtocol

/-- A DATA that arrives after the CLOSE of its session is discarded (R244, R383). -/
def discardLate (s : State) : Result :=
  match s.abandoned with
  | 0 => .fault .sourceProtocol
  | n + 1 => .next { s with abandoned := n }

/-- One move of one agent. -/
def perform (m : Move) (s : State) : Result :=
  match m with
  | .hostRead width off => hostRead width off s
  | .hostWrite width off value => hostWrite width off value s
  | .core => engine s
  | .data => deliver s
  | .lateData => discardLate s
  | .powerOn => .next s.powerOn

/-- The move at the head of the agenda happens; when there is none, the command engine moves. -/
def nextMove (s : State) : Result :=
  match s.agenda with
  | [] => engine s
  | m :: rest => perform m { s with agenda := rest }

/-- `w` is the latched command, accepted and about to run, and the engine moves next: what an accepted CMD write of `w`
leaves (R340), with no session left from before and the engine's move ahead of any other (log entry 9). -/
def State.latchCommand (s : State) (w : Word) : State :=
  { s.accept w with
    cmd := w
    session := none
    squeeze := none
    agenda := match s.agenda with
      | [] => []
      | m :: rest => .core :: m :: rest }

end Sys2Proof.Machine
end

