-- ==== Sys2Proof/Machine/Step.lean ====
section
/-! DEFINITION. One step of the machine, and how an instruction is placed where the next step runs it. -/

namespace Sys2Proof.Machine

/-- One step: the next move of the agenda, or the command engine's when there is none. -/
def step (s : State) : Host.Outcome State Fault Refusal := nextMove s

/-- The CORE fetches no instruction (spec/10_state.md R38): it runs the command that an accepted CMD write latched. So the
word is latched as that write leaves it, and the engine moves next (log entry 9). Every command is one word of 32 bits. -/
def State.withFetchWord (s : State) (nbits w : Nat) : State :=
  s.latchCommand (BitVec.ofNat 32 (w % 2 ^ nbits))

end Sys2Proof.Machine
end

