-- ==== Sys2Proof/Safety.lean ====
section
/-! DEFINITION. What the claims speak of: a safe run, the invariants of the machine, what a command's completion leaves
unchanged, and the sampler on a fully buffered stream (spec/43_samplers.md R275). -/

namespace Sys2Proof.Machine

/-! ### Runs -/

/-- One step that answers a next state. -/
def Next (s t : State) : Prop := step s = .next t

/-- `t` is reached from `s` by steps that all answer a next state. -/
def Steps (s t : State) : Prop := Relation.ReflTransGen Next s t

/-- A run from `s` is safe if no state it reaches ends in a fault or a refusal. -/
def Safe (s : State) : Prop := ∀ t, Steps s t → ∃ u, Next t u

/-! ### Reading storage -/

/-- Every coefficient of slot `k` has been written. -/
def State.Readable (s : State) (k : Slot) : Prop := ∀ i < 256, (s.coeff k i).isSome = true

/-- The bytes `BUF[off .. off + n − 1]` have been written. -/
def State.BytesReadable (s : State) (off n : Nat) : Prop := ∀ i < n, (s.bufByte (off + i)).isSome = true

/-- The integer in coefficient `i` of slot `k`, where it has been written. -/
def State.val (s : State) (k : Slot) (i : Nat) : Nat := ((s.coeff k i).map BitVec.toNat).getD 0

/-- The integer in byte `o` of BUF, where it has been written. -/
def State.byteVal (s : State) (o : Nat) : Nat := ((s.bufByte o).map BitVec.toNat).getD 0

/-! ### Frames -/

/-- Every coefficient of every slot but those listed reads as before. -/
def SlotsSameBut (ds : List Slot) (s t : State) : Prop :=
  ∀ k i, i < 256 → (∀ d ∈ ds, k ≠ d.val) → t.coeff k i = s.coeff k i

/-- Every byte of BUF reads as before. -/
def BufSame (s t : State) : Prop := ∀ o, t.bufByte o = s.bufByte o

/-- Every byte of BUF outside `[off, off + n)` reads as before. -/
def BufSameBut (off n : Nat) (s t : State) : Prop := ∀ o, (o < off ∨ off + n ≤ o) → t.bufByte o = s.bufByte o

/-- Every register and every piece of hidden state but BUSY, DONE, NORM and PHASE is as before. -/
structure RegistersSame (s t : State) : Prop where
  cfg : t.cfg = s.cfg
  cmd : t.cmd = s.cmd
  arg : t.arg = s.arg
  err : t.err = s.err
  errcode : t.errcode = s.errcode
  ieDone : t.ieDone = s.ieDone
  ieErr : t.ieErr = s.ieErr
  errinfo : t.errinfo = s.errinfo
  sampleBytes : t.sampleBytes = s.sampleBytes
  sampleBlocks : t.sampleBlocks = s.sampleBlocks
  lcmd : t.lcmd = s.lcmd
  larg : t.larg = s.larg
  sampler : t.sampler = s.sampler
  session : t.session = s.session
  squeeze : t.squeeze = s.squeeze
  abandoned : t.abandoned = s.abandoned
  streams : t.streams = s.streams
  agenda : t.agenda = s.agenda
  response : t.response = s.response
  portLog : t.portLog = s.portLog
  drawn : t.drawn = s.drawn

/-- A command completes (spec/60_exceptions.md R340): BUSY is 0, DONE is 1, PHASE is idle, NORM is `n`, and every other
register is as before. -/
structure Completes (n : Bool) (s t : State) : Prop extends RegistersSame s t where
  busy : t.busy = false
  done : t.done = true
  phase : t.phase = .idle
  norm : t.norm = n

/-- Nothing but the error record (ERR, ERRCODE, ERRINFO), CMD and what the host and the draws see differs: no slot, no byte, no
other register, no port message (spec/60_exceptions.md R346). -/
structure OnlyErrorRecord (s t : State) : Prop where
  cfg : t.cfg = s.cfg
  slots : t.slots = s.slots
  buf : t.buf = s.buf
  arg : t.arg = s.arg
  busy : t.busy = s.busy
  done : t.done = s.done
  norm : t.norm = s.norm
  ieDone : t.ieDone = s.ieDone
  ieErr : t.ieErr = s.ieErr
  sampleBytes : t.sampleBytes = s.sampleBytes
  sampleBlocks : t.sampleBlocks = s.sampleBlocks
  lcmd : t.lcmd = s.lcmd
  larg : t.larg = s.larg
  phase : t.phase = s.phase
  sampler : t.sampler = s.sampler
  session : t.session = s.session
  squeeze : t.squeeze = s.squeeze
  abandoned : t.abandoned = s.abandoned
  streams : t.streams = s.streams
  agenda : t.agenda = s.agenda
  portLog : t.portLog = s.portLog

/-- The record of an error with this code and information word (R345): the first since ERR was last cleared is kept. -/
structure Records (code : ErrCode) (info : Word) (s t : State) : Prop where
  err : t.err = true
  errcode : t.errcode = if s.err = true then s.errcode else code
  errinfo : t.errinfo = if s.err = true then s.errinfo else info

/-! ### Invariants -/

/-- The machine's invariant: storage is in canonical form and inside the build's slots and BUF; BUSY says that a command runs;
the error registers are 0 when ERR is 0; a running command has passed the decode checks; a sampler state exists exactly while a
sampler command runs (R44), at 0 until its session is open; and a session and an outstanding SQUEEZE exist only with it. -/
structure State.Inv (s : State) : Prop where
  legal : s.cfg.legal = true
  slots_wf : Memory.wf s.slots = true
  slots_below : ∀ c ∈ s.slots, c.1 < 256 * s.cfg.npoly
  buf_wf : Memory.wf s.buf = true
  buf_below : ∀ c ∈ s.buf, c.1 < s.cfg.bufBytes
  busy_running : s.busy = true ↔ s.phase = .running
  busy_not_done : s.busy = true → s.done = false
  err_code : s.err = true ↔ s.errcode ≠ .noError
  err_info : s.err = false → s.errinfo = 0#32
  latched : s.phase = .running → ∃ i, commandCheck s.cfg s.lcmd s.larg = .ok i
  session_latched : ∀ p, s.session = some p → s.phase = .running ∧ p.nonce = s.nonce ∧
    ∃ i, commandCheck s.cfg s.lcmd s.larg = .ok i ∧ samplerKind i = some p.kind
  sampler_running : s.sampler.isSome = true ↔
    s.phase = .running ∧ ∃ i k, commandCheck s.cfg s.lcmd s.larg = .ok i ∧ samplerKind i = some k
  session_sampler : s.session.isSome = true → s.sampler.isSome = true
  sampler_fresh : s.session = none → ∀ m, s.sampler = some m → m = ⟨[], 0, 0, 0⟩
  squeeze_session : s.squeeze.isSome = true → s.session.isSome = true

/-! ### A sampler on the fully buffered stream -/

/-- `CH` of R248, written out. -/
def chunkLength : SamplerKind → Nat
  | .U => 3
  | .E => 1
  | .G => 5

/-- The fields of chunk `j` of a stream, written out from R253, R262 and R272 (the bit positions are the spec's choice D13). -/
def streamFields (c : Config) (k : SamplerKind) (src : Nat → Byte) (j : Nat) : List Nat :=
  match k with
  | .U => [((src (3 * j)).toNat + (src (3 * j + 1)).toNat * 2 ^ 8 + (src (3 * j + 2)).toNat * 2 ^ 16) % 2 ^ 23]
  | .E =>
    if c.eta ≤ 3 then [(src j).toNat % 2 ^ 3, (src j).toNat / 2 ^ 5] else [(src j).toNat % 2 ^ 4, (src j).toNat / 2 ^ 4]
  | .G =>
    let w := (src (5 * j)).toNat + (src (5 * j + 1)).toNat * 2 ^ 8 + (src (5 * j + 2)).toNat * 2 ^ 16
      + (src (5 * j + 3)).toNat * 2 ^ 24 + (src (5 * j + 4)).toNat * 2 ^ 32
    [w % 2 ^ 20, w / 2 ^ 20]

/-- The coefficient that a field gives, if it is accepted, written out from R254, R263 and R273. -/
def streamValue (c : Config) (k : SamplerKind) (t : Nat) : Option Word :=
  match k with
  | .U => if t < 8380417 then some (BitVec.ofNat 32 t) else none
  | .E => if t ≤ 2 * c.eta then some (BitVec.ofNat 32 (8380417 + c.eta - t)) else none
  | .G => if t ≤ 2 * c.gamma1 - 2 then some (BitVec.ofNat 32 (8380417 + c.gamma1 - 1 - t)) else none

/-- The coefficients of the accepted fields of the first `n` chunks of a stream, in order, with no delivery boundary and no
stop at 256. -/
def streamCoeffs (c : Config) (k : SamplerKind) (src : Nat → Byte) (n : Nat) : List Word :=
  (List.range n).flatMap fun j => (streamFields c k src j).filterMap (streamValue c k)

/-- `n` chunks are the fewest that accept 256 coefficients (spec/43_samplers.md R249, R250). -/
def ChunksNeeded (c : Config) (k : SamplerKind) (src : Nat → Byte) (n : Nat) : Prop :=
  256 ≤ (streamCoeffs c k src n).length ∧ ∀ m < n, (streamCoeffs c k src m).length < 256

/-- The sampler state of an open session agrees with its stream: it has processed a whole number of chunks and holds what they
accept, fewer than 256; the bytes delivered are those of the blocks requested less the outstanding ones; a block beyond the
first request was requested only when the next chunk was not wholly delivered (R248). -/
structure Tracks (k : SamplerKind) (m : Sampler) (s : State) : Prop where
  opened : s.session = some ⟨k, s.nonce⟩
  chunks : ∃ n, m.pos = chunkLength k * n ∧ m.got = streamCoeffs s.cfg k (s.streamByte k s.nonce) n
  short : m.got.length < 256
  delivered : m.avail + s.squeeze.getD 0 * blockBytes s.cfg k = m.blk * blockBytes s.cfg k
  within : m.pos ≤ m.avail
  requested : initialBlocks s.cfg k ≤ m.blk
  needed : m.blk = initialBlocks s.cfg k ∨ (m.blk - 1) * blockBytes s.cfg k < m.pos + chunkLength k

/-- Whenever a session is open, the sampler state tracks its stream. -/
def State.StreamInv (s : State) : Prop :=
  ∀ p m, s.session = some p → s.sampler = some m → Tracks p.kind m s

end Sys2Proof.Machine
end

