-- ==== Sys2Proof/Certificates/Slice0/Obligations.lean ====
section
/-! DEFINITION. The statements for the provers. Each docstring names the rules of spec/ it formalises; a clause that rests on a
choice of the model names its log entry. -/

open Sys2Proof Sys2Proof.Machine

/-! ### The spec's own tables and formulas, written out, so that no statement reads them from the machine -/

/-- The PACK command of a role (R291). -/
def packInstr (ra : Slot) : Role → Instr
  | .eta => .packEta ra
  | .t0 => .packT0 ra
  | .t1 => .packT1 ra
  | .z => .packZ ra
  | .w1 => .packW1 ra

/-- The UNPACK command of a role (R291). -/
def unpackInstr (rd : Slot) : Role → Instr
  | .eta => .unpackEta rd
  | .t0 => .unpackT0 rd
  | .t1 => .unpackT1 rd
  | .z => .unpackZ rd
  | .w1 => .unpackW1 rd

/-- `W_r` (R291, R11). -/
def packedWidth (c : Config) : Role → Nat
  | .eta => if 2 * c.eta ≤ 7 then 3 else 4
  | .t0 => c.d
  | .t1 => 23 - c.d
  | .z => c.zbits
  | .w1 => 4

/-- `SIZE_r = 256 · W_r / 8` (R290, R11). -/
def packedSize (c : Config) (r : Role) : Nat := 32 * packedWidth c r

/-- `centered(x)` (R14). -/
def centeredRep (x : Nat) : Int :=
  if x % 8380417 ≤ 4190208 then (x % 8380417 : Nat) else ((x % 8380417 : Nat) : Int) - 8380417

/-- `pack_field_r` (R292), before `mod 2^W_r`: `OFF_r − centered(x)` with the offsets of R291, or `x mod q` for t1 and w1. -/
def fieldOf (c : Config) (r : Role) (x : Nat) : Int :=
  match r with
  | .eta => c.eta - centeredRep x
  | .t0 => 2 ^ (c.d - 1) - centeredRep x
  | .t1 => (x % 8380417 : Nat)
  | .z => (c.gamma1 : Int) - 1 - centeredRep x
  | .w1 => (x % 8380417 : Nat)

/-- `unpack_value_r` (R293). -/
def valueOf (c : Config) (r : Role) (f : Nat) : Int :=
  match r with
  | .eta => ((c.eta : Int) - f) % 8380417
  | .t0 => ((2 : Int) ^ (c.d - 1) - f) % 8380417
  | .t1 => f
  | .z => ((c.gamma1 : Int) - 1 - f) % 8380417
  | .w1 => f

/-- The destination table of R383: the slots that a command writes, and the role of a PACK. -/
def destinationTable : Instr → List Slot × Option Role
  | .reduce rd => ([rd], none)
  | .freeze rd => ([rd], none)
  | .ntt rd => ([rd], none)
  | .invntt rd => ([rd], none)
  | .shl rd => ([rd], none)
  | .pwmul rd _ _ => ([rd], none)
  | .add rd _ _ => ([rd], none)
  | .sub rd _ _ => ([rd], none)
  | .power2round rd _ rb => ([rd, rb], none)
  | .sampleUniform rd => ([rd], none)
  | .sampleEta rd => ([rd], none)
  | .sampleGamma1m1 rd => ([rd], none)
  | .unpackEta rd => ([rd], none)
  | .unpackT0 rd => ([rd], none)
  | .unpackT1 rd => ([rd], none)
  | .unpackZ rd => ([rd], none)
  | .unpackW1 rd => ([rd], none)
  | .packEta _ => ([], some .eta)
  | .packT0 _ => ([], some .t0)
  | .packT1 _ => ([], some .t1)
  | .packZ _ => ([], some .z)
  | .packW1 _ => ([], some .w1)
  | .chknorm _ => ([], none)

/-- The ERRCODE values (R341). -/
def errorCodeTable : ErrCode → Nat
  | .noError => 0x00
  | .illegalOpcode => 0x01
  | .illegalField => 0x02
  | .badSlot => 0x03
  | .aliased => 0x04
  | .bufRange => 0x05
  | .cmdWhileBusy => 0x06
  | .accessWhileBusy => 0x07
  | .badAddress => 0x08
  | .badAccess => 0x09

/-- `brv8(k)` (R14): bit `i` is bit `7 − i` of `k`. -/
def bitReversal (k : Nat) : Nat := ∑ i ∈ Finset.range 8, k / 2 ^ (7 - i) % 2 * 2 ^ i

/-- `ZETAS[k]` (R160). -/
def zetaWord (k : Nat) : Nat := 1753 ^ bitReversal k * 2 ^ 32 % 8380417

/-- `ZETAS_INV[k]` (R161). -/
def zetaInvWord (k : Nat) : Nat := 8380417 - zetaWord (255 - k)

/-- `w32` (R12). -/
def wrap32 (v : Int) : Nat := (v % 2 ^ 32).toNat

/-- `montred` (R130). -/
def montgomery (a : Nat) : Nat := (a + a % 2 ^ 32 * 4236238847 % 2 ^ 32 * 8380417) % 2 ^ 64 / 2 ^ 32

/-- `BLOCKBYTES_k` (R10). -/
def blockLength (c : Config) : SamplerKind → Nat
  | .U => c.blockBytesU
  | .E => c.blockBytesE
  | .G => c.blockBytesG

/-- `NB_INIT_k` (R10). -/
def firstRequest (c : Config) : SamplerKind → Nat
  | .U => c.nbInitU
  | .E => c.nbInitE
  | .G => c.nbInitG

/-! ### Decoding -/

/-- R113: the encoding examples, with `pwmul p2, p0, p1` for the three-slot format and its field order. -/
def Obligations.SpecExampleWordsDecode : Prop :=
  decode 0x00000304#32 = .ok (.ntt 3) ∧ decode 0x00000205#32 = .ok (.invntt 2)
    ∧ decode 0x00010203#32 = .ok (.pwmul 2 0 1) ∧ decode 0x00076806#32 = .ok (.add 8 6 7)
    ∧ decode 0x00044407#32 = .ok (.sub 4 4 4) ∧ decode 0x0007560A#32 = .ok (.power2round 6 5 7)
    ∧ decode 0x00004009#32 = .ok (.chknorm 4) ∧ decode 0x00003018#32 = .ok (.packEta 3)
    ∧ decode 0x00000420#32 = .ok (.unpackEta 4) ∧ decode 0x00000311#32 = .ok (.sampleEta 3)
    ∧ decode 0x00000012#32 = .ok (.sampleGamma1m1 0)

/-- R100, R101, R102, R105: decoding and encoding are inverse, for every command with every operand and for every word. -/
def Obligations.DecodeAndEncodeAgree : Prop :=
  ∀ (i : Instr) (w : Word), decode w = .ok i ↔ encode i = w

/-- R107 with the opcode map of R105 and the masks of R102, both written out: every word is exactly one command or is refused
with one named error. -/
def Obligations.EveryWordIsOneCommandOrOneError : Prop :=
  ∀ w : Word,
    let op := w.toNat % 64
    let formatD := op ∈ [0x01, 0x02, 0x04, 0x05, 0x08, 0x10, 0x11, 0x12, 0x20, 0x21, 0x22, 0x23, 0x24]
    let formatS := op ∈ [0x09, 0x18, 0x19, 0x1A, 0x1B, 0x1C]
    let formatT := op ∈ [0x03, 0x06, 0x07, 0x0A]
    let fits := (formatD ∧ (w &&& 0xFFFFF0FF#32).toNat = op) ∨ (formatS ∧ (w &&& 0xFFFF0FFF#32).toNat = op)
      ∨ (formatT ∧ (w &&& 0xFFF000FF#32).toNat = op)
    (decode w = .error .illegalOpcode ↔ ¬ (formatD ∨ formatS ∨ formatT))
      ∧ (decode w = .error .illegalField ↔ (formatD ∨ formatS ∨ formatT) ∧ ¬ fits)
      ∧ ((∃ i, decode w = .ok i) ↔ fits)

/-! ### The step -/

/-- R38: the engine executes the single command latched by the last accepted CMD write. With no move ahead of the engine's, a
step in RUNNING is `exec` of the decoded command, and a step in IDLE changes nothing (R365). The agenda and the placement of a
word by `withFetchWord` are the model's (log entries 3, 9). -/
def Obligations.StepRunsTheLatchedCommand : Prop :=
  (∀ (s : State) (i : Instr), s.phase = .running → decode s.lcmd = .ok i → i.wellFormed s.cfg = true →
      (∀ r, bufRole i = some r → s.larg.toNat + roleSize s.cfg r ≤ s.cfg.bufBytes) →
      (s.agenda = [] → step s = exec i s)
        ∧ (∀ rest, s.agenda = .core :: rest → step s = exec i { s with agenda := rest }))
    ∧ (∀ s : State, s.phase = .idle → s.agenda = [] → step s = .next s)
    ∧ (∀ (s : State) (i : Instr), i.wellFormed s.cfg = true →
      (∀ r, bufRole i = some r → s.arg.toNat + roleSize s.cfg r ≤ s.cfg.bufBytes) →
      step (s.withFetchWord 32 (encode i).toNat)
        = exec i { s.withFetchWord 32 (encode i).toNat with agenda := s.agenda })

/-- R380: the state after power-on reset, register by register as the host reads them, and every slot coefficient and BUF byte
unwritten; the reference build is the model's choice (log entry 2). -/
def Obligations.ResetState : Prop :=
  let s := State.reset
  s.cfg = Config.reference
    ∧ (∀ off ∈ [0x040, 0x044, 0x048, 0x04C, 0x050, 0x054, 0x058], s.readRegister off = 0#32)
    ∧ s.readRegister 0x000 = 0x4E545401#32
    ∧ s.irq = false ∧ s.lcmd = 0#32 ∧ s.larg = 0#32 ∧ s.phase = .idle ∧ s.sampler = none
    ∧ s.session = none ∧ s.squeeze = none ∧ s.portLog = []
    ∧ (∀ k i, s.coeff k i = none) ∧ (∀ o, s.bufByte o = none)

/-- The machine's invariant holds after reset. -/
def Obligations.ResetMeetsInvariant : Prop := State.reset.Inv ∧ State.reset.StreamInv

/-- Every step keeps the machine's invariant: from every state that meets it, not only from those a run reaches. -/
def Obligations.StepKeepsInvariant : Prop :=
  ∀ s t : State, s.Inv → step s = .next t → t.Inv

/-- R248, R275: every step keeps the sampler state in agreement with its stream. -/
def Obligations.StepKeepsSamplerOnItsStream : Prop :=
  ∀ s t : State, s.Inv → s.StreamInv → step s = .next t → t.StreamInv

/-- R33, R43: no step changes the build's parameters, so the CFG registers are constant; nor the Source's bytes (log
entry 6). -/
def Obligations.StepKeepsTheBuild : Prop :=
  ∀ s t : State, step s = .next t → t.cfg = s.cfg ∧ t.streams = s.streams
    ∧ ∀ off, off < 0x034 → t.readRegister off = s.readRegister off

/-- R41: "No command other than CHKNORM writes NORM": a step that changes NORM is the engine's move that completes a latched
CHKNORM, or is a reset, by the platform or by a host write of 1 to CONTROL bit 0. -/
def Obligations.OnlyChknormOrResetChangesNorm : Prop :=
  ∀ s t : State, step s = .next t → t.norm ≠ s.norm →
    ((s.agenda = [] ∨ ∃ rest, s.agenda = .core :: rest) ∧ s.phase = .running ∧ t.phase = .idle
        ∧ ∃ ra, decode s.lcmd = .ok (.chknorm ra))
      ∨ (∃ rest, s.agenda = .powerOn :: rest)
      ∨ ∃ v rest, s.agenda = .hostWrite .w4 0x4C#17 v :: rest ∧ v.getLsbD 0 = true

/-- R34: "Writing CMD is the only way to start a command": a step that takes BUSY from 0 to 1 is an aligned 4-byte host write
to CMD of a word that decodes to a command, and that word and ARG are latched. -/
def Obligations.OnlyACmdWriteStartsACommand : Prop :=
  ∀ s t : State, step s = .next t → s.phase = .idle → s.busy = false → t.busy = true →
    ∃ w rest i, s.agenda = .hostWrite .w4 0x40#17 w :: rest ∧ decode w = .ok i ∧ i.wellFormed s.cfg = true
      ∧ t.lcmd = w ∧ t.larg = s.arg ∧ t.phase = .running

/-- Every command and every access is modelled: no step ends in a refusal. -/
def Obligations.NoStepIsRefused : Prop :=
  ∀ (s : State) (r : Refusal), step s ≠ .refused r

/-! ### Submitting a command -/

/-- R340, R342, R344, R351: a CMD write while BUSY = 0. The checks are written out in their order; the first that applies is
recorded with the word, and a word that passes all of them is accepted. Acceptance creates the sampler state of a sampler command
(R44), with `ctr = pos = avail = blk = 0` (R248). -/
def Obligations.SubmissionChecksInOrder : Prop :=
  ∀ (s : State) (w : Word), s.busy = false →
    ∃ t, hostWrite .w4 0x40#17 w s = .next t ∧ t.cmd = w ∧
      (decode w = .error .illegalOpcode → Records .illegalOpcode w s t ∧ OnlyErrorRecord s t)
      ∧ (decode w = .error .illegalField → Records .illegalField w s t ∧ OnlyErrorRecord s t)
      ∧ ∀ i, decode w = .ok i →
        (i.slotsExist s.cfg = false → Records .badSlot w s t ∧ OnlyErrorRecord s t)
        ∧ (i.slotsExist s.cfg = true → i.destinationsDiffer = false → Records .aliased w s t ∧ OnlyErrorRecord s t)
        ∧ (i.wellFormed s.cfg = true →
            ∀ r p, i = packInstr p r ∨ i = unpackInstr p r → s.cfg.bufBytes < s.arg.toNat + packedSize s.cfg r →
            Records .bufRange w s t ∧ OnlyErrorRecord s t)
        ∧ (i.wellFormed s.cfg = true →
            (∀ r p, i = packInstr p r ∨ i = unpackInstr p r → s.arg.toNat + packedSize s.cfg r ≤ s.cfg.bufBytes) →
            t.lcmd = w ∧ t.larg = s.arg ∧ t.busy = true ∧ t.done = false ∧ t.phase = .running
              ∧ t.sampler = (if w.toNat % 64 ∈ [0x10, 0x11, 0x12] then some ⟨[], 0, 0, 0⟩ else none)
              ∧ t.err = s.err ∧ t.errcode = s.errcode ∧ t.errinfo = s.errinfo ∧ t.slots = s.slots ∧ t.buf = s.buf
              ∧ t.norm = s.norm ∧ t.arg = s.arg ∧ t.ieDone = s.ieDone ∧ t.ieErr = s.ieErr
              ∧ t.sampleBytes = s.sampleBytes ∧ t.sampleBlocks = s.sampleBlocks ∧ t.portLog = s.portLog ∧ t.cfg = s.cfg
              ∧ t.session = s.session ∧ t.squeeze = s.squeeze ∧ t.abandoned = s.abandoned ∧ t.streams = s.streams
              ∧ t.agenda = s.agenda ∧ t.drawn = s.drawn)

/-- R347: a CMD write while BUSY = 1 is refused with CMD_WHILE_BUSY whatever the word; the running command's latched word and
argument, PHASE, the sampler state and all storage are unaffected, and nothing is queued. -/
def Obligations.CommandWhileBusyIsRefused : Prop :=
  ∀ (s : State) (w : Word), s.busy = true →
    ∃ t, hostWrite .w4 0x40#17 w s = .next t ∧ t.cmd = w ∧ Records .cmdWhileBusy w s t ∧ OnlyErrorRecord s t

/-- R35: a write to ARG, busy or not, changes ARG alone: the running command keeps the value it latched, and what it does next
does not depend on ARG. -/
def Obligations.ArgWriteLeavesTheRunningCommand : Prop :=
  ∀ (s : State) (v : Word),
    hostWrite .w4 0x44#17 v s = .next { s with arg := v, response := none }
      ∧ ∀ i t, exec i s = .next t → exec i { s with arg := v } = .next { t with arg := v }

/-! ### The error record, STATUS and the interrupt -/

/-- R345: "ERRCODE and ERRINFO hold the first error since ERR was last cleared; later errors set nothing new and are not
counted", and a host write of 1 to STATUS bit 2 clears ERR, ERRCODE and ERRINFO together. -/
def Obligations.FirstErrorIsKeptUntilCleared : Prop :=
  (∀ (s : State) (e : ErrCode) (w : Word), Records e w s (s.raiseError e w) ∧ OnlyErrorRecord s (s.raiseError e w)
      ∧ (s.raiseError e w).cmd = s.cmd ∧ (s.raiseError e w).response = s.response ∧ (s.raiseError e w).drawn = s.drawn)
    ∧ (∀ (s : State) (e f : ErrCode) (v w : Word), (s.raiseError e v).raiseError f w = s.raiseError e v)
    ∧ ∀ (s : State) (v : Word), v.getLsbD 2 = true →
      ∃ t, hostWrite .w4 0x48#17 v s = .next t ∧ t.err = false ∧ t.errcode = .noError ∧ t.errinfo = 0#32

/-- R36: a write to STATUS. 1 in bit 1 clears DONE, 1 in bit 2 clears ERR, ERRCODE and ERRINFO, 0 in either has no effect, and
nothing else of the machine changes. -/
def Obligations.StatusWriteOnlyAcknowledges : Prop :=
  ∀ (s : State) (v : Word), hostWrite .w4 0x48#17 v s = .next { s with
    done := s.done && !v.getLsbD 1
    err := s.err && !v.getLsbD 2
    errcode := if v.getLsbD 2 then .noError else s.errcode
    errinfo := if v.getLsbD 2 then 0#32 else s.errinfo
    response := none }

/-- R36: the fields of STATUS as the host reads it: BUSY, DONE, ERR, NORM in bits 0 to 3, ERRCODE in bits 15:8 with the codes
of R341, and 0 in bits 7:4 and 31:16. -/
def Obligations.StatusReadsItsFields : Prop :=
  ∀ s : State, ∃ w, hostRead .w4 0x48#17 s = .next { s with response := some w }
    ∧ w.getLsbD 0 = s.busy ∧ w.getLsbD 1 = s.done ∧ w.getLsbD 2 = s.err ∧ w.getLsbD 3 = s.norm
    ∧ w.toNat / 2 ^ 4 % 2 ^ 4 = 0 ∧ w.toNat / 2 ^ 8 % 2 ^ 8 = errorCodeTable s.errcode ∧ w.toNat / 2 ^ 16 = 0

/-- R45: IRQ is a function of the state, `(DONE & IE_DONE) | (ERR & IE_ERR)`. -/
def Obligations.IrqIsTheEnabledOr : Prop :=
  ∀ s : State, s.irq = true ↔ (s.done = true ∧ s.ieDone = true) ∨ (s.err = true ∧ s.ieErr = true)

/-! ### Host accesses -/

/-- R76: an access that is not 4 bytes wide, or not at a multiple of 4, is refused with BAD_ACCESS and the offset as issued; a
refused read returns 0 and a refused write changes nothing else. -/
def Obligations.BadAccessIsRefused : Prop :=
  ∀ (s : State) (width : AccessWidth) (off : BitVec 17) (v : Word), (width ≠ .w4 ∨ off.toNat % 4 ≠ 0) →
    (∃ t, hostRead width off s = .next t ∧ t.response = some 0#32 ∧ t.cmd = s.cmd ∧ t.drawn = s.drawn
        ∧ Records .badAccess (BitVec.ofNat 32 off.toNat) s t ∧ OnlyErrorRecord s t)
      ∧ ∃ t, hostWrite width off v s = .next t ∧ t.cmd = s.cmd ∧ t.drawn = s.drawn
        ∧ Records .badAccess (BitVec.ofNat 32 off.toNat) s t ∧ OnlyErrorRecord s t

/-- R77 with the map of R71: an aligned 4-byte access at an unmapped offset, at a slot that the build does not have or at a BUF
offset beyond BUF_BYTES is refused with BAD_ADDRESS, busy or not; a refused read returns 0. -/
def Obligations.BadAddressIsRefused : Prop :=
  ∀ (s : State) (off : BitVec 17) (v : Word), s.cfg.legal = true → off.toNat % 4 = 0 →
    ((0x100 ≤ off.toNat ∧ off.toNat < 0x1000) ∨ (0x1800 ≤ off.toNat ∧ off.toNat < 0x2000)
      ∨ (0x2000 + s.cfg.bufBytes ≤ off.toNat ∧ off.toNat < 0x10000) ∨ 0x10000 + 1024 * s.cfg.npoly ≤ off.toNat) →
    (∃ t, hostRead .w4 off s = .next t ∧ t.response = some 0#32 ∧ t.cmd = s.cmd ∧ t.drawn = s.drawn
        ∧ Records .badAddress (BitVec.ofNat 32 off.toNat) s t ∧ OnlyErrorRecord s t)
      ∧ ∃ t, hostWrite .w4 off v s = .next t ∧ t.cmd = s.cmd ∧ t.drawn = s.drawn
        ∧ Records .badAddress (BitVec.ofNat 32 off.toNat) s t ∧ OnlyErrorRecord s t

/-- R80: while BUSY = 1 an access in the POLY or the BUF window is refused with ACCESS_WHILE_BUSY and the running command is
not affected; a refused read returns an unspecified word, here the next draw, of which nothing is known (log entry 5). Reads of
the register block and of the ZETA window are allowed. -/
def Obligations.WindowsAreClosedWhileBusy : Prop :=
  ∀ (s : State) (off : BitVec 17) (v : Word), s.cfg.legal = true → s.busy = true → off.toNat % 4 = 0 →
    ((0x2000 ≤ off.toNat ∧ off.toNat < 0x2000 + s.cfg.bufBytes)
        ∨ (0x10000 ≤ off.toNat ∧ off.toNat < 0x10000 + 1024 * s.cfg.npoly) →
      (∃ t x, hostRead .w4 off s = .next t ∧ t.response = some x ∧ t.cmd = s.cmd
          ∧ Records .accessWhileBusy (BitVec.ofNat 32 off.toNat) s t ∧ OnlyErrorRecord s t)
        ∧ ∃ t, hostWrite .w4 off v s = .next t ∧ t.cmd = s.cmd
          ∧ Records .accessWhileBusy (BitVec.ofNat 32 off.toNat) s t ∧ OnlyErrorRecord s t)
    ∧ (off.toNat < 0x100 ∨ (0x1000 ≤ off.toNat ∧ off.toNat < 0x1800) →
      ∃ x, hostRead .w4 off s = .next { s with response := some x })

/-- R78: reads have no side effects and are idempotent. A read that is refused touches the error record alone; one that is not
changes nothing but what the host is answered, and the same read again gives the same state. -/
def Obligations.HostReadsHaveNoSideEffects : Prop :=
  ∀ s : State,
    (∀ width off t, hostRead width off s = .next t → OnlyErrorRecord s t ∧ t.cmd = s.cmd)
    ∧ ∀ (off : BitVec 17) (t : State), s.cfg.legal = true → off.toNat % 4 = 0 →
      (off.toNat < 0x100 ∨ (0x1000 ≤ off.toNat ∧ off.toNat < 0x1800)
        ∨ s.busy = false ∧ ((0x2000 ≤ off.toNat ∧ off.toNat < 0x2000 + s.cfg.bufBytes)
          ∨ (0x10000 ≤ off.toNat ∧ off.toNat < 0x10000 + 1024 * s.cfg.npoly))) →
      hostRead .w4 off s = .next t → t = { s with response := t.response } ∧ hostRead .w4 off t = .next t

/-- R73: the POLY window, while BUSY = 0. The word at `0x10000 + 1024·k + 4·i` is `x[k][i]`: a write changes that coefficient
and nothing else, a read returns it, and a read of an unwritten one is the fault UNWRITTEN_READ. -/
def Obligations.PolyWindowIsTheSlotFile : Prop :=
  ∀ (s : State) (k i : Nat) (v : Word), s.cfg.legal = true → s.busy = false → k < s.cfg.npoly → i < 256 →
    let off := BitVec.ofNat 17 (0x10000 + 1024 * k + 4 * i)
    (∃ t, hostWrite .w4 off v s = .next t ∧ t = { s with slots := t.slots, response := none } ∧ t.coeff k i = some v
        ∧ ∀ l j, j < 256 → (l ≠ k ∨ j ≠ i) → t.coeff l j = s.coeff l j)
      ∧ (∀ x, s.coeff k i = some x → hostRead .w4 off s = .next { s with response := some x })
      ∧ (s.coeff k i = none → hostRead .w4 off s = .fault (.unwrittenRead .slotFile))

/-- R74: the BUF window, while BUSY = 0. The word at `0x2000 + o` holds `BUF[o]` to `BUF[o+3]`, least significant byte first: a
write changes those four bytes and nothing else, a read returns them, and a read that covers an unwritten byte is the fault
UNWRITTEN_READ. -/
def Obligations.BufWindowIsLittleEndian : Prop :=
  ∀ (s : State) (o : Nat) (v : Word), s.cfg.legal = true → s.busy = false → o % 4 = 0 → o < s.cfg.bufBytes →
    let off := BitVec.ofNat 17 (0x2000 + o)
    (∃ t, hostWrite .w4 off v s = .next t ∧ t = { s with buf := t.buf, response := none }
        ∧ (∀ d < 4, t.bufByte (o + d) = some (BitVec.ofNat 8 (v.toNat / 2 ^ (8 * d)))) ∧ BufSameBut o 4 s t)
      ∧ (s.BytesReadable o 4 → hostRead .w4 off s = .next { s with
          response := some (BitVec.ofNat 32 (s.byteVal o + s.byteVal (o + 1) * 2 ^ 8 + s.byteVal (o + 2) * 2 ^ 16
            + s.byteVal (o + 3) * 2 ^ 24)) })
      ∧ (¬ s.BytesReadable o 4 → hostRead .w4 off s = .fault (.unwrittenRead .buf))

/-- R75, R160, R161: the ZETA window reads the two ROMs, whose words are the powers of ROOT = 1753 in bit-reversed order times
`2^32` and their negatives in reverse; a write to it is ignored and is no error. -/
def Obligations.ZetaWindowReadsTheRoms : Prop :=
  ∀ (s : State) (k : Nat) (v : Word), k < 256 →
    hostRead .w4 (BitVec.ofNat 17 (0x1000 + 4 * k)) s
        = .next { s with response := some (BitVec.ofNat 32 (zetaWord k)) }
      ∧ hostRead .w4 (BitVec.ofNat 17 (0x1400 + 4 * k)) s
        = .next { s with response := some (BitVec.ofNat 32 (zetaInvWord k)) }
      ∧ hostWrite .w4 (BitVec.ofNat 17 (0x1000 + 4 * k)) v s = .next { s with response := none }
      ∧ hostWrite .w4 (BitVec.ofNat 17 (0x1400 + 4 * k)) v s = .next { s with response := none }

/-- R32, R33: ID and the configuration registers read the constants, the build's parameters and the packed NB_INIT; a write to one
is ignored. R34, R35, R39, R40: CMD, ARG, ERRINFO, SAMPLE_BYTES and SAMPLE_BLOCKS read what they hold. -/
def Obligations.RegistersReadTheirValues : Prop :=
  ∀ s : State, s.cfg.legal = true →
    let reads := fun (off : BitVec 17) (w : Word) => hostRead .w4 off s = .next { s with response := some w }
    reads 0x000 0x4E545401#32 ∧ reads 0x004 256#32 ∧ reads 0x008 8380417#32 ∧ reads 0x00C (BitVec.ofNat 32 s.cfg.d)
      ∧ reads 0x010 (BitVec.ofNat 32 s.cfg.eta) ∧ reads 0x014 (BitVec.ofNat 32 s.cfg.gamma1)
      ∧ reads 0x018 (BitVec.ofNat 32 s.cfg.zbits) ∧ reads 0x01C (BitVec.ofNat 32 s.cfg.npoly)
      ∧ reads 0x020 (BitVec.ofNat 32 s.cfg.bufBytes) ∧ reads 0x024 (BitVec.ofNat 32 s.cfg.blockBytesU)
      ∧ reads 0x028 (BitVec.ofNat 32 s.cfg.blockBytesE) ∧ reads 0x02C (BitVec.ofNat 32 s.cfg.blockBytesG)
      ∧ (∃ w, reads 0x030 w ∧ w.toNat % 2 ^ 8 = s.cfg.nbInitU ∧ w.toNat / 2 ^ 8 % 2 ^ 8 = s.cfg.nbInitE
        ∧ w.toNat / 2 ^ 16 % 2 ^ 8 = s.cfg.nbInitG ∧ w.toNat / 2 ^ 24 = 0)
      ∧ reads 0x040 s.cmd ∧ reads 0x044 s.arg ∧ reads 0x050 s.errinfo ∧ reads 0x054 s.sampleBytes ∧ reads 0x058 s.sampleBlocks
      ∧ ∀ (off : BitVec 17) (v : Word), off.toNat % 4 = 0 → off.toNat ≤ 0x030 →
        hostWrite .w4 off v s = .next { s with response := none }

/-- R37: CONTROL. A write with bit 0 clear sets the interrupt enables from bits 1 and 2 and changes nothing else; after a write
with bit 0 set CONTROL reads 0; the enables read in bits 1 and 2 and every other bit reads 0. -/
def Obligations.ControlHoldsTheInterruptEnables : Prop :=
  ∀ (s : State) (v : Word),
    (v.getLsbD 0 = false → hostWrite .w4 0x4C#17 v s
      = .next { s with ieDone := v.getLsbD 1, ieErr := v.getLsbD 2, response := none })
    ∧ (v.getLsbD 0 = true → ∃ t, hostWrite .w4 0x4C#17 v s = .next t
      ∧ hostRead .w4 0x4C#17 t = .next { t with response := some 0#32 })
    ∧ ∃ w, hostRead .w4 0x4C#17 s = .next { s with response := some w }
      ∧ w.getLsbD 0 = false ∧ w.getLsbD 1 = s.ieDone ∧ w.getLsbD 2 = s.ieErr ∧ w.toNat / 2 ^ 3 = 0

/-- R32, R33, R39, R40, R72: the read-only registers and the unlisted offsets of the register block ignore writes, busy or not,
and an unlisted offset reads 0; neither is an error. -/
def Obligations.ReadOnlyRegistersIgnoreWrites : Prop :=
  ∀ (s : State) (off : BitVec 17) (v : Word), off.toNat % 4 = 0 → off.toNat < 0x100 →
    (off.toNat ∉ [0x40, 0x44, 0x48, 0x4C] → hostWrite .w4 off v s = .next { s with response := none })
      ∧ ((0x034 ≤ off.toNat ∧ off.toNat < 0x040) ∨ 0x05C ≤ off.toNat →
        hostRead .w4 off s = .next { s with response := some 0#32 })

/-! ### Reset -/

/-- R382: a write to CONTROL with bit 0 set, busy or not, ends with every register at its power-on value, PHASE idle, the
sampler state discarded and, when a session was open, a CLOSE sent and the session closed. It raises no error. An outstanding
SQUEEZE is abandoned (R382), and its DATA is then a late one (R244), which the model counts (log entry 8). -/
def Obligations.SoftResetClearsTheRegisters : Prop :=
  ∀ (s : State) (v : Word), s.Inv → v.getLsbD 0 = true →
    ∃ t, hostWrite .w4 0x4C#17 v s = .next t
      ∧ t.cmd = 0#32 ∧ t.arg = 0#32 ∧ t.busy = false ∧ t.done = false ∧ t.err = false ∧ t.norm = false
      ∧ t.errcode = .noError ∧ t.ieDone = false ∧ t.ieErr = false ∧ t.errinfo = 0#32 ∧ t.sampleBytes = 0#32
      ∧ t.sampleBlocks = 0#32 ∧ t.lcmd = 0#32 ∧ t.larg = 0#32 ∧ t.phase = .idle ∧ t.sampler = none ∧ t.session = none
      ∧ t.squeeze = none ∧ t.irq = false ∧ t.abandoned = s.abandoned + (if s.squeeze.isSome = true then 1 else 0)
      ∧ t.portLog = s.portLog ++ (if s.session.isSome = true then [.closed] else [])

/-- R383: with no command running, a soft reset leaves every coefficient and byte unchanged; with one running, every location
outside its destination set keeps its value (inside it, the values are draws of which nothing is known, log entry 5). -/
def Obligations.SoftResetKeepsDataOutsideTheDestinations : Prop :=
  ∀ (s : State) (v : Word), v.getLsbD 0 = true →
    (s.phase = .idle → ∃ t, hostWrite .w4 0x4C#17 v s = .next t ∧ t.slots = s.slots ∧ t.buf = s.buf)
      ∧ ∀ i, s.phase = .running → decode s.lcmd = .ok i →
        ∃ t, hostWrite .w4 0x4C#17 v s = .next t ∧ SlotsSameBut (destinationTable i).1 s t
          ∧ (∀ d ∈ (destinationTable i).1, t.Readable d)
          ∧ (∀ r, (destinationTable i).2 = some r → BufSameBut s.larg.toNat (packedSize s.cfg r) s t
            ∧ t.BytesReadable s.larg.toNat (packedSize s.cfg r))
          ∧ ((destinationTable i).2 = none → t.buf = s.buf)

/-- R381, R380: the power-on reset input, from any state: every register at its power-on value, every coefficient and byte
unwritten, the session closed with nothing sent. What goes on around the CORE, the DATA of an outstanding SQUEEZE that may still
come among it, is the model's choice (log entries 8, 15). -/
def Obligations.PowerOnResetIsComplete : Prop :=
  ∀ s : State, ∃ t, perform .powerOn s = .next t ∧ t.cfg = s.cfg
    ∧ (∀ off ∈ [0x040, 0x044, 0x048, 0x04C, 0x050, 0x054, 0x058], t.readRegister off = 0#32)
    ∧ t.irq = false ∧ t.lcmd = 0#32 ∧ t.larg = 0#32 ∧ t.phase = .idle ∧ t.sampler = none ∧ t.session = none
    ∧ t.squeeze = none ∧ t.portLog = s.portLog ∧ t.abandoned = s.abandoned + (if s.squeeze.isSome = true then 1 else 0)
    ∧ (∀ k i, t.coeff k i = none) ∧ (∀ o, t.bufByte o = none)

/-! ### The commands -/

/-- R135, R136, R204: REDUCE, FREEZE and SHL complete on every slot that can be read; each coefficient is replaced as the rule
says, for FREEZE by `x mod q` (R134), and nothing else changes but BUSY, DONE and PHASE. -/
def Obligations.InPlaceCommandsComplete : Prop :=
  ∀ (rd : Slot) (s : State), s.Readable rd →
    (∃ t, exec (.reduce rd) s = .next t ∧ Completes s.norm s t ∧ SlotsSameBut [rd] s t ∧ BufSame s t
        ∧ ∀ i < 256, t.coeff rd i
          = some (BitVec.ofNat 32 (s.val rd i % 2 ^ 23 + (s.val rd i / 2 ^ 23) * 2 ^ 13 - s.val rd i / 2 ^ 23)))
      ∧ (∃ t, exec (.freeze rd) s = .next t ∧ Completes s.norm s t ∧ SlotsSameBut [rd] s t ∧ BufSame s t
        ∧ ∀ i < 256, t.coeff rd i = some (BitVec.ofNat 32 (s.val rd i % 8380417)))
      ∧ ∃ t, exec (.shl rd) s = .next t ∧ Completes s.norm s t ∧ SlotsSameBut [rd] s t ∧ BufSame s t
        ∧ ∀ i < 256, t.coeff rd i = some (BitVec.ofNat 32 (s.val rd i * 2 ^ s.cfg.d))

/-- R137, R200, R202: PWMUL, ADD and SUB complete on every three slots, equal or not, whose sources can be read; each
coefficient of the destination is the rule's function of the two old source coefficients. -/
def Obligations.ThreeSlotCommandsComplete : Prop :=
  ∀ (rd ra rb : Slot) (s : State), s.Readable ra → s.Readable rb →
    (∃ t, exec (.pwmul rd ra rb) s = .next t ∧ Completes s.norm s t ∧ SlotsSameBut [rd] s t ∧ BufSame s t
        ∧ ∀ i < 256,
          let p := s.val ra i * s.val rb i
          let m := p % 2 ^ 32 * 4236238847 % 2 ^ 32
          t.coeff rd i = some (BitVec.ofNat 32 ((p + m * 8380417) % 2 ^ 64 / 2 ^ 32)))
      ∧ (∃ t, exec (.add rd ra rb) s = .next t ∧ Completes s.norm s t ∧ SlotsSameBut [rd] s t ∧ BufSame s t
        ∧ ∀ i < 256, t.coeff rd i = some (BitVec.ofNat 32 (s.val ra i + s.val rb i)))
      ∧ ∃ t, exec (.sub rd ra rb) s = .next t ∧ Completes s.norm s t ∧ SlotsSameBut [rd] s t ∧ BufSame s t
        ∧ ∀ i < 256, t.coeff rd i = some (BitVec.ofInt 32 ((s.val ra i : Int) + 2 * 8380417 - s.val rb i))

/-- R216 with the value table of R211: CHKNORM completes on every slot that can be read, writes NORM and no slot, and NORM
is 1 exactly when some coefficient's norm value is at least ARG as latched. -/
def Obligations.ChknormComparesEveryCoefficient : Prop :=
  ∀ (ra : Slot) (s : State), s.Readable ra →
    ∃ n t, exec (.chknorm ra) s = .next t ∧ Completes n s t ∧ SlotsSameBut [] s t ∧ BufSame s t
      ∧ (n = true ↔ ∃ i < 256,
        s.larg.toNat ≤ (if s.val ra i ≤ 4190208 then s.val ra i
          else if s.val ra i ≤ 8380417 then 8380417 - s.val ra i
          else if s.val ra i ≤ 4190208 + 2 ^ 31 then 2 ^ 32 + 8380417 - s.val ra i
          else s.val ra i))

/-- R212: on a slot whose every coefficient is at most q, NORM is 1 exactly when some coefficient has centered absolute value
at least the bound. -/
def Obligations.ChknormInContract : Prop :=
  ∀ (ra : Slot) (s : State), s.Readable ra → (∀ i < 256, s.val ra i ≤ 8380417) →
    ∃ t, exec (.chknorm ra) s = .next t ∧ t.done = true
      ∧ (t.norm = true ↔ ∃ i < 256, s.larg.toNat ≤ (centeredRep (s.val ra i)).natAbs)

/-- R224 with the datapath of R220: POWER2ROUND completes on every source that can be read with RD ≠ RB, RA being either of
them or neither: RD receives the high parts and RB the low parts of the old source coefficients. -/
def Obligations.Power2roundWritesBothParts : Prop :=
  ∀ (rd ra rb : Slot) (s : State), s.Readable ra → rd ≠ rb → s.cfg.legal = true →
    ∃ t, exec (.power2round rd ra rb) s = .next t ∧ Completes s.norm s t ∧ SlotsSameBut [rd, rb] s t ∧ BufSame s t
      ∧ ∀ i < 256,
        let a := s.val ra i
        let a1 := (a + 2 ^ (s.cfg.d - 1) - 1) % 2 ^ 32 / 2 ^ s.cfg.d
        t.coeff rd i = some (BitVec.ofNat 32 a1)
          ∧ t.coeff rb i = some (BitVec.ofInt 32 ((8380417 : Int) + a - a1 * 2 ^ s.cfg.d))

/-- R222 and R226: for standard representatives, POWER2ROUND's high part fits `23 − D` bits, the low part's centered value is
in `(−2^(D−1), 2^(D−1)]`, and `a1 · 2^D + a0out = a + q`. -/
def Obligations.Power2roundDecomposes : Prop :=
  ∀ (rd ra rb : Slot) (s : State), s.Readable ra → rd ≠ rb → s.cfg.legal = true → (∀ i < 256, s.val ra i < 8380417) →
    ∃ t, exec (.power2round rd ra rb) s = .next t ∧ ∀ i < 256,
      t.val rd i < 2 ^ (23 - s.cfg.d)
        ∧ t.val rd i * 2 ^ s.cfg.d + t.val rb i = s.val ra i + 8380417
        ∧ 8380417 < t.val rb i + 2 ^ (s.cfg.d - 1) ∧ t.val rb i ≤ 8380417 + 2 ^ (s.cfg.d - 1)

/-- R226: for sources below `2^32 − 2^(D−1) + 1`, `a1 · 2^D + a0out = a + q`; and for a standard representative, SHL of the high
parts, ADD of the low parts and FREEZE give the source back, whatever slot the sum is written to. -/
def Obligations.RecompositionGivesTheSourceBack : Prop :=
  ∀ (rd ra rb rc : Slot) (s : State), s.Readable ra → rd ≠ rb → s.cfg.legal = true →
    (∀ i < 256, s.val ra i < 2 ^ 32 - 2 ^ (s.cfg.d - 1) + 1) →
    ∃ t u v w, exec (.power2round rd ra rb) s = .next t ∧ exec (.shl rd) t = .next u ∧ exec (.add rc rd rb) u = .next v
      ∧ exec (.freeze rc) v = .next w
      ∧ ∀ i < 256, t.val rd i * 2 ^ s.cfg.d + t.val rb i = s.val ra i + 8380417
        ∧ (s.val ra i < 8380417 → w.val rc i = s.val ra i)

/-! ### The NTT engine -/

/-- The forward butterfly on the pair `(j, j + len)` of a slot, as R165 writes it. -/
def seqForwardButterfly (z len : Nat) (p : Nat → Nat) (j : Nat) : Nat → Nat :=
  let t := montgomery (z * p (j + len))
  fun i => if i = j + len then wrap32 ((p j : Int) + 2 * 8380417 - t) else if i = j then wrap32 ((p j : Int) + t) else p i

/-- The inverse butterfly on the pair `(j, j + len)` of a slot, as R175 writes it. -/
def seqInverseButterfly (z len : Nat) (p : Nat → Nat) (j : Nat) : Nat → Nat :=
  let t := p j
  let u := wrap32 ((t : Int) + 256 * 8380417 - p (j + len))
  fun i => if i = j + len then montgomery (z * u) else if i = j then wrap32 ((t : Int) + p (j + len)) else p i

/-- The loops over `start` and `j` of one layer, with the running ROM index `k` (R166, R174). -/
def seqLayer (butterfly : Nat → Nat → (Nat → Nat) → Nat → Nat → Nat) (rom : Nat → Nat) (st : (Nat → Nat) × Nat)
    (len : Nat) : (Nat → Nat) × Nat :=
  (List.range (128 / len)).foldl
    (fun st b => ((List.range len).foldl (fun p d => butterfly (rom st.2) len p (2 * len * b + d)) st.1, st.2 + 1))
    st

/-- The pseudocode of NTT, butterfly by butterfly (R166). -/
def seqForwardNtt (p : Nat → Nat) : Nat → Nat :=
  ([128, 64, 32, 16, 8, 4, 2, 1].foldl (seqLayer seqForwardButterfly zetaWord) (p, 1)).1

/-- The pseudocode of INVNTT, butterfly by butterfly, before the final scaling (R174). -/
def seqInverseNtt (p : Nat → Nat) : Nat → Nat :=
  ([1, 2, 4, 8, 16, 32, 64, 128].foldl (seqLayer seqInverseButterfly zetaInvWord) (p, 0)).1

/-- R166, R182: NTT completes on every slot that can be read, for every content (R170), with the result of the strictly
sequential pseudocode; only slot RD changes. -/
def Obligations.NttIsTheSequentialTransform : Prop :=
  ∀ (rd : Slot) (s : State), s.Readable rd →
    ∃ t, exec (.ntt rd) s = .next t ∧ Completes s.norm s t ∧ SlotsSameBut [rd] s t ∧ BufSame s t
      ∧ ∀ i < 256, t.coeff rd i = some (BitVec.ofNat 32 (seqForwardNtt (s.val rd) i))

/-- R174, R182: INVNTT completes on every slot that can be read, with the result of the strictly sequential pseudocode and its
final scaling by F = 41978; only slot RD changes. -/
def Obligations.InvnttIsTheSequentialTransform : Prop :=
  ∀ (rd : Slot) (s : State), s.Readable rd →
    ∃ t, exec (.invntt rd) s = .next t ∧ Completes s.norm s t ∧ SlotsSameBut [rd] s t ∧ BufSame s t
      ∧ ∀ i < 256, t.coeff rd i = some (BitVec.ofNat 32 (montgomery (41978 * seqInverseNtt (s.val rd) i)))

/-- R168, R169: with every input coefficient below `b` and `b + 16q ≤ 2^32`, every NTT output is below `b + 16q`. -/
def Obligations.NttGrowthIsAtMostSixteenQ : Prop :=
  ∀ (rd : Slot) (s : State) (b : Nat), s.Readable rd → b + 16 * 8380417 ≤ 2 ^ 32 → (∀ i < 256, s.val rd i < b) →
    ∃ t, exec (.ntt rd) s = .next t ∧ ∀ i < 256, t.val rd i < b + 16 * 8380417

/-- R176, R179: every INVNTT output is below 2q, in contract or not; and with every input coefficient below 2q, output `i` is
`R · N^(−1)` times the sum of `in[j] · ROOT^(−(2·brv8(j) + 1)·i)`. Modulo q, `R` is 4193792, `N^(−1)` is 8347681 and `ROOT^(−1)` is
731434. -/
def Obligations.InvnttIsTheScaledInverseTransform : Prop :=
  ∀ (rd : Slot) (s : State), s.Readable rd →
    ∃ t, exec (.invntt rd) s = .next t ∧ (∀ i < 256, t.val rd i < 2 * 8380417)
      ∧ ((∀ j < 256, s.val rd j < 2 * 8380417) → ∀ i < 256, t.val rd i % 8380417
        = 4193792 * 8347681 * (∑ j ∈ Finset.range 256, s.val rd j * 731434 ^ ((2 * bitReversal j + 1) * i)) % 8380417)

/-- R171, where R169 rules a wrap out: with every input coefficient below `2^32 − 16q`, output `j` of NTT is the evaluation of the
input polynomial at `ROOT^(2·brv8(j) + 1)`. -/
def Obligations.NttEvaluatesAtTheOddPowersOfRoot : Prop :=
  ∀ (rd : Slot) (s : State), s.Readable rd → (∀ i < 256, s.val rd i < 2 ^ 32 - 16 * 8380417) →
    ∃ t, exec (.ntt rd) s = .next t ∧ ∀ j < 256,
      t.val rd j % 8380417
        = (∑ i ∈ Finset.range 256, s.val rd i * 1753 ^ ((2 * bitReversal j + 1) * i)) % 8380417

/-- R180: NTT, REDUCE, INVNTT on one slot with every coefficient below `2^32 − 16q` give `MONT` times the slot modulo q, below
2q, and a FREEZE after it gives `(MONT · p) mod q` exactly. -/
def Obligations.NttReduceInvnttScalesByMont : Prop :=
  ∀ (rd : Slot) (s : State), s.Readable rd → (∀ i < 256, s.val rd i < 2 ^ 32 - 16 * 8380417) →
    ∃ a b c d, exec (.ntt rd) s = .next a ∧ exec (.reduce rd) a = .next b ∧ exec (.invntt rd) b = .next c
      ∧ exec (.freeze rd) c = .next d
      ∧ ∀ i < 256, c.val rd i % 8380417 = 4193792 * s.val rd i % 8380417 ∧ c.val rd i < 2 * 8380417
        ∧ d.val rd i = 4193792 * s.val rd i % 8380417

/-- R181: for two slots with every coefficient below `6q`, NTT of both, PWMUL into a third (or one of the two) and INVNTT give
their product modulo `X^256 + 1`, congruent modulo q and below 2q, with no Montgomery factor left; and for one such slot, NTT,
PWMUL with itself and INVNTT give its square. -/
def Obligations.NegacyclicConvolution : Prop :=
  (∀ (rd ra rb : Slot) (s : State), ra ≠ rb → s.Readable ra → s.Readable rb →
    (∀ i < 256, s.val ra i < 6 * 8380417 ∧ s.val rb i < 6 * 8380417) →
    ∃ a b c d, exec (.ntt ra) s = .next a ∧ exec (.ntt rb) a = .next b ∧ exec (.pwmul rd ra rb) b = .next c
      ∧ exec (.invntt rd) c = .next d
      ∧ ∀ i < 256, d.val rd i < 2 * 8380417
        ∧ (8380417 : Int) ∣ (d.val rd i : Int) - ∑ j ∈ Finset.range 256,
          (if j ≤ i then (s.val ra j * s.val rb (i - j) : Int) else -(s.val ra j * s.val rb (256 + i - j) : Int)))
  ∧ ∀ (rd ra : Slot) (s : State), s.Readable ra → (∀ i < 256, s.val ra i < 6 * 8380417) →
    ∃ a c d, exec (.ntt ra) s = .next a ∧ exec (.pwmul rd ra ra) a = .next c ∧ exec (.invntt rd) c = .next d
      ∧ ∀ i < 256, d.val rd i < 2 * 8380417
        ∧ (8380417 : Int) ∣ (d.val rd i : Int) - ∑ j ∈ Finset.range 256,
          (if j ≤ i then (s.val ra j * s.val ra (i - j) : Int) else -(s.val ra j * s.val ra (256 + i - j) : Int))

/-! ### Arithmetic laws, on the commands -/

/-- R131, R138: PWMUL's output is below 2q and congruent to `a · b · RINV` whenever the product is at most `q · 2^32`, in
particular when both factors are below 22q. -/
def Obligations.PwmulIsAMontgomeryProduct : Prop :=
  ∀ (rd ra rb : Slot) (s : State), s.Readable ra → s.Readable rb →
    ∃ t, exec (.pwmul rd ra rb) s = .next t ∧ ∀ i < 256,
      (s.val ra i * s.val rb i ≤ 8380417 * 2 ^ 32 ∨ (s.val ra i < 22 * 8380417 ∧ s.val rb i < 22 * 8380417) →
        t.val rd i < 2 * 8380417 ∧ t.val rd i % 8380417 = s.val ra i * s.val rb i * 8265825 % 8380417)

/-- R132: REDUCE keeps the residue of every `u32` coefficient and leaves at most 12574208, below 2q. -/
def Obligations.ReduceKeepsTheResidue : Prop :=
  ∀ (rd : Slot) (s : State), s.Readable rd →
    ∃ t, exec (.reduce rd) s = .next t ∧ ∀ i < 256,
      t.val rd i % 8380417 = s.val rd i % 8380417 ∧ t.val rd i ≤ 12574208

/-- R201, R203, R205: ADD, SUB and SHL are exact in contract: the sum when it is below `2^32`, `a + 2q − b` when it is
nonnegative and `a + 2q` is below `2^32`, and the product by `2^D` of a coefficient below `2^(32−D)`. -/
def Obligations.AddSubShlAreExactInContract : Prop :=
  ∀ (rd ra rb : Slot) (s : State), s.Readable ra → s.Readable rb → s.cfg.legal = true →
    (∃ t, exec (.add rd ra rb) s = .next t ∧ ∀ i < 256, s.val ra i + s.val rb i < 2 ^ 32 →
        t.val rd i = s.val ra i + s.val rb i)
      ∧ (∃ t, exec (.sub rd ra rb) s = .next t ∧ ∀ i < 256,
        s.val rb i ≤ s.val ra i + 2 * 8380417 → s.val ra i + 2 * 8380417 < 2 ^ 32 →
          t.val rd i + s.val rb i = s.val ra i + 2 * 8380417)
      ∧ ∃ t, exec (.shl ra) s = .next t ∧ ∀ i < 256, s.val ra i < 2 ^ (32 - s.cfg.d) →
        t.val ra i = s.val ra i * 2 ^ s.cfg.d

/-! ### The packers -/

/-- Bit `n` of the bytes of BUF from `off` on (R290). -/
def bufBit (s : State) (off n : Nat) : Bool := (s.byteVal (off + n / 8)).testBit (n % 8)

/-- R292, R297, R300 to R304: every PACK command completes on a source that can be read and writes exactly the SIZE_r bytes from
its offset on; bit `b` of the field of coefficient `i` is bit `i·W_r + b` of the packed string (R290), the field being
`(OFF_r − centered(x)) mod 2^W_r` or, for the straight roles t1 and w1, `(x mod q) mod 2^W_r`. -/
def Obligations.PackWritesTheBitString : Prop :=
  ∀ (r : Role) (ra : Slot) (s : State), s.Readable ra → s.cfg.legal = true →
    ∃ t, exec (packInstr ra r) s = .next t ∧ Completes s.norm s t ∧ SlotsSameBut [] s t
      ∧ BufSameBut s.larg.toNat (packedSize s.cfg r) s t
      ∧ t.BytesReadable s.larg.toNat (packedSize s.cfg r)
      ∧ ∀ i < 256, ∀ b < packedWidth s.cfg r,
        bufBit t s.larg.toNat (i * packedWidth s.cfg r + b)
          = (fieldOf s.cfg r (s.val ra i) % (2 ^ packedWidth s.cfg r : Nat)).toNat.testBit b

/-- R293, R298, R310 to R314: every UNPACK command completes when its SIZE_r bytes can be read, writes all 256 coefficients of
RD and no byte of BUF; coefficient `i` is `(OFF_r − f) mod q` or, for the straight roles, `f`, where `f` is the field of bits
`i·W_r` to `i·W_r + W_r − 1`. -/
def Obligations.UnpackReadsTheBitString : Prop :=
  ∀ (r : Role) (rd : Slot) (s : State), s.BytesReadable s.larg.toNat (packedSize s.cfg r) → s.cfg.legal = true →
    ∃ t, exec (unpackInstr rd r) s = .next t ∧ Completes s.norm s t ∧ SlotsSameBut [rd] s t ∧ BufSame s t
      ∧ ∀ i < 256, ∃ f, f < 2 ^ packedWidth s.cfg r
        ∧ (∀ b < packedWidth s.cfg r, f.testBit b = bufBit s s.larg.toNat (i * packedWidth s.cfg r + b))
        ∧ t.coeff rd i = some (BitVec.ofInt 32 (valueOf s.cfg r f))

/-- R294: `unpack(pack(p)) = freeze(p)` for every slot whose coefficients are valid for the role, and
`pack(unpack(bytes)) = bytes` for every byte string of SIZE_r bytes. -/
def Obligations.PackAndUnpackAreInverse : Prop :=
  ∀ (r : Role) (ra rd : Slot) (s : State), s.cfg.legal = true →
    (s.Readable ra →
      (∀ i < 256, 0 ≤ fieldOf s.cfg r (s.val ra i) ∧ fieldOf s.cfg r (s.val ra i) < (2 ^ packedWidth s.cfg r : Nat)) →
      ∃ t u, exec (packInstr ra r) s = .next t ∧ exec (unpackInstr rd r) t = .next u
        ∧ ∀ i < 256, u.val rd i = s.val ra i % 8380417)
    ∧ (s.BytesReadable s.larg.toNat (packedSize s.cfg r) →
      ∃ t u, exec (unpackInstr rd r) s = .next t ∧ exec (packInstr rd r) t = .next u
        ∧ ∀ o, u.bufByte o = s.bufByte o)

/-! ### The samplers and the stream port -/

/-- The sampler command of a kind (R246). -/
def samplerInstr (rd : Slot) : SamplerKind → Instr
  | .U => .sampleUniform rd
  | .E => .sampleEta rd
  | .G => .sampleGamma1m1 rd

/-- R248, R245, R240: a sampler command with no session open yet sends OPEN with its kind and the low 16 bits of the latched ARG,
then SQUEEZE(NB_INIT), and goes on with `ctr = pos = avail = 0` and `blk = NB_INIT`; no slot, byte or register changes. That both
messages are one step is the model's choice (log entry 18). -/
def Obligations.SamplerOpensItsSession : Prop :=
  ∀ (k : SamplerKind) (rd : Slot) (s : State), s.session = none →
    let nb := firstRequest s.cfg k
    let nonce := BitVec.ofNat 16 (s.larg.toNat % 2 ^ 16)
    exec (samplerInstr rd k) s = .next { s with
      session := some ⟨k, nonce⟩
      squeeze := some nb
      sampler := some ⟨[], 0, 0, nb⟩
      portLog := s.portLog ++ [.opened k nonce, .squeeze nb] }

/-- R243: while a SQUEEZE is outstanding the sampler takes no step: nothing changes. -/
def Obligations.SamplerWaitsForData : Prop :=
  ∀ (k : SamplerKind) (rd : Slot) (s : State), s.session.isSome = true → s.sampler.isSome = true → s.squeeze.isSome = true →
    exec (samplerInstr rd k) s = .next s

/-- R242: the DATA that answers a SQUEEZE(n) delivers exactly `n · BLOCKBYTES` bytes to the open session; R244: a DATA of a closed
session is discarded and changes no storage, register or session, being a move of its own that the model counts (log entry 8). A
DATA that nothing asked for, late or not, is no move of the platform: the model stops (log entry 7). -/
def Obligations.DataIsDeliveredOrDiscarded : Prop :=
  ∀ s : State,
    (∀ p n m, s.session = some p → s.squeeze = some n → s.sampler = some m →
      let bytes := n * blockLength s.cfg p.kind
      perform .data s = .next { s with
        squeeze := none
        sampler := some { m with avail := m.avail + bytes }
        portLog := s.portLog ++ [.data bytes] })
    ∧ (s.squeeze = none → perform .data s = .fault .sourceProtocol)
    ∧ (∀ n, s.abandoned = n + 1 → perform .lateData s = .next { s with abandoned := n })
    ∧ (s.abandoned = 0 → perform .lateData s = .fault .sourceProtocol)

/-- R248 to R250, R275 and the result rules R252, R260, R270: a sampler whose state tracks its stream, with no SQUEEZE outstanding
and enough bytes delivered for the fewest chunks that accept 256 fields, completes: slot RD holds the first 256 accepted
coefficients of the fully buffered stream, SAMPLE_BYTES is the number of bytes of those chunks and SAMPLE_BLOCKS the number of
blocks requested, each where it fits 32 bits (beyond, a free value, log entry 11), CLOSE is sent, the sampler state is discarded,
and nothing else changes. The fields' bit positions and the Q-biased outputs are the spec's own choice (D13). That the slot is
written at completion and that one step consumes what was delivered are the model's (log entries 17, 18). -/
def Obligations.SamplerCompletesAsIfFullyBuffered : Prop :=
  ∀ (k : SamplerKind) (rd : Slot) (s : State) (m : Sampler) (n : Nat), s.sampler = some m → s.squeeze = none → Tracks k m s →
    ChunksNeeded s.cfg k (s.streamByte k s.nonce) n → chunkLength k * n ≤ m.avail →
    ∃ t, exec (samplerInstr rd k) s = .next t
      ∧ t.busy = false ∧ t.done = true ∧ t.phase = .idle ∧ t.norm = s.norm
      ∧ (∀ i < 256, t.coeff rd i = (streamCoeffs s.cfg k (s.streamByte k s.nonce) n)[i]?)
      ∧ (chunkLength k * n < 2 ^ 32 → t.sampleBytes = BitVec.ofNat 32 (chunkLength k * n))
      ∧ (m.blk < 2 ^ 32 → t.sampleBlocks = BitVec.ofNat 32 m.blk)
      ∧ t.sampler = none ∧ t.session = none ∧ t.squeeze = none ∧ t.portLog = s.portLog ++ [.closed]
      ∧ SlotsSameBut [rd] s t ∧ BufSame s t
      ∧ t.cfg = s.cfg ∧ t.cmd = s.cmd ∧ t.arg = s.arg ∧ t.err = s.err ∧ t.errcode = s.errcode ∧ t.errinfo = s.errinfo
      ∧ t.ieDone = s.ieDone ∧ t.ieErr = s.ieErr ∧ t.lcmd = s.lcmd ∧ t.larg = s.larg ∧ t.abandoned = s.abandoned
      ∧ t.streams = s.streams ∧ t.agenda = s.agenda ∧ t.response = s.response ∧ t.drawn = s.drawn

/-- R248, R390: a sampler that is short when it has consumed every whole chunk delivered asks for exactly one block more and goes on
tracking its stream; no register changes. That one step consumes every delivered chunk and asks is the model's choice (log
entry 18); that no slot is written before completion follows R340 and R81, although R248's pseudocode writes `x[RD]` as it goes
(log entry 17). -/
def Obligations.ShortSamplerAsksForOneBlock : Prop :=
  ∀ (k : SamplerKind) (rd : Slot) (s : State) (m : Sampler), s.sampler = some m → s.squeeze = none → Tracks k m s →
    (∀ n, ChunksNeeded s.cfg k (s.streamByte k s.nonce) n → m.avail < chunkLength k * n) →
    ∃ t m', exec (samplerInstr rd k) s = .next t ∧ t.sampler = some m' ∧ m'.blk = m.blk + 1 ∧ m'.avail = m.avail
      ∧ t.squeeze = some 1 ∧ t.portLog = s.portLog ++ [.squeeze 1] ∧ Tracks k m' t
      ∧ t.slots = s.slots ∧ t.buf = s.buf ∧ t.session = s.session ∧ t.busy = s.busy ∧ t.done = s.done ∧ t.err = s.err
      ∧ t.norm = s.norm ∧ t.phase = s.phase ∧ t.sampleBytes = s.sampleBytes ∧ t.sampleBlocks = s.sampleBlocks
      ∧ t.cfg = s.cfg ∧ t.cmd = s.cmd ∧ t.arg = s.arg ∧ t.errcode = s.errcode ∧ t.errinfo = s.errinfo ∧ t.ieDone = s.ieDone
      ∧ t.ieErr = s.ieErr ∧ t.lcmd = s.lcmd ∧ t.larg = s.larg ∧ t.abandoned = s.abandoned ∧ t.streams = s.streams
      ∧ t.agenda = s.agenda ∧ t.response = s.response ∧ t.drawn = s.drawn

/-- R251, R276: what two sampler commands of one kind and nonce write is the same, whatever ran between them and however their
bytes were delivered: the coefficients, SAMPLE_BYTES and SAMPLE_BLOCKS, and where the counts fit 32 bits SAMPLE_BLOCKS is
`max(NB_INIT, ceil(pos / BLOCKBYTES))` (beyond, they are free values, still the same in both runs, log entry 11). -/
def Obligations.SamplerResultDependsOnTheStreamAlone : Prop :=
  ∀ (k : SamplerKind) (rd rd' : Slot) (s s' t t' : State) (m m' : Sampler),
    s.cfg = s'.cfg → s.cfg.legal = true → s.streams = s'.streams → s.nonce = s'.nonce →
    s.sampler = some m → s'.sampler = some m' → s.squeeze = none → s'.squeeze = none → Tracks k m s → Tracks k m' s' →
    exec (samplerInstr rd k) s = .next t → exec (samplerInstr rd' k) s' = .next t' → t.phase = .idle → t'.phase = .idle →
    s.phase = .running → s'.phase = .running →
    (∀ i < 256, t.coeff rd i = t'.coeff rd' i) ∧ t.sampleBytes = t'.sampleBytes ∧ t.sampleBlocks = t'.sampleBlocks
      ∧ (m.avail < 2 ^ 32 → m.blk < 2 ^ 32 → t.sampleBlocks.toNat
        = max (firstRequest s.cfg k) ((t.sampleBytes.toNat + blockLength s.cfg k - 1) / blockLength s.cfg k))

/-- R254, R263, R273: what the samplers write is in the range of the kind: below q for uniform, `[q − ETA, q + ETA]` for eta and
`[q − (GAMMA1 − 1), q + GAMMA1 − 1]` for gamma1m1. The Q-biased form is the spec's own choice (D13). -/
def Obligations.SampledCoefficientsAreInRange : Prop :=
  ∀ (k : SamplerKind) (rd : Slot) (s t : State) (m : Sampler), s.cfg.legal = true → s.sampler = some m → Tracks k m s →
    s.phase = .running → exec (samplerInstr rd k) s = .next t → t.phase = .idle →
    t.Readable rd ∧ match k with
      | .U => ∀ i < 256, t.val rd i < 8380417
      | .E => ∀ i < 256, 8380417 ≤ t.val rd i + s.cfg.eta ∧ t.val rd i ≤ 8380417 + s.cfg.eta
      | .G => ∀ i < 256, 8380417 + 1 ≤ t.val rd i + s.cfg.gamma1 ∧ t.val rd i + 1 ≤ 8380417 + s.cfg.gamma1

/-! ### Unwritten storage -/

/-- R18, R380: a command that reads an unwritten slot coefficient, and an UNPACK that reads an unwritten byte, is the fault
UNWRITTEN_READ, and not otherwise. -/
def Obligations.UnwrittenReadIsAFault : Prop :=
  ∀ (rd ra rb : Slot) (r : Role) (s : State),
    (¬ s.Readable rd ↔ exec (.reduce rd) s = .fault (.unwrittenRead .slotFile))
      ∧ (¬ s.Readable rd ↔ exec (.freeze rd) s = .fault (.unwrittenRead .slotFile))
      ∧ (¬ s.Readable rd ↔ exec (.ntt rd) s = .fault (.unwrittenRead .slotFile))
      ∧ (¬ s.Readable rd ↔ exec (.invntt rd) s = .fault (.unwrittenRead .slotFile))
      ∧ (¬ s.Readable rd ↔ exec (.shl rd) s = .fault (.unwrittenRead .slotFile))
      ∧ (¬ s.Readable ra ↔ exec (.chknorm ra) s = .fault (.unwrittenRead .slotFile))
      ∧ (¬ s.Readable ra ↔ exec (.power2round rd ra rb) s = .fault (.unwrittenRead .slotFile))
      ∧ (¬ (s.Readable ra ∧ s.Readable rb) ↔ exec (.pwmul rd ra rb) s = .fault (.unwrittenRead .slotFile))
      ∧ (¬ (s.Readable ra ∧ s.Readable rb) ↔ exec (.add rd ra rb) s = .fault (.unwrittenRead .slotFile))
      ∧ (¬ (s.Readable ra ∧ s.Readable rb) ↔ exec (.sub rd ra rb) s = .fault (.unwrittenRead .slotFile))
      ∧ (¬ s.Readable ra ↔ exec (packInstr ra r) s = .fault (.unwrittenRead .slotFile))
      ∧ (¬ s.BytesReadable s.larg.toNat (packedSize s.cfg r) ↔ exec (unpackInstr rd r) s = .fault (.unwrittenRead .buf))
end

