-- ==== Sys2Proof/Laws/Memory.lean ====
section
/-! SUPPORT. The laws of the stores: what a read gives after a write, and that every operation keeps the canonical form. -/

namespace Sys2Proof.Machine

variable {β : Type}

@[simp] theorem Memory.read_nil (a : Nat) : Memory.read ([] : Memory β) a = none := rfl

theorem Memory.read_cons (k a : Nat) (v : β) (m : Memory β) :
    Memory.read ((k, v) :: m) a = if k = a then some v else Memory.read m a := rfl

theorem Memory.read_write (m : Memory β) (a b : Nat) (v : β) :
    Memory.read (Memory.write m a v) b = if a = b then some v else Memory.read m b := by
  induction m with
  | nil => simp [Memory.write, Memory.read_cons]
  | cons c m ih =>
    obtain ⟨k, u⟩ := c
    simp only [Memory.write]
    split
    · simp [Memory.read_cons]
    · split
      · subst_vars
        simp only [Memory.read_cons]
        split <;> rfl
      · simp only [Memory.read_cons, ih]
        split
        · subst_vars
          simp_all
        · rfl

@[simp] theorem Memory.read_write_same (m : Memory β) (a : Nat) (v : β) :
    Memory.read (Memory.write m a v) a = some v := by simp [Memory.read_write]

theorem Memory.read_append (m n : Memory β) (a : Nat) :
    Memory.read (m ++ n) a = (Memory.read m a).or (Memory.read n a) := by
  induction m with
  | nil => simp
  | cons c m ih =>
    obtain ⟨k, u⟩ := c
    simp only [List.cons_append, Memory.read_cons, ih]
    split <;> simp

theorem Memory.read_filter (m : Memory β) (f : Nat → Bool) (a : Nat) :
    Memory.read (m.filter (fun c => f c.1)) a = if f a then Memory.read m a else none := by
  induction m with
  | nil => simp
  | cons c m ih =>
    obtain ⟨k, u⟩ := c
    rw [List.filter_cons]
    by_cases hk : k = a
    · subst hk
      cases h : f k <;> simp_all [Memory.read_cons]
    · cases h : f k <;> simp_all [Memory.read_cons]

theorem read_numberFrom (a b : Nat) (vs : List β) :
    Memory.read (numberFrom a vs) b = if a ≤ b then vs[b - a]? else none := by
  induction vs generalizing a with
  | nil => simp [numberFrom]
  | cons v vs ih =>
    simp only [numberFrom, Memory.read_cons, ih]
    by_cases hab : a = b
    · simp [hab]
    · by_cases h : a + 1 ≤ b
      · have : b - a = (b - (a + 1)) + 1 := by omega
        simp [hab, h, show a ≤ b by omega, this]
      · simp [hab, h, show ¬ a ≤ b by omega]

/-- A read after a range write: inside the range the value written, outside it what was there. -/
theorem Memory.read_writeRange (m : Memory β) (a b : Nat) (vs : List β) :
    Memory.read (Memory.writeRange m a vs) b
      = if a ≤ b ∧ b < a + vs.length then vs[b - a]? else Memory.read m b := by
  have hlow := Memory.read_filter m (fun k => decide (k < a)) b
  have hhigh := Memory.read_filter m (fun k => decide (a + vs.length ≤ k)) b
  simp only [decide_eq_true_eq] at hlow hhigh
  simp only [Memory.writeRange, Memory.read_append, read_numberFrom, hlow, hhigh]
  by_cases h1 : b < a
  · simp [h1, show ¬ a ≤ b by omega, show ¬ a + vs.length ≤ b by omega]
  · by_cases h2 : b < a + vs.length
    · have : b - a < vs.length := by omega
      simp [h1, h2, show a ≤ b by omega, show ¬ a + vs.length ≤ b by omega, List.getElem?_eq_getElem this]
    · have : vs.length ≤ b - a := by omega
      simp [h1, h2, show a ≤ b by omega, show a + vs.length ≤ b by omega, List.getElem?_eq_none this]

theorem Memory.read_writeRange_inside (m : Memory β) (a i : Nat) (vs : List β) (h : i < vs.length) :
    Memory.read (Memory.writeRange m a vs) (a + i) = some vs[i] := by
  simp [Memory.read_writeRange, h]

theorem Memory.read_writeRange_outside (m : Memory β) (a b : Nat) (vs : List β) (h : b < a ∨ a + vs.length ≤ b) :
    Memory.read (Memory.writeRange m a vs) b = Memory.read m b := by
  rw [Memory.read_writeRange, if_neg (by omega)]

/-- A range read gives exactly the values of its keys. -/
theorem Memory.readRange_eq_some (m : Memory β) (a n : Nat) (vs : List β) :
    Memory.readRange m a n = some vs ↔ vs.length = n ∧ ∀ i (h : i < vs.length), Memory.read m (a + i) = some vs[i] := by
  induction n generalizing a vs with
  | zero =>
    simp only [Memory.readRange, Option.some.injEq]
    constructor
    · rintro rfl; simp
    · rintro ⟨h, -⟩; exact (List.length_eq_zero_iff.mp h).symm
  | succ n ih =>
    simp only [Memory.readRange]
    constructor
    · intro h
      split at h
      · rename_i v ws hv hws
        cases h
        obtain ⟨hl, hr⟩ := (ih _ _).mp hws
        refine ⟨by simp [hl], ?_⟩
        intro i hi
        cases i with
        | zero => simpa using hv
        | succ i =>
          have := hr i (by simpa using hi)
          simpa [Nat.add_assoc, Nat.add_comm 1 i] using this
      · cases h
    · rintro ⟨hl, hr⟩
      cases vs with
      | nil => simp at hl
      | cons v ws =>
        have h0 : Memory.read m a = some v := hr 0 (by simp)
        have h1 : Memory.readRange m (a + 1) n = some ws := by
          refine (ih _ _).mpr ⟨by simpa using hl, ?_⟩
          intro i hi
          have := hr (i + 1) (by simpa using hi)
          simpa [Nat.add_assoc, Nat.add_comm 1 i] using this
        simp [h0, h1]

/-- A range read succeeds exactly when every one of its keys is written. -/
theorem Memory.readRange_isSome (m : Memory β) (a n : Nat) :
    (Memory.readRange m a n).isSome ↔ ∀ i < n, (Memory.read m (a + i)).isSome := by
  induction n generalizing a with
  | zero => simp [Memory.readRange]
  | succ n ih =>
    have hsplit : (∀ i < n + 1, (Memory.read m (a + i)).isSome) ↔
        (Memory.read m a).isSome ∧ ∀ i < n, (Memory.read m (a + 1 + i)).isSome := by
      constructor
      · intro h
        refine ⟨by simpa using h 0 (by omega), fun i hi => ?_⟩
        simpa [Nat.add_assoc, Nat.add_comm 1 i] using h (i + 1) (by omega)
      · rintro ⟨h0, h⟩ i hi
        cases i with
        | zero => simpa using h0
        | succ i => simpa [Nat.add_assoc, Nat.add_comm 1 i] using h i (by omega)
    rw [hsplit, ← ih]
    simp only [Memory.readRange]
    cases Memory.read m a <;> cases Memory.readRange m (a + 1) n <;> simp

/-! ### The canonical form -/

theorem Memory.wf_iff_pairwise (m : Memory β) :
    Memory.wf m = true ↔ m.Pairwise (fun c d => c.1 < d.1) := by
  induction m with
  | nil => simp [Memory.wf]
  | cons c m ih =>
    cases m with
    | nil => simp [Memory.wf]
    | cons d m =>
      simp only [Memory.wf, Bool.and_eq_true, decide_eq_true_eq, ih, List.pairwise_cons]
      constructor
      · rintro ⟨hcd, hd, hm⟩
        refine ⟨?_, hd, hm⟩
        intro e he
        rcases List.mem_cons.mp he with rfl | he
        · exact hcd
        · exact Nat.lt_trans hcd (hd e he)
      · rintro ⟨hc, hd, hm⟩
        exact ⟨hc d (by simp), hd, hm⟩

theorem mem_numberFrom {a : Nat} {vs : List β} {c : Nat × β} (h : c ∈ numberFrom a vs) :
    a ≤ c.1 ∧ c.1 < a + vs.length := by
  induction vs generalizing a with
  | nil => simp [numberFrom] at h
  | cons v vs ih =>
    simp only [numberFrom, List.mem_cons] at h
    rcases h with rfl | h
    · simp
    · have := ih h
      simp only [List.length_cons]
      omega

theorem numberFrom_pairwise (a : Nat) (vs : List β) :
    (numberFrom a vs).Pairwise (fun c d => c.1 < d.1) := by
  induction vs generalizing a with
  | nil => simp [numberFrom]
  | cons v vs ih =>
    simp only [numberFrom, List.pairwise_cons]
    exact ⟨fun c hc => by have := (mem_numberFrom hc).1; omega, ih _⟩

/-- A range write keeps the canonical form. -/
theorem Memory.wf_writeRange (m : Memory β) (a : Nat) (vs : List β) (h : Memory.wf m = true) :
    Memory.wf (Memory.writeRange m a vs) = true := by
  rw [Memory.wf_iff_pairwise] at h ⊢
  simp only [Memory.writeRange, List.pairwise_append, List.mem_append, List.mem_filter, decide_eq_true_eq]
  refine ⟨⟨h.filter _, numberFrom_pairwise a vs, ?_⟩, h.filter _, ?_⟩
  · rintro c ⟨-, hc⟩ d hd
    have := mem_numberFrom hd
    omega
  · rintro c (⟨-, hc⟩ | hc) d ⟨-, hd⟩
    · omega
    · have := mem_numberFrom hc
      omega

theorem Memory.mem_write {m : Memory β} {a : Nat} {v : β} {c : Nat × β} (h : c ∈ Memory.write m a v) :
    c = (a, v) ∨ c ∈ m := by
  induction m with
  | nil => simpa [Memory.write] using h
  | cons d m ih =>
    obtain ⟨k, u⟩ := d
    simp only [Memory.write] at h
    split at h
    · simpa using h
    · split at h
      · rcases List.mem_cons.mp h with h | h
        · exact .inl h
        · exact .inr (List.mem_cons_of_mem _ h)
      · rcases List.mem_cons.mp h with h | h
        · exact .inr (by simp [h])
        · rcases ih h with h | h
          · exact .inl h
          · exact .inr (List.mem_cons_of_mem _ h)

/-- A write keeps the canonical form. -/
theorem Memory.wf_write (m : Memory β) (a : Nat) (v : β) (h : Memory.wf m = true) :
    Memory.wf (Memory.write m a v) = true := by
  rw [Memory.wf_iff_pairwise] at h ⊢
  induction m with
  | nil => simp [Memory.write]
  | cons d m ih =>
    obtain ⟨k, u⟩ := d
    obtain ⟨hd, hm⟩ := List.pairwise_cons.mp h
    simp only [Memory.write]
    split
    · rename_i hlt
      refine List.pairwise_cons.mpr ⟨?_, h⟩
      intro e he
      rcases List.mem_cons.mp he with rfl | he
      · exact hlt
      · exact Nat.lt_trans hlt (hd e he)
    · split
      · rename_i heq
        exact List.pairwise_cons.mpr ⟨fun e he => heq ▸ hd e he, hm⟩
      · refine List.pairwise_cons.mpr ⟨?_, ih hm⟩
        intro e he
        rcases Memory.mem_write he with rfl | he
        · simp only; omega
        · exact hd e he

theorem Memory.mem_writeRange {m : Memory β} {a : Nat} {vs : List β} {c : Nat × β}
    (h : c ∈ Memory.writeRange m a vs) : c ∈ m ∨ (a ≤ c.1 ∧ c.1 < a + vs.length) := by
  simp only [Memory.writeRange, List.mem_append, List.mem_filter] at h
  rcases h with (⟨h, -⟩ | h) | ⟨h, -⟩
  · exact .inl h
  · exact .inr (mem_numberFrom h)
  · exact .inl h

end Sys2Proof.Machine
end

