-- ==== Sys2Proof/Laws/State.lean ====
section
/-! SUPPORT. One lemma for each field and each named update of State: what the update leaves in the field. Then the readings of
storage (coefficient, slot, byte) under the updates that write no storage. -/

namespace Sys2Proof.Machine

/-! ### setPoly -/

@[simp] theorem State.setPoly_cfg (s : State) (k : Slot) (p : List Nat) : (s.setPoly k p).cfg = s.cfg := rfl
@[simp] theorem State.setPoly_slots (s : State) (k : Slot) (p : List Nat) : (s.setPoly k p).slots = Memory.writeRange s.slots (slotKey k 0) (p.map (BitVec.ofNat 32)) := rfl
@[simp] theorem State.setPoly_buf (s : State) (k : Slot) (p : List Nat) : (s.setPoly k p).buf = s.buf := rfl
@[simp] theorem State.setPoly_cmd (s : State) (k : Slot) (p : List Nat) : (s.setPoly k p).cmd = s.cmd := rfl
@[simp] theorem State.setPoly_arg (s : State) (k : Slot) (p : List Nat) : (s.setPoly k p).arg = s.arg := rfl
@[simp] theorem State.setPoly_busy (s : State) (k : Slot) (p : List Nat) : (s.setPoly k p).busy = s.busy := rfl
@[simp] theorem State.setPoly_done (s : State) (k : Slot) (p : List Nat) : (s.setPoly k p).done = s.done := rfl
@[simp] theorem State.setPoly_err (s : State) (k : Slot) (p : List Nat) : (s.setPoly k p).err = s.err := rfl
@[simp] theorem State.setPoly_norm (s : State) (k : Slot) (p : List Nat) : (s.setPoly k p).norm = s.norm := rfl
@[simp] theorem State.setPoly_errcode (s : State) (k : Slot) (p : List Nat) : (s.setPoly k p).errcode = s.errcode := rfl
@[simp] theorem State.setPoly_ieDone (s : State) (k : Slot) (p : List Nat) : (s.setPoly k p).ieDone = s.ieDone := rfl
@[simp] theorem State.setPoly_ieErr (s : State) (k : Slot) (p : List Nat) : (s.setPoly k p).ieErr = s.ieErr := rfl
@[simp] theorem State.setPoly_errinfo (s : State) (k : Slot) (p : List Nat) : (s.setPoly k p).errinfo = s.errinfo := rfl
@[simp] theorem State.setPoly_sampleBytes (s : State) (k : Slot) (p : List Nat) : (s.setPoly k p).sampleBytes = s.sampleBytes := rfl
@[simp] theorem State.setPoly_sampleBlocks (s : State) (k : Slot) (p : List Nat) : (s.setPoly k p).sampleBlocks = s.sampleBlocks := rfl
@[simp] theorem State.setPoly_lcmd (s : State) (k : Slot) (p : List Nat) : (s.setPoly k p).lcmd = s.lcmd := rfl
@[simp] theorem State.setPoly_larg (s : State) (k : Slot) (p : List Nat) : (s.setPoly k p).larg = s.larg := rfl
@[simp] theorem State.setPoly_phase (s : State) (k : Slot) (p : List Nat) : (s.setPoly k p).phase = s.phase := rfl
@[simp] theorem State.setPoly_sampler (s : State) (k : Slot) (p : List Nat) : (s.setPoly k p).sampler = s.sampler := rfl
@[simp] theorem State.setPoly_session (s : State) (k : Slot) (p : List Nat) : (s.setPoly k p).session = s.session := rfl
@[simp] theorem State.setPoly_squeeze (s : State) (k : Slot) (p : List Nat) : (s.setPoly k p).squeeze = s.squeeze := rfl
@[simp] theorem State.setPoly_abandoned (s : State) (k : Slot) (p : List Nat) : (s.setPoly k p).abandoned = s.abandoned := rfl
@[simp] theorem State.setPoly_streams (s : State) (k : Slot) (p : List Nat) : (s.setPoly k p).streams = s.streams := rfl
@[simp] theorem State.setPoly_agenda (s : State) (k : Slot) (p : List Nat) : (s.setPoly k p).agenda = s.agenda := rfl
@[simp] theorem State.setPoly_response (s : State) (k : Slot) (p : List Nat) : (s.setPoly k p).response = s.response := rfl
@[simp] theorem State.setPoly_portLog (s : State) (k : Slot) (p : List Nat) : (s.setPoly k p).portLog = s.portLog := rfl
@[simp] theorem State.setPoly_drawn (s : State) (k : Slot) (p : List Nat) : (s.setPoly k p).drawn = s.drawn := rfl

@[simp] theorem State.setPoly_bufByte (s : State) (k : Slot) (p : List Nat) (j : Nat) : (s.setPoly k p).bufByte j = s.bufByte j := rfl
@[simp] theorem State.setPoly_bufBytes (s : State) (k : Slot) (p : List Nat) (j l : Nat) : (s.setPoly k p).bufBytes j l = s.bufBytes j l := rfl
@[simp] theorem State.setPoly_nonce (s : State) (k : Slot) (p : List Nat) : (s.setPoly k p).nonce = s.nonce := rfl
@[simp] theorem State.setPoly_offset (s : State) (k : Slot) (p : List Nat) : (s.setPoly k p).offset = s.offset := rfl

/-! ### setCoeff -/

@[simp] theorem State.setCoeff_cfg (s : State) (key : Nat) (v : Word) : (s.setCoeff key v).cfg = s.cfg := rfl
@[simp] theorem State.setCoeff_slots (s : State) (key : Nat) (v : Word) : (s.setCoeff key v).slots = Memory.write s.slots key v := rfl
@[simp] theorem State.setCoeff_buf (s : State) (key : Nat) (v : Word) : (s.setCoeff key v).buf = s.buf := rfl
@[simp] theorem State.setCoeff_cmd (s : State) (key : Nat) (v : Word) : (s.setCoeff key v).cmd = s.cmd := rfl
@[simp] theorem State.setCoeff_arg (s : State) (key : Nat) (v : Word) : (s.setCoeff key v).arg = s.arg := rfl
@[simp] theorem State.setCoeff_busy (s : State) (key : Nat) (v : Word) : (s.setCoeff key v).busy = s.busy := rfl
@[simp] theorem State.setCoeff_done (s : State) (key : Nat) (v : Word) : (s.setCoeff key v).done = s.done := rfl
@[simp] theorem State.setCoeff_err (s : State) (key : Nat) (v : Word) : (s.setCoeff key v).err = s.err := rfl
@[simp] theorem State.setCoeff_norm (s : State) (key : Nat) (v : Word) : (s.setCoeff key v).norm = s.norm := rfl
@[simp] theorem State.setCoeff_errcode (s : State) (key : Nat) (v : Word) : (s.setCoeff key v).errcode = s.errcode := rfl
@[simp] theorem State.setCoeff_ieDone (s : State) (key : Nat) (v : Word) : (s.setCoeff key v).ieDone = s.ieDone := rfl
@[simp] theorem State.setCoeff_ieErr (s : State) (key : Nat) (v : Word) : (s.setCoeff key v).ieErr = s.ieErr := rfl
@[simp] theorem State.setCoeff_errinfo (s : State) (key : Nat) (v : Word) : (s.setCoeff key v).errinfo = s.errinfo := rfl
@[simp] theorem State.setCoeff_sampleBytes (s : State) (key : Nat) (v : Word) : (s.setCoeff key v).sampleBytes = s.sampleBytes := rfl
@[simp] theorem State.setCoeff_sampleBlocks (s : State) (key : Nat) (v : Word) : (s.setCoeff key v).sampleBlocks = s.sampleBlocks := rfl
@[simp] theorem State.setCoeff_lcmd (s : State) (key : Nat) (v : Word) : (s.setCoeff key v).lcmd = s.lcmd := rfl
@[simp] theorem State.setCoeff_larg (s : State) (key : Nat) (v : Word) : (s.setCoeff key v).larg = s.larg := rfl
@[simp] theorem State.setCoeff_phase (s : State) (key : Nat) (v : Word) : (s.setCoeff key v).phase = s.phase := rfl
@[simp] theorem State.setCoeff_sampler (s : State) (key : Nat) (v : Word) : (s.setCoeff key v).sampler = s.sampler := rfl
@[simp] theorem State.setCoeff_session (s : State) (key : Nat) (v : Word) : (s.setCoeff key v).session = s.session := rfl
@[simp] theorem State.setCoeff_squeeze (s : State) (key : Nat) (v : Word) : (s.setCoeff key v).squeeze = s.squeeze := rfl
@[simp] theorem State.setCoeff_abandoned (s : State) (key : Nat) (v : Word) : (s.setCoeff key v).abandoned = s.abandoned := rfl
@[simp] theorem State.setCoeff_streams (s : State) (key : Nat) (v : Word) : (s.setCoeff key v).streams = s.streams := rfl
@[simp] theorem State.setCoeff_agenda (s : State) (key : Nat) (v : Word) : (s.setCoeff key v).agenda = s.agenda := rfl
@[simp] theorem State.setCoeff_response (s : State) (key : Nat) (v : Word) : (s.setCoeff key v).response = s.response := rfl
@[simp] theorem State.setCoeff_portLog (s : State) (key : Nat) (v : Word) : (s.setCoeff key v).portLog = s.portLog := rfl
@[simp] theorem State.setCoeff_drawn (s : State) (key : Nat) (v : Word) : (s.setCoeff key v).drawn = s.drawn := rfl

@[simp] theorem State.setCoeff_bufByte (s : State) (key : Nat) (v : Word) (j : Nat) : (s.setCoeff key v).bufByte j = s.bufByte j := rfl
@[simp] theorem State.setCoeff_bufBytes (s : State) (key : Nat) (v : Word) (j l : Nat) : (s.setCoeff key v).bufBytes j l = s.bufBytes j l := rfl
@[simp] theorem State.setCoeff_nonce (s : State) (key : Nat) (v : Word) : (s.setCoeff key v).nonce = s.nonce := rfl
@[simp] theorem State.setCoeff_offset (s : State) (key : Nat) (v : Word) : (s.setCoeff key v).offset = s.offset := rfl

/-! ### setBytes -/

@[simp] theorem State.setBytes_cfg (s : State) (o : Nat) (bs : List Byte) : (s.setBytes o bs).cfg = s.cfg := rfl
@[simp] theorem State.setBytes_slots (s : State) (o : Nat) (bs : List Byte) : (s.setBytes o bs).slots = s.slots := rfl
@[simp] theorem State.setBytes_buf (s : State) (o : Nat) (bs : List Byte) : (s.setBytes o bs).buf = Memory.writeRange s.buf o bs := rfl
@[simp] theorem State.setBytes_cmd (s : State) (o : Nat) (bs : List Byte) : (s.setBytes o bs).cmd = s.cmd := rfl
@[simp] theorem State.setBytes_arg (s : State) (o : Nat) (bs : List Byte) : (s.setBytes o bs).arg = s.arg := rfl
@[simp] theorem State.setBytes_busy (s : State) (o : Nat) (bs : List Byte) : (s.setBytes o bs).busy = s.busy := rfl
@[simp] theorem State.setBytes_done (s : State) (o : Nat) (bs : List Byte) : (s.setBytes o bs).done = s.done := rfl
@[simp] theorem State.setBytes_err (s : State) (o : Nat) (bs : List Byte) : (s.setBytes o bs).err = s.err := rfl
@[simp] theorem State.setBytes_norm (s : State) (o : Nat) (bs : List Byte) : (s.setBytes o bs).norm = s.norm := rfl
@[simp] theorem State.setBytes_errcode (s : State) (o : Nat) (bs : List Byte) : (s.setBytes o bs).errcode = s.errcode := rfl
@[simp] theorem State.setBytes_ieDone (s : State) (o : Nat) (bs : List Byte) : (s.setBytes o bs).ieDone = s.ieDone := rfl
@[simp] theorem State.setBytes_ieErr (s : State) (o : Nat) (bs : List Byte) : (s.setBytes o bs).ieErr = s.ieErr := rfl
@[simp] theorem State.setBytes_errinfo (s : State) (o : Nat) (bs : List Byte) : (s.setBytes o bs).errinfo = s.errinfo := rfl
@[simp] theorem State.setBytes_sampleBytes (s : State) (o : Nat) (bs : List Byte) : (s.setBytes o bs).sampleBytes = s.sampleBytes := rfl
@[simp] theorem State.setBytes_sampleBlocks (s : State) (o : Nat) (bs : List Byte) : (s.setBytes o bs).sampleBlocks = s.sampleBlocks := rfl
@[simp] theorem State.setBytes_lcmd (s : State) (o : Nat) (bs : List Byte) : (s.setBytes o bs).lcmd = s.lcmd := rfl
@[simp] theorem State.setBytes_larg (s : State) (o : Nat) (bs : List Byte) : (s.setBytes o bs).larg = s.larg := rfl
@[simp] theorem State.setBytes_phase (s : State) (o : Nat) (bs : List Byte) : (s.setBytes o bs).phase = s.phase := rfl
@[simp] theorem State.setBytes_sampler (s : State) (o : Nat) (bs : List Byte) : (s.setBytes o bs).sampler = s.sampler := rfl
@[simp] theorem State.setBytes_session (s : State) (o : Nat) (bs : List Byte) : (s.setBytes o bs).session = s.session := rfl
@[simp] theorem State.setBytes_squeeze (s : State) (o : Nat) (bs : List Byte) : (s.setBytes o bs).squeeze = s.squeeze := rfl
@[simp] theorem State.setBytes_abandoned (s : State) (o : Nat) (bs : List Byte) : (s.setBytes o bs).abandoned = s.abandoned := rfl
@[simp] theorem State.setBytes_streams (s : State) (o : Nat) (bs : List Byte) : (s.setBytes o bs).streams = s.streams := rfl
@[simp] theorem State.setBytes_agenda (s : State) (o : Nat) (bs : List Byte) : (s.setBytes o bs).agenda = s.agenda := rfl
@[simp] theorem State.setBytes_response (s : State) (o : Nat) (bs : List Byte) : (s.setBytes o bs).response = s.response := rfl
@[simp] theorem State.setBytes_portLog (s : State) (o : Nat) (bs : List Byte) : (s.setBytes o bs).portLog = s.portLog := rfl
@[simp] theorem State.setBytes_drawn (s : State) (o : Nat) (bs : List Byte) : (s.setBytes o bs).drawn = s.drawn := rfl

@[simp] theorem State.setBytes_coeff (s : State) (o : Nat) (bs : List Byte) (j i : Nat) : (s.setBytes o bs).coeff j i = s.coeff j i := rfl
@[simp] theorem State.setBytes_poly (s : State) (o : Nat) (bs : List Byte) (j : Slot) : (s.setBytes o bs).poly j = s.poly j := rfl
@[simp] theorem State.setBytes_nonce (s : State) (o : Nat) (bs : List Byte) : (s.setBytes o bs).nonce = s.nonce := rfl
@[simp] theorem State.setBytes_offset (s : State) (o : Nat) (bs : List Byte) : (s.setBytes o bs).offset = s.offset := rfl

/-! ### havocSlot -/

@[simp] theorem State.havocSlot_cfg (s : State) (k : Slot) : (s.havocSlot k).cfg = s.cfg := rfl
@[simp] theorem State.havocSlot_slots (s : State) (k : Slot) : (s.havocSlot k).slots = Memory.writeRange s.slots (slotKey k 0) (freeWords s.drawn 256) := rfl
@[simp] theorem State.havocSlot_buf (s : State) (k : Slot) : (s.havocSlot k).buf = s.buf := rfl
@[simp] theorem State.havocSlot_cmd (s : State) (k : Slot) : (s.havocSlot k).cmd = s.cmd := rfl
@[simp] theorem State.havocSlot_arg (s : State) (k : Slot) : (s.havocSlot k).arg = s.arg := rfl
@[simp] theorem State.havocSlot_busy (s : State) (k : Slot) : (s.havocSlot k).busy = s.busy := rfl
@[simp] theorem State.havocSlot_done (s : State) (k : Slot) : (s.havocSlot k).done = s.done := rfl
@[simp] theorem State.havocSlot_err (s : State) (k : Slot) : (s.havocSlot k).err = s.err := rfl
@[simp] theorem State.havocSlot_norm (s : State) (k : Slot) : (s.havocSlot k).norm = s.norm := rfl
@[simp] theorem State.havocSlot_errcode (s : State) (k : Slot) : (s.havocSlot k).errcode = s.errcode := rfl
@[simp] theorem State.havocSlot_ieDone (s : State) (k : Slot) : (s.havocSlot k).ieDone = s.ieDone := rfl
@[simp] theorem State.havocSlot_ieErr (s : State) (k : Slot) : (s.havocSlot k).ieErr = s.ieErr := rfl
@[simp] theorem State.havocSlot_errinfo (s : State) (k : Slot) : (s.havocSlot k).errinfo = s.errinfo := rfl
@[simp] theorem State.havocSlot_sampleBytes (s : State) (k : Slot) : (s.havocSlot k).sampleBytes = s.sampleBytes := rfl
@[simp] theorem State.havocSlot_sampleBlocks (s : State) (k : Slot) : (s.havocSlot k).sampleBlocks = s.sampleBlocks := rfl
@[simp] theorem State.havocSlot_lcmd (s : State) (k : Slot) : (s.havocSlot k).lcmd = s.lcmd := rfl
@[simp] theorem State.havocSlot_larg (s : State) (k : Slot) : (s.havocSlot k).larg = s.larg := rfl
@[simp] theorem State.havocSlot_phase (s : State) (k : Slot) : (s.havocSlot k).phase = s.phase := rfl
@[simp] theorem State.havocSlot_sampler (s : State) (k : Slot) : (s.havocSlot k).sampler = s.sampler := rfl
@[simp] theorem State.havocSlot_session (s : State) (k : Slot) : (s.havocSlot k).session = s.session := rfl
@[simp] theorem State.havocSlot_squeeze (s : State) (k : Slot) : (s.havocSlot k).squeeze = s.squeeze := rfl
@[simp] theorem State.havocSlot_abandoned (s : State) (k : Slot) : (s.havocSlot k).abandoned = s.abandoned := rfl
@[simp] theorem State.havocSlot_streams (s : State) (k : Slot) : (s.havocSlot k).streams = s.streams := rfl
@[simp] theorem State.havocSlot_agenda (s : State) (k : Slot) : (s.havocSlot k).agenda = s.agenda := rfl
@[simp] theorem State.havocSlot_response (s : State) (k : Slot) : (s.havocSlot k).response = s.response := rfl
@[simp] theorem State.havocSlot_portLog (s : State) (k : Slot) : (s.havocSlot k).portLog = s.portLog := rfl
@[simp] theorem State.havocSlot_drawn (s : State) (k : Slot) : (s.havocSlot k).drawn = s.drawn + 256 := rfl

@[simp] theorem State.havocSlot_bufByte (s : State) (k : Slot) (j : Nat) : (s.havocSlot k).bufByte j = s.bufByte j := rfl
@[simp] theorem State.havocSlot_bufBytes (s : State) (k : Slot) (j l : Nat) : (s.havocSlot k).bufBytes j l = s.bufBytes j l := rfl
@[simp] theorem State.havocSlot_nonce (s : State) (k : Slot) : (s.havocSlot k).nonce = s.nonce := rfl
@[simp] theorem State.havocSlot_offset (s : State) (k : Slot) : (s.havocSlot k).offset = s.offset := rfl

/-! ### havocBytes -/

@[simp] theorem State.havocBytes_cfg (s : State) (o n : Nat) : (s.havocBytes o n).cfg = s.cfg := rfl
@[simp] theorem State.havocBytes_slots (s : State) (o n : Nat) : (s.havocBytes o n).slots = s.slots := rfl
@[simp] theorem State.havocBytes_buf (s : State) (o n : Nat) : (s.havocBytes o n).buf = Memory.writeRange s.buf o (freeBytes s.drawn n) := rfl
@[simp] theorem State.havocBytes_cmd (s : State) (o n : Nat) : (s.havocBytes o n).cmd = s.cmd := rfl
@[simp] theorem State.havocBytes_arg (s : State) (o n : Nat) : (s.havocBytes o n).arg = s.arg := rfl
@[simp] theorem State.havocBytes_busy (s : State) (o n : Nat) : (s.havocBytes o n).busy = s.busy := rfl
@[simp] theorem State.havocBytes_done (s : State) (o n : Nat) : (s.havocBytes o n).done = s.done := rfl
@[simp] theorem State.havocBytes_err (s : State) (o n : Nat) : (s.havocBytes o n).err = s.err := rfl
@[simp] theorem State.havocBytes_norm (s : State) (o n : Nat) : (s.havocBytes o n).norm = s.norm := rfl
@[simp] theorem State.havocBytes_errcode (s : State) (o n : Nat) : (s.havocBytes o n).errcode = s.errcode := rfl
@[simp] theorem State.havocBytes_ieDone (s : State) (o n : Nat) : (s.havocBytes o n).ieDone = s.ieDone := rfl
@[simp] theorem State.havocBytes_ieErr (s : State) (o n : Nat) : (s.havocBytes o n).ieErr = s.ieErr := rfl
@[simp] theorem State.havocBytes_errinfo (s : State) (o n : Nat) : (s.havocBytes o n).errinfo = s.errinfo := rfl
@[simp] theorem State.havocBytes_sampleBytes (s : State) (o n : Nat) : (s.havocBytes o n).sampleBytes = s.sampleBytes := rfl
@[simp] theorem State.havocBytes_sampleBlocks (s : State) (o n : Nat) : (s.havocBytes o n).sampleBlocks = s.sampleBlocks := rfl
@[simp] theorem State.havocBytes_lcmd (s : State) (o n : Nat) : (s.havocBytes o n).lcmd = s.lcmd := rfl
@[simp] theorem State.havocBytes_larg (s : State) (o n : Nat) : (s.havocBytes o n).larg = s.larg := rfl
@[simp] theorem State.havocBytes_phase (s : State) (o n : Nat) : (s.havocBytes o n).phase = s.phase := rfl
@[simp] theorem State.havocBytes_sampler (s : State) (o n : Nat) : (s.havocBytes o n).sampler = s.sampler := rfl
@[simp] theorem State.havocBytes_session (s : State) (o n : Nat) : (s.havocBytes o n).session = s.session := rfl
@[simp] theorem State.havocBytes_squeeze (s : State) (o n : Nat) : (s.havocBytes o n).squeeze = s.squeeze := rfl
@[simp] theorem State.havocBytes_abandoned (s : State) (o n : Nat) : (s.havocBytes o n).abandoned = s.abandoned := rfl
@[simp] theorem State.havocBytes_streams (s : State) (o n : Nat) : (s.havocBytes o n).streams = s.streams := rfl
@[simp] theorem State.havocBytes_agenda (s : State) (o n : Nat) : (s.havocBytes o n).agenda = s.agenda := rfl
@[simp] theorem State.havocBytes_response (s : State) (o n : Nat) : (s.havocBytes o n).response = s.response := rfl
@[simp] theorem State.havocBytes_portLog (s : State) (o n : Nat) : (s.havocBytes o n).portLog = s.portLog := rfl
@[simp] theorem State.havocBytes_drawn (s : State) (o n : Nat) : (s.havocBytes o n).drawn = s.drawn + n := rfl

@[simp] theorem State.havocBytes_coeff (s : State) (o n : Nat) (j i : Nat) : (s.havocBytes o n).coeff j i = s.coeff j i := rfl
@[simp] theorem State.havocBytes_poly (s : State) (o n : Nat) (j : Slot) : (s.havocBytes o n).poly j = s.poly j := rfl
@[simp] theorem State.havocBytes_nonce (s : State) (o n : Nat) : (s.havocBytes o n).nonce = s.nonce := rfl
@[simp] theorem State.havocBytes_offset (s : State) (o n : Nat) : (s.havocBytes o n).offset = s.offset := rfl

/-! ### raiseError -/

@[simp] theorem State.raiseError_cfg (s : State) (e : ErrCode) (w : Word) : (s.raiseError e w).cfg = s.cfg := rfl
@[simp] theorem State.raiseError_slots (s : State) (e : ErrCode) (w : Word) : (s.raiseError e w).slots = s.slots := rfl
@[simp] theorem State.raiseError_buf (s : State) (e : ErrCode) (w : Word) : (s.raiseError e w).buf = s.buf := rfl
@[simp] theorem State.raiseError_cmd (s : State) (e : ErrCode) (w : Word) : (s.raiseError e w).cmd = s.cmd := rfl
@[simp] theorem State.raiseError_arg (s : State) (e : ErrCode) (w : Word) : (s.raiseError e w).arg = s.arg := rfl
@[simp] theorem State.raiseError_busy (s : State) (e : ErrCode) (w : Word) : (s.raiseError e w).busy = s.busy := rfl
@[simp] theorem State.raiseError_done (s : State) (e : ErrCode) (w : Word) : (s.raiseError e w).done = s.done := rfl
@[simp] theorem State.raiseError_err (s : State) (e : ErrCode) (w : Word) : (s.raiseError e w).err = true := rfl
@[simp] theorem State.raiseError_norm (s : State) (e : ErrCode) (w : Word) : (s.raiseError e w).norm = s.norm := rfl
@[simp] theorem State.raiseError_errcode (s : State) (e : ErrCode) (w : Word) : (s.raiseError e w).errcode = if s.err then s.errcode else e := rfl
@[simp] theorem State.raiseError_ieDone (s : State) (e : ErrCode) (w : Word) : (s.raiseError e w).ieDone = s.ieDone := rfl
@[simp] theorem State.raiseError_ieErr (s : State) (e : ErrCode) (w : Word) : (s.raiseError e w).ieErr = s.ieErr := rfl
@[simp] theorem State.raiseError_errinfo (s : State) (e : ErrCode) (w : Word) : (s.raiseError e w).errinfo = if s.err then s.errinfo else w := rfl
@[simp] theorem State.raiseError_sampleBytes (s : State) (e : ErrCode) (w : Word) : (s.raiseError e w).sampleBytes = s.sampleBytes := rfl
@[simp] theorem State.raiseError_sampleBlocks (s : State) (e : ErrCode) (w : Word) : (s.raiseError e w).sampleBlocks = s.sampleBlocks := rfl
@[simp] theorem State.raiseError_lcmd (s : State) (e : ErrCode) (w : Word) : (s.raiseError e w).lcmd = s.lcmd := rfl
@[simp] theorem State.raiseError_larg (s : State) (e : ErrCode) (w : Word) : (s.raiseError e w).larg = s.larg := rfl
@[simp] theorem State.raiseError_phase (s : State) (e : ErrCode) (w : Word) : (s.raiseError e w).phase = s.phase := rfl
@[simp] theorem State.raiseError_sampler (s : State) (e : ErrCode) (w : Word) : (s.raiseError e w).sampler = s.sampler := rfl
@[simp] theorem State.raiseError_session (s : State) (e : ErrCode) (w : Word) : (s.raiseError e w).session = s.session := rfl
@[simp] theorem State.raiseError_squeeze (s : State) (e : ErrCode) (w : Word) : (s.raiseError e w).squeeze = s.squeeze := rfl
@[simp] theorem State.raiseError_abandoned (s : State) (e : ErrCode) (w : Word) : (s.raiseError e w).abandoned = s.abandoned := rfl
@[simp] theorem State.raiseError_streams (s : State) (e : ErrCode) (w : Word) : (s.raiseError e w).streams = s.streams := rfl
@[simp] theorem State.raiseError_agenda (s : State) (e : ErrCode) (w : Word) : (s.raiseError e w).agenda = s.agenda := rfl
@[simp] theorem State.raiseError_response (s : State) (e : ErrCode) (w : Word) : (s.raiseError e w).response = s.response := rfl
@[simp] theorem State.raiseError_portLog (s : State) (e : ErrCode) (w : Word) : (s.raiseError e w).portLog = s.portLog := rfl
@[simp] theorem State.raiseError_drawn (s : State) (e : ErrCode) (w : Word) : (s.raiseError e w).drawn = s.drawn := rfl

@[simp] theorem State.raiseError_coeff (s : State) (e : ErrCode) (w : Word) (j i : Nat) : (s.raiseError e w).coeff j i = s.coeff j i := rfl
@[simp] theorem State.raiseError_poly (s : State) (e : ErrCode) (w : Word) (j : Slot) : (s.raiseError e w).poly j = s.poly j := rfl
@[simp] theorem State.raiseError_bufByte (s : State) (e : ErrCode) (w : Word) (j : Nat) : (s.raiseError e w).bufByte j = s.bufByte j := rfl
@[simp] theorem State.raiseError_bufBytes (s : State) (e : ErrCode) (w : Word) (j l : Nat) : (s.raiseError e w).bufBytes j l = s.bufBytes j l := rfl
@[simp] theorem State.raiseError_nonce (s : State) (e : ErrCode) (w : Word) : (s.raiseError e w).nonce = s.nonce := rfl
@[simp] theorem State.raiseError_offset (s : State) (e : ErrCode) (w : Word) : (s.raiseError e w).offset = s.offset := rfl

/-! ### ackError -/

@[simp] theorem State.ackError_cfg (s : State) : s.ackError.cfg = s.cfg := rfl
@[simp] theorem State.ackError_slots (s : State) : s.ackError.slots = s.slots := rfl
@[simp] theorem State.ackError_buf (s : State) : s.ackError.buf = s.buf := rfl
@[simp] theorem State.ackError_cmd (s : State) : s.ackError.cmd = s.cmd := rfl
@[simp] theorem State.ackError_arg (s : State) : s.ackError.arg = s.arg := rfl
@[simp] theorem State.ackError_busy (s : State) : s.ackError.busy = s.busy := rfl
@[simp] theorem State.ackError_done (s : State) : s.ackError.done = s.done := rfl
@[simp] theorem State.ackError_err (s : State) : s.ackError.err = false := rfl
@[simp] theorem State.ackError_norm (s : State) : s.ackError.norm = s.norm := rfl
@[simp] theorem State.ackError_errcode (s : State) : s.ackError.errcode = .noError := rfl
@[simp] theorem State.ackError_ieDone (s : State) : s.ackError.ieDone = s.ieDone := rfl
@[simp] theorem State.ackError_ieErr (s : State) : s.ackError.ieErr = s.ieErr := rfl
@[simp] theorem State.ackError_errinfo (s : State) : s.ackError.errinfo = 0#32 := rfl
@[simp] theorem State.ackError_sampleBytes (s : State) : s.ackError.sampleBytes = s.sampleBytes := rfl
@[simp] theorem State.ackError_sampleBlocks (s : State) : s.ackError.sampleBlocks = s.sampleBlocks := rfl
@[simp] theorem State.ackError_lcmd (s : State) : s.ackError.lcmd = s.lcmd := rfl
@[simp] theorem State.ackError_larg (s : State) : s.ackError.larg = s.larg := rfl
@[simp] theorem State.ackError_phase (s : State) : s.ackError.phase = s.phase := rfl
@[simp] theorem State.ackError_sampler (s : State) : s.ackError.sampler = s.sampler := rfl
@[simp] theorem State.ackError_session (s : State) : s.ackError.session = s.session := rfl
@[simp] theorem State.ackError_squeeze (s : State) : s.ackError.squeeze = s.squeeze := rfl
@[simp] theorem State.ackError_abandoned (s : State) : s.ackError.abandoned = s.abandoned := rfl
@[simp] theorem State.ackError_streams (s : State) : s.ackError.streams = s.streams := rfl
@[simp] theorem State.ackError_agenda (s : State) : s.ackError.agenda = s.agenda := rfl
@[simp] theorem State.ackError_response (s : State) : s.ackError.response = s.response := rfl
@[simp] theorem State.ackError_portLog (s : State) : s.ackError.portLog = s.portLog := rfl
@[simp] theorem State.ackError_drawn (s : State) : s.ackError.drawn = s.drawn := rfl

@[simp] theorem State.ackError_coeff (s : State) (j i : Nat) : s.ackError.coeff j i = s.coeff j i := rfl
@[simp] theorem State.ackError_poly (s : State) (j : Slot) : s.ackError.poly j = s.poly j := rfl
@[simp] theorem State.ackError_bufByte (s : State) (j : Nat) : s.ackError.bufByte j = s.bufByte j := rfl
@[simp] theorem State.ackError_bufBytes (s : State) (j l : Nat) : s.ackError.bufBytes j l = s.bufBytes j l := rfl
@[simp] theorem State.ackError_nonce (s : State) : s.ackError.nonce = s.nonce := rfl
@[simp] theorem State.ackError_offset (s : State) : s.ackError.offset = s.offset := rfl

/-! ### ackDone -/

@[simp] theorem State.ackDone_cfg (s : State) : s.ackDone.cfg = s.cfg := rfl
@[simp] theorem State.ackDone_slots (s : State) : s.ackDone.slots = s.slots := rfl
@[simp] theorem State.ackDone_buf (s : State) : s.ackDone.buf = s.buf := rfl
@[simp] theorem State.ackDone_cmd (s : State) : s.ackDone.cmd = s.cmd := rfl
@[simp] theorem State.ackDone_arg (s : State) : s.ackDone.arg = s.arg := rfl
@[simp] theorem State.ackDone_busy (s : State) : s.ackDone.busy = s.busy := rfl
@[simp] theorem State.ackDone_done (s : State) : s.ackDone.done = false := rfl
@[simp] theorem State.ackDone_err (s : State) : s.ackDone.err = s.err := rfl
@[simp] theorem State.ackDone_norm (s : State) : s.ackDone.norm = s.norm := rfl
@[simp] theorem State.ackDone_errcode (s : State) : s.ackDone.errcode = s.errcode := rfl
@[simp] theorem State.ackDone_ieDone (s : State) : s.ackDone.ieDone = s.ieDone := rfl
@[simp] theorem State.ackDone_ieErr (s : State) : s.ackDone.ieErr = s.ieErr := rfl
@[simp] theorem State.ackDone_errinfo (s : State) : s.ackDone.errinfo = s.errinfo := rfl
@[simp] theorem State.ackDone_sampleBytes (s : State) : s.ackDone.sampleBytes = s.sampleBytes := rfl
@[simp] theorem State.ackDone_sampleBlocks (s : State) : s.ackDone.sampleBlocks = s.sampleBlocks := rfl
@[simp] theorem State.ackDone_lcmd (s : State) : s.ackDone.lcmd = s.lcmd := rfl
@[simp] theorem State.ackDone_larg (s : State) : s.ackDone.larg = s.larg := rfl
@[simp] theorem State.ackDone_phase (s : State) : s.ackDone.phase = s.phase := rfl
@[simp] theorem State.ackDone_sampler (s : State) : s.ackDone.sampler = s.sampler := rfl
@[simp] theorem State.ackDone_session (s : State) : s.ackDone.session = s.session := rfl
@[simp] theorem State.ackDone_squeeze (s : State) : s.ackDone.squeeze = s.squeeze := rfl
@[simp] theorem State.ackDone_abandoned (s : State) : s.ackDone.abandoned = s.abandoned := rfl
@[simp] theorem State.ackDone_streams (s : State) : s.ackDone.streams = s.streams := rfl
@[simp] theorem State.ackDone_agenda (s : State) : s.ackDone.agenda = s.agenda := rfl
@[simp] theorem State.ackDone_response (s : State) : s.ackDone.response = s.response := rfl
@[simp] theorem State.ackDone_portLog (s : State) : s.ackDone.portLog = s.portLog := rfl
@[simp] theorem State.ackDone_drawn (s : State) : s.ackDone.drawn = s.drawn := rfl

@[simp] theorem State.ackDone_coeff (s : State) (j i : Nat) : s.ackDone.coeff j i = s.coeff j i := rfl
@[simp] theorem State.ackDone_poly (s : State) (j : Slot) : s.ackDone.poly j = s.poly j := rfl
@[simp] theorem State.ackDone_bufByte (s : State) (j : Nat) : s.ackDone.bufByte j = s.bufByte j := rfl
@[simp] theorem State.ackDone_bufBytes (s : State) (j l : Nat) : s.ackDone.bufBytes j l = s.bufBytes j l := rfl
@[simp] theorem State.ackDone_nonce (s : State) : s.ackDone.nonce = s.nonce := rfl
@[simp] theorem State.ackDone_offset (s : State) : s.ackDone.offset = s.offset := rfl

/-! ### openSession -/

@[simp] theorem State.openSession_cfg (s : State) (k : SamplerKind) (n : BitVec 16) : (s.openSession k n).cfg = s.cfg := rfl
@[simp] theorem State.openSession_slots (s : State) (k : SamplerKind) (n : BitVec 16) : (s.openSession k n).slots = s.slots := rfl
@[simp] theorem State.openSession_buf (s : State) (k : SamplerKind) (n : BitVec 16) : (s.openSession k n).buf = s.buf := rfl
@[simp] theorem State.openSession_cmd (s : State) (k : SamplerKind) (n : BitVec 16) : (s.openSession k n).cmd = s.cmd := rfl
@[simp] theorem State.openSession_arg (s : State) (k : SamplerKind) (n : BitVec 16) : (s.openSession k n).arg = s.arg := rfl
@[simp] theorem State.openSession_busy (s : State) (k : SamplerKind) (n : BitVec 16) : (s.openSession k n).busy = s.busy := rfl
@[simp] theorem State.openSession_done (s : State) (k : SamplerKind) (n : BitVec 16) : (s.openSession k n).done = s.done := rfl
@[simp] theorem State.openSession_err (s : State) (k : SamplerKind) (n : BitVec 16) : (s.openSession k n).err = s.err := rfl
@[simp] theorem State.openSession_norm (s : State) (k : SamplerKind) (n : BitVec 16) : (s.openSession k n).norm = s.norm := rfl
@[simp] theorem State.openSession_errcode (s : State) (k : SamplerKind) (n : BitVec 16) : (s.openSession k n).errcode = s.errcode := rfl
@[simp] theorem State.openSession_ieDone (s : State) (k : SamplerKind) (n : BitVec 16) : (s.openSession k n).ieDone = s.ieDone := rfl
@[simp] theorem State.openSession_ieErr (s : State) (k : SamplerKind) (n : BitVec 16) : (s.openSession k n).ieErr = s.ieErr := rfl
@[simp] theorem State.openSession_errinfo (s : State) (k : SamplerKind) (n : BitVec 16) : (s.openSession k n).errinfo = s.errinfo := rfl
@[simp] theorem State.openSession_sampleBytes (s : State) (k : SamplerKind) (n : BitVec 16) : (s.openSession k n).sampleBytes = s.sampleBytes := rfl
@[simp] theorem State.openSession_sampleBlocks (s : State) (k : SamplerKind) (n : BitVec 16) : (s.openSession k n).sampleBlocks = s.sampleBlocks := rfl
@[simp] theorem State.openSession_lcmd (s : State) (k : SamplerKind) (n : BitVec 16) : (s.openSession k n).lcmd = s.lcmd := rfl
@[simp] theorem State.openSession_larg (s : State) (k : SamplerKind) (n : BitVec 16) : (s.openSession k n).larg = s.larg := rfl
@[simp] theorem State.openSession_phase (s : State) (k : SamplerKind) (n : BitVec 16) : (s.openSession k n).phase = s.phase := rfl
@[simp] theorem State.openSession_sampler (s : State) (k : SamplerKind) (n : BitVec 16) : (s.openSession k n).sampler = s.sampler := rfl
@[simp] theorem State.openSession_session (s : State) (k : SamplerKind) (n : BitVec 16) : (s.openSession k n).session = some ⟨k, n⟩ := rfl
@[simp] theorem State.openSession_squeeze (s : State) (k : SamplerKind) (n : BitVec 16) : (s.openSession k n).squeeze = s.squeeze := rfl
@[simp] theorem State.openSession_abandoned (s : State) (k : SamplerKind) (n : BitVec 16) : (s.openSession k n).abandoned = s.abandoned := rfl
@[simp] theorem State.openSession_streams (s : State) (k : SamplerKind) (n : BitVec 16) : (s.openSession k n).streams = s.streams := rfl
@[simp] theorem State.openSession_agenda (s : State) (k : SamplerKind) (n : BitVec 16) : (s.openSession k n).agenda = s.agenda := rfl
@[simp] theorem State.openSession_response (s : State) (k : SamplerKind) (n : BitVec 16) : (s.openSession k n).response = s.response := rfl
@[simp] theorem State.openSession_portLog (s : State) (k : SamplerKind) (n : BitVec 16) : (s.openSession k n).portLog = s.portLog ++ [.opened k n] := rfl
@[simp] theorem State.openSession_drawn (s : State) (k : SamplerKind) (n : BitVec 16) : (s.openSession k n).drawn = s.drawn := rfl

@[simp] theorem State.openSession_coeff (s : State) (k : SamplerKind) (n : BitVec 16) (j i : Nat) : (s.openSession k n).coeff j i = s.coeff j i := rfl
@[simp] theorem State.openSession_poly (s : State) (k : SamplerKind) (n : BitVec 16) (j : Slot) : (s.openSession k n).poly j = s.poly j := rfl
@[simp] theorem State.openSession_bufByte (s : State) (k : SamplerKind) (n : BitVec 16) (j : Nat) : (s.openSession k n).bufByte j = s.bufByte j := rfl
@[simp] theorem State.openSession_bufBytes (s : State) (k : SamplerKind) (n : BitVec 16) (j l : Nat) : (s.openSession k n).bufBytes j l = s.bufBytes j l := rfl
@[simp] theorem State.openSession_nonce (s : State) (k : SamplerKind) (n : BitVec 16) : (s.openSession k n).nonce = s.nonce := rfl
@[simp] theorem State.openSession_offset (s : State) (k : SamplerKind) (n : BitVec 16) : (s.openSession k n).offset = s.offset := rfl

/-! ### sendSqueeze -/

@[simp] theorem State.sendSqueeze_cfg (s : State) (n : Nat) : (s.sendSqueeze n).cfg = s.cfg := rfl
@[simp] theorem State.sendSqueeze_slots (s : State) (n : Nat) : (s.sendSqueeze n).slots = s.slots := rfl
@[simp] theorem State.sendSqueeze_buf (s : State) (n : Nat) : (s.sendSqueeze n).buf = s.buf := rfl
@[simp] theorem State.sendSqueeze_cmd (s : State) (n : Nat) : (s.sendSqueeze n).cmd = s.cmd := rfl
@[simp] theorem State.sendSqueeze_arg (s : State) (n : Nat) : (s.sendSqueeze n).arg = s.arg := rfl
@[simp] theorem State.sendSqueeze_busy (s : State) (n : Nat) : (s.sendSqueeze n).busy = s.busy := rfl
@[simp] theorem State.sendSqueeze_done (s : State) (n : Nat) : (s.sendSqueeze n).done = s.done := rfl
@[simp] theorem State.sendSqueeze_err (s : State) (n : Nat) : (s.sendSqueeze n).err = s.err := rfl
@[simp] theorem State.sendSqueeze_norm (s : State) (n : Nat) : (s.sendSqueeze n).norm = s.norm := rfl
@[simp] theorem State.sendSqueeze_errcode (s : State) (n : Nat) : (s.sendSqueeze n).errcode = s.errcode := rfl
@[simp] theorem State.sendSqueeze_ieDone (s : State) (n : Nat) : (s.sendSqueeze n).ieDone = s.ieDone := rfl
@[simp] theorem State.sendSqueeze_ieErr (s : State) (n : Nat) : (s.sendSqueeze n).ieErr = s.ieErr := rfl
@[simp] theorem State.sendSqueeze_errinfo (s : State) (n : Nat) : (s.sendSqueeze n).errinfo = s.errinfo := rfl
@[simp] theorem State.sendSqueeze_sampleBytes (s : State) (n : Nat) : (s.sendSqueeze n).sampleBytes = s.sampleBytes := rfl
@[simp] theorem State.sendSqueeze_sampleBlocks (s : State) (n : Nat) : (s.sendSqueeze n).sampleBlocks = s.sampleBlocks := rfl
@[simp] theorem State.sendSqueeze_lcmd (s : State) (n : Nat) : (s.sendSqueeze n).lcmd = s.lcmd := rfl
@[simp] theorem State.sendSqueeze_larg (s : State) (n : Nat) : (s.sendSqueeze n).larg = s.larg := rfl
@[simp] theorem State.sendSqueeze_phase (s : State) (n : Nat) : (s.sendSqueeze n).phase = s.phase := rfl
@[simp] theorem State.sendSqueeze_sampler (s : State) (n : Nat) : (s.sendSqueeze n).sampler = s.sampler := rfl
@[simp] theorem State.sendSqueeze_session (s : State) (n : Nat) : (s.sendSqueeze n).session = s.session := rfl
@[simp] theorem State.sendSqueeze_squeeze (s : State) (n : Nat) : (s.sendSqueeze n).squeeze = some n := rfl
@[simp] theorem State.sendSqueeze_abandoned (s : State) (n : Nat) : (s.sendSqueeze n).abandoned = s.abandoned := rfl
@[simp] theorem State.sendSqueeze_streams (s : State) (n : Nat) : (s.sendSqueeze n).streams = s.streams := rfl
@[simp] theorem State.sendSqueeze_agenda (s : State) (n : Nat) : (s.sendSqueeze n).agenda = s.agenda := rfl
@[simp] theorem State.sendSqueeze_response (s : State) (n : Nat) : (s.sendSqueeze n).response = s.response := rfl
@[simp] theorem State.sendSqueeze_portLog (s : State) (n : Nat) : (s.sendSqueeze n).portLog = s.portLog ++ [.squeeze n] := rfl
@[simp] theorem State.sendSqueeze_drawn (s : State) (n : Nat) : (s.sendSqueeze n).drawn = s.drawn := rfl

@[simp] theorem State.sendSqueeze_coeff (s : State) (n : Nat) (j i : Nat) : (s.sendSqueeze n).coeff j i = s.coeff j i := rfl
@[simp] theorem State.sendSqueeze_poly (s : State) (n : Nat) (j : Slot) : (s.sendSqueeze n).poly j = s.poly j := rfl
@[simp] theorem State.sendSqueeze_bufByte (s : State) (n : Nat) (j : Nat) : (s.sendSqueeze n).bufByte j = s.bufByte j := rfl
@[simp] theorem State.sendSqueeze_bufBytes (s : State) (n : Nat) (j l : Nat) : (s.sendSqueeze n).bufBytes j l = s.bufBytes j l := rfl
@[simp] theorem State.sendSqueeze_nonce (s : State) (n : Nat) : (s.sendSqueeze n).nonce = s.nonce := rfl
@[simp] theorem State.sendSqueeze_offset (s : State) (n : Nat) : (s.sendSqueeze n).offset = s.offset := rfl

/-! ### closeSession -/

@[simp] theorem State.closeSession_cfg (s : State) : s.closeSession.cfg = s.cfg := rfl
@[simp] theorem State.closeSession_slots (s : State) : s.closeSession.slots = s.slots := rfl
@[simp] theorem State.closeSession_buf (s : State) : s.closeSession.buf = s.buf := rfl
@[simp] theorem State.closeSession_cmd (s : State) : s.closeSession.cmd = s.cmd := rfl
@[simp] theorem State.closeSession_arg (s : State) : s.closeSession.arg = s.arg := rfl
@[simp] theorem State.closeSession_busy (s : State) : s.closeSession.busy = s.busy := rfl
@[simp] theorem State.closeSession_done (s : State) : s.closeSession.done = s.done := rfl
@[simp] theorem State.closeSession_err (s : State) : s.closeSession.err = s.err := rfl
@[simp] theorem State.closeSession_norm (s : State) : s.closeSession.norm = s.norm := rfl
@[simp] theorem State.closeSession_errcode (s : State) : s.closeSession.errcode = s.errcode := rfl
@[simp] theorem State.closeSession_ieDone (s : State) : s.closeSession.ieDone = s.ieDone := rfl
@[simp] theorem State.closeSession_ieErr (s : State) : s.closeSession.ieErr = s.ieErr := rfl
@[simp] theorem State.closeSession_errinfo (s : State) : s.closeSession.errinfo = s.errinfo := rfl
@[simp] theorem State.closeSession_sampleBytes (s : State) : s.closeSession.sampleBytes = s.sampleBytes := rfl
@[simp] theorem State.closeSession_sampleBlocks (s : State) : s.closeSession.sampleBlocks = s.sampleBlocks := rfl
@[simp] theorem State.closeSession_lcmd (s : State) : s.closeSession.lcmd = s.lcmd := rfl
@[simp] theorem State.closeSession_larg (s : State) : s.closeSession.larg = s.larg := rfl
@[simp] theorem State.closeSession_phase (s : State) : s.closeSession.phase = s.phase := rfl
@[simp] theorem State.closeSession_sampler (s : State) : s.closeSession.sampler = s.sampler := rfl
@[simp] theorem State.closeSession_session (s : State) : s.closeSession.session = none := rfl
@[simp] theorem State.closeSession_squeeze (s : State) : s.closeSession.squeeze = none := rfl
@[simp] theorem State.closeSession_abandoned (s : State) : s.closeSession.abandoned = s.abandoned + (if s.squeeze.isSome then 1 else 0) := rfl
@[simp] theorem State.closeSession_streams (s : State) : s.closeSession.streams = s.streams := rfl
@[simp] theorem State.closeSession_agenda (s : State) : s.closeSession.agenda = s.agenda := rfl
@[simp] theorem State.closeSession_response (s : State) : s.closeSession.response = s.response := rfl
@[simp] theorem State.closeSession_portLog (s : State) : s.closeSession.portLog = s.portLog ++ [.closed] := rfl
@[simp] theorem State.closeSession_drawn (s : State) : s.closeSession.drawn = s.drawn := rfl

@[simp] theorem State.closeSession_coeff (s : State) (j i : Nat) : s.closeSession.coeff j i = s.coeff j i := rfl
@[simp] theorem State.closeSession_poly (s : State) (j : Slot) : s.closeSession.poly j = s.poly j := rfl
@[simp] theorem State.closeSession_bufByte (s : State) (j : Nat) : s.closeSession.bufByte j = s.bufByte j := rfl
@[simp] theorem State.closeSession_bufBytes (s : State) (j l : Nat) : s.closeSession.bufBytes j l = s.bufBytes j l := rfl
@[simp] theorem State.closeSession_nonce (s : State) : s.closeSession.nonce = s.nonce := rfl
@[simp] theorem State.closeSession_offset (s : State) : s.closeSession.offset = s.offset := rfl

/-! ### writeEnables -/

@[simp] theorem State.writeEnables_cfg (s : State) (v : Word) : (s.writeEnables v).cfg = s.cfg := rfl
@[simp] theorem State.writeEnables_slots (s : State) (v : Word) : (s.writeEnables v).slots = s.slots := rfl
@[simp] theorem State.writeEnables_buf (s : State) (v : Word) : (s.writeEnables v).buf = s.buf := rfl
@[simp] theorem State.writeEnables_cmd (s : State) (v : Word) : (s.writeEnables v).cmd = s.cmd := rfl
@[simp] theorem State.writeEnables_arg (s : State) (v : Word) : (s.writeEnables v).arg = s.arg := rfl
@[simp] theorem State.writeEnables_busy (s : State) (v : Word) : (s.writeEnables v).busy = s.busy := rfl
@[simp] theorem State.writeEnables_done (s : State) (v : Word) : (s.writeEnables v).done = s.done := rfl
@[simp] theorem State.writeEnables_err (s : State) (v : Word) : (s.writeEnables v).err = s.err := rfl
@[simp] theorem State.writeEnables_norm (s : State) (v : Word) : (s.writeEnables v).norm = s.norm := rfl
@[simp] theorem State.writeEnables_errcode (s : State) (v : Word) : (s.writeEnables v).errcode = s.errcode := rfl
@[simp] theorem State.writeEnables_ieDone (s : State) (v : Word) : (s.writeEnables v).ieDone = v.getLsbD 1 := rfl
@[simp] theorem State.writeEnables_ieErr (s : State) (v : Word) : (s.writeEnables v).ieErr = v.getLsbD 2 := rfl
@[simp] theorem State.writeEnables_errinfo (s : State) (v : Word) : (s.writeEnables v).errinfo = s.errinfo := rfl
@[simp] theorem State.writeEnables_sampleBytes (s : State) (v : Word) : (s.writeEnables v).sampleBytes = s.sampleBytes := rfl
@[simp] theorem State.writeEnables_sampleBlocks (s : State) (v : Word) : (s.writeEnables v).sampleBlocks = s.sampleBlocks := rfl
@[simp] theorem State.writeEnables_lcmd (s : State) (v : Word) : (s.writeEnables v).lcmd = s.lcmd := rfl
@[simp] theorem State.writeEnables_larg (s : State) (v : Word) : (s.writeEnables v).larg = s.larg := rfl
@[simp] theorem State.writeEnables_phase (s : State) (v : Word) : (s.writeEnables v).phase = s.phase := rfl
@[simp] theorem State.writeEnables_sampler (s : State) (v : Word) : (s.writeEnables v).sampler = s.sampler := rfl
@[simp] theorem State.writeEnables_session (s : State) (v : Word) : (s.writeEnables v).session = s.session := rfl
@[simp] theorem State.writeEnables_squeeze (s : State) (v : Word) : (s.writeEnables v).squeeze = s.squeeze := rfl
@[simp] theorem State.writeEnables_abandoned (s : State) (v : Word) : (s.writeEnables v).abandoned = s.abandoned := rfl
@[simp] theorem State.writeEnables_streams (s : State) (v : Word) : (s.writeEnables v).streams = s.streams := rfl
@[simp] theorem State.writeEnables_agenda (s : State) (v : Word) : (s.writeEnables v).agenda = s.agenda := rfl
@[simp] theorem State.writeEnables_response (s : State) (v : Word) : (s.writeEnables v).response = s.response := rfl
@[simp] theorem State.writeEnables_portLog (s : State) (v : Word) : (s.writeEnables v).portLog = s.portLog := rfl
@[simp] theorem State.writeEnables_drawn (s : State) (v : Word) : (s.writeEnables v).drawn = s.drawn := rfl

@[simp] theorem State.writeEnables_coeff (s : State) (v : Word) (j i : Nat) : (s.writeEnables v).coeff j i = s.coeff j i := rfl
@[simp] theorem State.writeEnables_poly (s : State) (v : Word) (j : Slot) : (s.writeEnables v).poly j = s.poly j := rfl
@[simp] theorem State.writeEnables_bufByte (s : State) (v : Word) (j : Nat) : (s.writeEnables v).bufByte j = s.bufByte j := rfl
@[simp] theorem State.writeEnables_bufBytes (s : State) (v : Word) (j l : Nat) : (s.writeEnables v).bufBytes j l = s.bufBytes j l := rfl
@[simp] theorem State.writeEnables_nonce (s : State) (v : Word) : (s.writeEnables v).nonce = s.nonce := rfl
@[simp] theorem State.writeEnables_offset (s : State) (v : Word) : (s.writeEnables v).offset = s.offset := rfl

/-! ### accept -/

@[simp] theorem State.accept_cfg (s : State) (w : Word) : (s.accept w).cfg = s.cfg := rfl
@[simp] theorem State.accept_slots (s : State) (w : Word) : (s.accept w).slots = s.slots := rfl
@[simp] theorem State.accept_buf (s : State) (w : Word) : (s.accept w).buf = s.buf := rfl
@[simp] theorem State.accept_cmd (s : State) (w : Word) : (s.accept w).cmd = s.cmd := rfl
@[simp] theorem State.accept_arg (s : State) (w : Word) : (s.accept w).arg = s.arg := rfl
@[simp] theorem State.accept_busy (s : State) (w : Word) : (s.accept w).busy = true := rfl
@[simp] theorem State.accept_done (s : State) (w : Word) : (s.accept w).done = false := rfl
@[simp] theorem State.accept_err (s : State) (w : Word) : (s.accept w).err = s.err := rfl
@[simp] theorem State.accept_norm (s : State) (w : Word) : (s.accept w).norm = s.norm := rfl
@[simp] theorem State.accept_errcode (s : State) (w : Word) : (s.accept w).errcode = s.errcode := rfl
@[simp] theorem State.accept_ieDone (s : State) (w : Word) : (s.accept w).ieDone = s.ieDone := rfl
@[simp] theorem State.accept_ieErr (s : State) (w : Word) : (s.accept w).ieErr = s.ieErr := rfl
@[simp] theorem State.accept_errinfo (s : State) (w : Word) : (s.accept w).errinfo = s.errinfo := rfl
@[simp] theorem State.accept_sampleBytes (s : State) (w : Word) : (s.accept w).sampleBytes = s.sampleBytes := rfl
@[simp] theorem State.accept_sampleBlocks (s : State) (w : Word) : (s.accept w).sampleBlocks = s.sampleBlocks := rfl
@[simp] theorem State.accept_lcmd (s : State) (w : Word) : (s.accept w).lcmd = w := rfl
@[simp] theorem State.accept_larg (s : State) (w : Word) : (s.accept w).larg = s.arg := rfl
@[simp] theorem State.accept_phase (s : State) (w : Word) : (s.accept w).phase = .running := rfl
@[simp] theorem State.accept_sampler (s : State) (w : Word) : (s.accept w).sampler = freshSampler w := rfl
@[simp] theorem State.accept_session (s : State) (w : Word) : (s.accept w).session = s.session := rfl
@[simp] theorem State.accept_squeeze (s : State) (w : Word) : (s.accept w).squeeze = s.squeeze := rfl
@[simp] theorem State.accept_abandoned (s : State) (w : Word) : (s.accept w).abandoned = s.abandoned := rfl
@[simp] theorem State.accept_streams (s : State) (w : Word) : (s.accept w).streams = s.streams := rfl
@[simp] theorem State.accept_agenda (s : State) (w : Word) : (s.accept w).agenda = s.agenda := rfl
@[simp] theorem State.accept_response (s : State) (w : Word) : (s.accept w).response = s.response := rfl
@[simp] theorem State.accept_portLog (s : State) (w : Word) : (s.accept w).portLog = s.portLog := rfl
@[simp] theorem State.accept_drawn (s : State) (w : Word) : (s.accept w).drawn = s.drawn := rfl

@[simp] theorem State.accept_coeff (s : State) (w : Word) (j i : Nat) : (s.accept w).coeff j i = s.coeff j i := rfl
@[simp] theorem State.accept_poly (s : State) (w : Word) (j : Slot) : (s.accept w).poly j = s.poly j := rfl
@[simp] theorem State.accept_bufByte (s : State) (w : Word) (j : Nat) : (s.accept w).bufByte j = s.bufByte j := rfl
@[simp] theorem State.accept_bufBytes (s : State) (w : Word) (j l : Nat) : (s.accept w).bufBytes j l = s.bufBytes j l := rfl

/-! ### complete -/

@[simp] theorem State.complete_cfg (s : State) : s.complete.cfg = s.cfg := rfl
@[simp] theorem State.complete_slots (s : State) : s.complete.slots = s.slots := rfl
@[simp] theorem State.complete_buf (s : State) : s.complete.buf = s.buf := rfl
@[simp] theorem State.complete_cmd (s : State) : s.complete.cmd = s.cmd := rfl
@[simp] theorem State.complete_arg (s : State) : s.complete.arg = s.arg := rfl
@[simp] theorem State.complete_busy (s : State) : s.complete.busy = false := rfl
@[simp] theorem State.complete_done (s : State) : s.complete.done = true := rfl
@[simp] theorem State.complete_err (s : State) : s.complete.err = s.err := rfl
@[simp] theorem State.complete_norm (s : State) : s.complete.norm = s.norm := rfl
@[simp] theorem State.complete_errcode (s : State) : s.complete.errcode = s.errcode := rfl
@[simp] theorem State.complete_ieDone (s : State) : s.complete.ieDone = s.ieDone := rfl
@[simp] theorem State.complete_ieErr (s : State) : s.complete.ieErr = s.ieErr := rfl
@[simp] theorem State.complete_errinfo (s : State) : s.complete.errinfo = s.errinfo := rfl
@[simp] theorem State.complete_sampleBytes (s : State) : s.complete.sampleBytes = s.sampleBytes := rfl
@[simp] theorem State.complete_sampleBlocks (s : State) : s.complete.sampleBlocks = s.sampleBlocks := rfl
@[simp] theorem State.complete_lcmd (s : State) : s.complete.lcmd = s.lcmd := rfl
@[simp] theorem State.complete_larg (s : State) : s.complete.larg = s.larg := rfl
@[simp] theorem State.complete_phase (s : State) : s.complete.phase = .idle := rfl
@[simp] theorem State.complete_sampler (s : State) : s.complete.sampler = s.sampler := rfl
@[simp] theorem State.complete_session (s : State) : s.complete.session = s.session := rfl
@[simp] theorem State.complete_squeeze (s : State) : s.complete.squeeze = s.squeeze := rfl
@[simp] theorem State.complete_abandoned (s : State) : s.complete.abandoned = s.abandoned := rfl
@[simp] theorem State.complete_streams (s : State) : s.complete.streams = s.streams := rfl
@[simp] theorem State.complete_agenda (s : State) : s.complete.agenda = s.agenda := rfl
@[simp] theorem State.complete_response (s : State) : s.complete.response = s.response := rfl
@[simp] theorem State.complete_portLog (s : State) : s.complete.portLog = s.portLog := rfl
@[simp] theorem State.complete_drawn (s : State) : s.complete.drawn = s.drawn := rfl

@[simp] theorem State.complete_coeff (s : State) (j i : Nat) : s.complete.coeff j i = s.coeff j i := rfl
@[simp] theorem State.complete_poly (s : State) (j : Slot) : s.complete.poly j = s.poly j := rfl
@[simp] theorem State.complete_bufByte (s : State) (j : Nat) : s.complete.bufByte j = s.bufByte j := rfl
@[simp] theorem State.complete_bufBytes (s : State) (j l : Nat) : s.complete.bufBytes j l = s.bufBytes j l := rfl
@[simp] theorem State.complete_nonce (s : State) : s.complete.nonce = s.nonce := rfl
@[simp] theorem State.complete_offset (s : State) : s.complete.offset = s.offset := rfl

/-! ### setNorm -/

@[simp] theorem State.setNorm_cfg (s : State) (v : Bool) : (s.setNorm v).cfg = s.cfg := rfl
@[simp] theorem State.setNorm_slots (s : State) (v : Bool) : (s.setNorm v).slots = s.slots := rfl
@[simp] theorem State.setNorm_buf (s : State) (v : Bool) : (s.setNorm v).buf = s.buf := rfl
@[simp] theorem State.setNorm_cmd (s : State) (v : Bool) : (s.setNorm v).cmd = s.cmd := rfl
@[simp] theorem State.setNorm_arg (s : State) (v : Bool) : (s.setNorm v).arg = s.arg := rfl
@[simp] theorem State.setNorm_busy (s : State) (v : Bool) : (s.setNorm v).busy = s.busy := rfl
@[simp] theorem State.setNorm_done (s : State) (v : Bool) : (s.setNorm v).done = s.done := rfl
@[simp] theorem State.setNorm_err (s : State) (v : Bool) : (s.setNorm v).err = s.err := rfl
@[simp] theorem State.setNorm_norm (s : State) (v : Bool) : (s.setNorm v).norm = v := rfl
@[simp] theorem State.setNorm_errcode (s : State) (v : Bool) : (s.setNorm v).errcode = s.errcode := rfl
@[simp] theorem State.setNorm_ieDone (s : State) (v : Bool) : (s.setNorm v).ieDone = s.ieDone := rfl
@[simp] theorem State.setNorm_ieErr (s : State) (v : Bool) : (s.setNorm v).ieErr = s.ieErr := rfl
@[simp] theorem State.setNorm_errinfo (s : State) (v : Bool) : (s.setNorm v).errinfo = s.errinfo := rfl
@[simp] theorem State.setNorm_sampleBytes (s : State) (v : Bool) : (s.setNorm v).sampleBytes = s.sampleBytes := rfl
@[simp] theorem State.setNorm_sampleBlocks (s : State) (v : Bool) : (s.setNorm v).sampleBlocks = s.sampleBlocks := rfl
@[simp] theorem State.setNorm_lcmd (s : State) (v : Bool) : (s.setNorm v).lcmd = s.lcmd := rfl
@[simp] theorem State.setNorm_larg (s : State) (v : Bool) : (s.setNorm v).larg = s.larg := rfl
@[simp] theorem State.setNorm_phase (s : State) (v : Bool) : (s.setNorm v).phase = s.phase := rfl
@[simp] theorem State.setNorm_sampler (s : State) (v : Bool) : (s.setNorm v).sampler = s.sampler := rfl
@[simp] theorem State.setNorm_session (s : State) (v : Bool) : (s.setNorm v).session = s.session := rfl
@[simp] theorem State.setNorm_squeeze (s : State) (v : Bool) : (s.setNorm v).squeeze = s.squeeze := rfl
@[simp] theorem State.setNorm_abandoned (s : State) (v : Bool) : (s.setNorm v).abandoned = s.abandoned := rfl
@[simp] theorem State.setNorm_streams (s : State) (v : Bool) : (s.setNorm v).streams = s.streams := rfl
@[simp] theorem State.setNorm_agenda (s : State) (v : Bool) : (s.setNorm v).agenda = s.agenda := rfl
@[simp] theorem State.setNorm_response (s : State) (v : Bool) : (s.setNorm v).response = s.response := rfl
@[simp] theorem State.setNorm_portLog (s : State) (v : Bool) : (s.setNorm v).portLog = s.portLog := rfl
@[simp] theorem State.setNorm_drawn (s : State) (v : Bool) : (s.setNorm v).drawn = s.drawn := rfl

@[simp] theorem State.setNorm_coeff (s : State) (v : Bool) (j i : Nat) : (s.setNorm v).coeff j i = s.coeff j i := rfl
@[simp] theorem State.setNorm_poly (s : State) (v : Bool) (j : Slot) : (s.setNorm v).poly j = s.poly j := rfl
@[simp] theorem State.setNorm_bufByte (s : State) (v : Bool) (j : Nat) : (s.setNorm v).bufByte j = s.bufByte j := rfl
@[simp] theorem State.setNorm_bufBytes (s : State) (v : Bool) (j l : Nat) : (s.setNorm v).bufBytes j l = s.bufBytes j l := rfl
@[simp] theorem State.setNorm_nonce (s : State) (v : Bool) : (s.setNorm v).nonce = s.nonce := rfl
@[simp] theorem State.setNorm_offset (s : State) (v : Bool) : (s.setNorm v).offset = s.offset := rfl

/-! ### setCounts -/

@[simp] theorem State.setCounts_cfg (s : State) (c : SamplerKind) (b n : Nat) : (s.setCounts c b n).cfg = s.cfg := rfl
@[simp] theorem State.setCounts_slots (s : State) (c : SamplerKind) (b n : Nat) : (s.setCounts c b n).slots = s.slots := rfl
@[simp] theorem State.setCounts_buf (s : State) (c : SamplerKind) (b n : Nat) : (s.setCounts c b n).buf = s.buf := rfl
@[simp] theorem State.setCounts_cmd (s : State) (c : SamplerKind) (b n : Nat) : (s.setCounts c b n).cmd = s.cmd := rfl
@[simp] theorem State.setCounts_arg (s : State) (c : SamplerKind) (b n : Nat) : (s.setCounts c b n).arg = s.arg := rfl
@[simp] theorem State.setCounts_busy (s : State) (c : SamplerKind) (b n : Nat) : (s.setCounts c b n).busy = s.busy := rfl
@[simp] theorem State.setCounts_done (s : State) (c : SamplerKind) (b n : Nat) : (s.setCounts c b n).done = s.done := rfl
@[simp] theorem State.setCounts_err (s : State) (c : SamplerKind) (b n : Nat) : (s.setCounts c b n).err = s.err := rfl
@[simp] theorem State.setCounts_norm (s : State) (c : SamplerKind) (b n : Nat) : (s.setCounts c b n).norm = s.norm := rfl
@[simp] theorem State.setCounts_errcode (s : State) (c : SamplerKind) (b n : Nat) : (s.setCounts c b n).errcode = s.errcode := rfl
@[simp] theorem State.setCounts_ieDone (s : State) (c : SamplerKind) (b n : Nat) : (s.setCounts c b n).ieDone = s.ieDone := rfl
@[simp] theorem State.setCounts_ieErr (s : State) (c : SamplerKind) (b n : Nat) : (s.setCounts c b n).ieErr = s.ieErr := rfl
@[simp] theorem State.setCounts_errinfo (s : State) (c : SamplerKind) (b n : Nat) : (s.setCounts c b n).errinfo = s.errinfo := rfl
@[simp] theorem State.setCounts_sampleBytes (s : State) (c : SamplerKind) (b n : Nat) : (s.setCounts c b n).sampleBytes = countWord (Config.freeBytesCount c s.nonce) b := rfl
@[simp] theorem State.setCounts_sampleBlocks (s : State) (c : SamplerKind) (b n : Nat) : (s.setCounts c b n).sampleBlocks = countWord (Config.freeBlocksCount c s.nonce) n := rfl
@[simp] theorem State.setCounts_lcmd (s : State) (c : SamplerKind) (b n : Nat) : (s.setCounts c b n).lcmd = s.lcmd := rfl
@[simp] theorem State.setCounts_larg (s : State) (c : SamplerKind) (b n : Nat) : (s.setCounts c b n).larg = s.larg := rfl
@[simp] theorem State.setCounts_phase (s : State) (c : SamplerKind) (b n : Nat) : (s.setCounts c b n).phase = s.phase := rfl
@[simp] theorem State.setCounts_sampler (s : State) (c : SamplerKind) (b n : Nat) : (s.setCounts c b n).sampler = s.sampler := rfl
@[simp] theorem State.setCounts_session (s : State) (c : SamplerKind) (b n : Nat) : (s.setCounts c b n).session = s.session := rfl
@[simp] theorem State.setCounts_squeeze (s : State) (c : SamplerKind) (b n : Nat) : (s.setCounts c b n).squeeze = s.squeeze := rfl
@[simp] theorem State.setCounts_abandoned (s : State) (c : SamplerKind) (b n : Nat) : (s.setCounts c b n).abandoned = s.abandoned := rfl
@[simp] theorem State.setCounts_streams (s : State) (c : SamplerKind) (b n : Nat) : (s.setCounts c b n).streams = s.streams := rfl
@[simp] theorem State.setCounts_agenda (s : State) (c : SamplerKind) (b n : Nat) : (s.setCounts c b n).agenda = s.agenda := rfl
@[simp] theorem State.setCounts_response (s : State) (c : SamplerKind) (b n : Nat) : (s.setCounts c b n).response = s.response := rfl
@[simp] theorem State.setCounts_portLog (s : State) (c : SamplerKind) (b n : Nat) : (s.setCounts c b n).portLog = s.portLog := rfl
@[simp] theorem State.setCounts_drawn (s : State) (c : SamplerKind) (b n : Nat) : (s.setCounts c b n).drawn = s.drawn := rfl

@[simp] theorem State.setCounts_coeff (s : State) (c : SamplerKind) (b n : Nat) (j i : Nat) : (s.setCounts c b n).coeff j i = s.coeff j i := rfl
@[simp] theorem State.setCounts_poly (s : State) (c : SamplerKind) (b n : Nat) (j : Slot) : (s.setCounts c b n).poly j = s.poly j := rfl
@[simp] theorem State.setCounts_bufByte (s : State) (c : SamplerKind) (b n : Nat) (j : Nat) : (s.setCounts c b n).bufByte j = s.bufByte j := rfl
@[simp] theorem State.setCounts_bufBytes (s : State) (c : SamplerKind) (b n : Nat) (j l : Nat) : (s.setCounts c b n).bufBytes j l = s.bufBytes j l := rfl
@[simp] theorem State.setCounts_nonce (s : State) (c : SamplerKind) (b n : Nat) : (s.setCounts c b n).nonce = s.nonce := rfl
@[simp] theorem State.setCounts_offset (s : State) (c : SamplerKind) (b n : Nat) : (s.setCounts c b n).offset = s.offset := rfl

/-! ### setSampler -/

@[simp] theorem State.setSampler_cfg (s : State) (m : Option Sampler) : (s.setSampler m).cfg = s.cfg := rfl
@[simp] theorem State.setSampler_slots (s : State) (m : Option Sampler) : (s.setSampler m).slots = s.slots := rfl
@[simp] theorem State.setSampler_buf (s : State) (m : Option Sampler) : (s.setSampler m).buf = s.buf := rfl
@[simp] theorem State.setSampler_cmd (s : State) (m : Option Sampler) : (s.setSampler m).cmd = s.cmd := rfl
@[simp] theorem State.setSampler_arg (s : State) (m : Option Sampler) : (s.setSampler m).arg = s.arg := rfl
@[simp] theorem State.setSampler_busy (s : State) (m : Option Sampler) : (s.setSampler m).busy = s.busy := rfl
@[simp] theorem State.setSampler_done (s : State) (m : Option Sampler) : (s.setSampler m).done = s.done := rfl
@[simp] theorem State.setSampler_err (s : State) (m : Option Sampler) : (s.setSampler m).err = s.err := rfl
@[simp] theorem State.setSampler_norm (s : State) (m : Option Sampler) : (s.setSampler m).norm = s.norm := rfl
@[simp] theorem State.setSampler_errcode (s : State) (m : Option Sampler) : (s.setSampler m).errcode = s.errcode := rfl
@[simp] theorem State.setSampler_ieDone (s : State) (m : Option Sampler) : (s.setSampler m).ieDone = s.ieDone := rfl
@[simp] theorem State.setSampler_ieErr (s : State) (m : Option Sampler) : (s.setSampler m).ieErr = s.ieErr := rfl
@[simp] theorem State.setSampler_errinfo (s : State) (m : Option Sampler) : (s.setSampler m).errinfo = s.errinfo := rfl
@[simp] theorem State.setSampler_sampleBytes (s : State) (m : Option Sampler) : (s.setSampler m).sampleBytes = s.sampleBytes := rfl
@[simp] theorem State.setSampler_sampleBlocks (s : State) (m : Option Sampler) : (s.setSampler m).sampleBlocks = s.sampleBlocks := rfl
@[simp] theorem State.setSampler_lcmd (s : State) (m : Option Sampler) : (s.setSampler m).lcmd = s.lcmd := rfl
@[simp] theorem State.setSampler_larg (s : State) (m : Option Sampler) : (s.setSampler m).larg = s.larg := rfl
@[simp] theorem State.setSampler_phase (s : State) (m : Option Sampler) : (s.setSampler m).phase = s.phase := rfl
@[simp] theorem State.setSampler_sampler (s : State) (m : Option Sampler) : (s.setSampler m).sampler = m := rfl
@[simp] theorem State.setSampler_session (s : State) (m : Option Sampler) : (s.setSampler m).session = s.session := rfl
@[simp] theorem State.setSampler_squeeze (s : State) (m : Option Sampler) : (s.setSampler m).squeeze = s.squeeze := rfl
@[simp] theorem State.setSampler_abandoned (s : State) (m : Option Sampler) : (s.setSampler m).abandoned = s.abandoned := rfl
@[simp] theorem State.setSampler_streams (s : State) (m : Option Sampler) : (s.setSampler m).streams = s.streams := rfl
@[simp] theorem State.setSampler_agenda (s : State) (m : Option Sampler) : (s.setSampler m).agenda = s.agenda := rfl
@[simp] theorem State.setSampler_response (s : State) (m : Option Sampler) : (s.setSampler m).response = s.response := rfl
@[simp] theorem State.setSampler_portLog (s : State) (m : Option Sampler) : (s.setSampler m).portLog = s.portLog := rfl
@[simp] theorem State.setSampler_drawn (s : State) (m : Option Sampler) : (s.setSampler m).drawn = s.drawn := rfl

@[simp] theorem State.setSampler_coeff (s : State) (m : Option Sampler) (j i : Nat) : (s.setSampler m).coeff j i = s.coeff j i := rfl
@[simp] theorem State.setSampler_poly (s : State) (m : Option Sampler) (j : Slot) : (s.setSampler m).poly j = s.poly j := rfl
@[simp] theorem State.setSampler_bufByte (s : State) (m : Option Sampler) (j : Nat) : (s.setSampler m).bufByte j = s.bufByte j := rfl
@[simp] theorem State.setSampler_bufBytes (s : State) (m : Option Sampler) (j l : Nat) : (s.setSampler m).bufBytes j l = s.bufBytes j l := rfl
@[simp] theorem State.setSampler_nonce (s : State) (m : Option Sampler) : (s.setSampler m).nonce = s.nonce := rfl
@[simp] theorem State.setSampler_offset (s : State) (m : Option Sampler) : (s.setSampler m).offset = s.offset := rfl

/-! ### clearRegisters -/

@[simp] theorem State.clearRegisters_cfg (s : State) : s.clearRegisters.cfg = s.cfg := rfl
@[simp] theorem State.clearRegisters_slots (s : State) : s.clearRegisters.slots = s.slots := rfl
@[simp] theorem State.clearRegisters_buf (s : State) : s.clearRegisters.buf = s.buf := rfl
@[simp] theorem State.clearRegisters_cmd (s : State) : s.clearRegisters.cmd = 0#32 := rfl
@[simp] theorem State.clearRegisters_arg (s : State) : s.clearRegisters.arg = 0#32 := rfl
@[simp] theorem State.clearRegisters_busy (s : State) : s.clearRegisters.busy = false := rfl
@[simp] theorem State.clearRegisters_done (s : State) : s.clearRegisters.done = false := rfl
@[simp] theorem State.clearRegisters_err (s : State) : s.clearRegisters.err = false := rfl
@[simp] theorem State.clearRegisters_norm (s : State) : s.clearRegisters.norm = false := rfl
@[simp] theorem State.clearRegisters_errcode (s : State) : s.clearRegisters.errcode = .noError := rfl
@[simp] theorem State.clearRegisters_ieDone (s : State) : s.clearRegisters.ieDone = false := rfl
@[simp] theorem State.clearRegisters_ieErr (s : State) : s.clearRegisters.ieErr = false := rfl
@[simp] theorem State.clearRegisters_errinfo (s : State) : s.clearRegisters.errinfo = 0#32 := rfl
@[simp] theorem State.clearRegisters_sampleBytes (s : State) : s.clearRegisters.sampleBytes = 0#32 := rfl
@[simp] theorem State.clearRegisters_sampleBlocks (s : State) : s.clearRegisters.sampleBlocks = 0#32 := rfl
@[simp] theorem State.clearRegisters_lcmd (s : State) : s.clearRegisters.lcmd = 0#32 := rfl
@[simp] theorem State.clearRegisters_larg (s : State) : s.clearRegisters.larg = 0#32 := rfl
@[simp] theorem State.clearRegisters_phase (s : State) : s.clearRegisters.phase = .idle := rfl
@[simp] theorem State.clearRegisters_sampler (s : State) : s.clearRegisters.sampler = none := rfl
@[simp] theorem State.clearRegisters_session (s : State) : s.clearRegisters.session = s.session := rfl
@[simp] theorem State.clearRegisters_squeeze (s : State) : s.clearRegisters.squeeze = s.squeeze := rfl
@[simp] theorem State.clearRegisters_abandoned (s : State) : s.clearRegisters.abandoned = s.abandoned := rfl
@[simp] theorem State.clearRegisters_streams (s : State) : s.clearRegisters.streams = s.streams := rfl
@[simp] theorem State.clearRegisters_agenda (s : State) : s.clearRegisters.agenda = s.agenda := rfl
@[simp] theorem State.clearRegisters_response (s : State) : s.clearRegisters.response = s.response := rfl
@[simp] theorem State.clearRegisters_portLog (s : State) : s.clearRegisters.portLog = s.portLog := rfl
@[simp] theorem State.clearRegisters_drawn (s : State) : s.clearRegisters.drawn = s.drawn := rfl

@[simp] theorem State.clearRegisters_coeff (s : State) (j i : Nat) : s.clearRegisters.coeff j i = s.coeff j i := rfl
@[simp] theorem State.clearRegisters_poly (s : State) (j : Slot) : s.clearRegisters.poly j = s.poly j := rfl
@[simp] theorem State.clearRegisters_bufByte (s : State) (j : Nat) : s.clearRegisters.bufByte j = s.bufByte j := rfl
@[simp] theorem State.clearRegisters_bufBytes (s : State) (j l : Nat) : s.clearRegisters.bufBytes j l = s.bufBytes j l := rfl

/-! ### setArg -/

@[simp] theorem State.setArg_cfg (s : State) (v : Word) : (s.setArg v).cfg = s.cfg := rfl
@[simp] theorem State.setArg_slots (s : State) (v : Word) : (s.setArg v).slots = s.slots := rfl
@[simp] theorem State.setArg_buf (s : State) (v : Word) : (s.setArg v).buf = s.buf := rfl
@[simp] theorem State.setArg_cmd (s : State) (v : Word) : (s.setArg v).cmd = s.cmd := rfl
@[simp] theorem State.setArg_arg (s : State) (v : Word) : (s.setArg v).arg = v := rfl
@[simp] theorem State.setArg_busy (s : State) (v : Word) : (s.setArg v).busy = s.busy := rfl
@[simp] theorem State.setArg_done (s : State) (v : Word) : (s.setArg v).done = s.done := rfl
@[simp] theorem State.setArg_err (s : State) (v : Word) : (s.setArg v).err = s.err := rfl
@[simp] theorem State.setArg_norm (s : State) (v : Word) : (s.setArg v).norm = s.norm := rfl
@[simp] theorem State.setArg_errcode (s : State) (v : Word) : (s.setArg v).errcode = s.errcode := rfl
@[simp] theorem State.setArg_ieDone (s : State) (v : Word) : (s.setArg v).ieDone = s.ieDone := rfl
@[simp] theorem State.setArg_ieErr (s : State) (v : Word) : (s.setArg v).ieErr = s.ieErr := rfl
@[simp] theorem State.setArg_errinfo (s : State) (v : Word) : (s.setArg v).errinfo = s.errinfo := rfl
@[simp] theorem State.setArg_sampleBytes (s : State) (v : Word) : (s.setArg v).sampleBytes = s.sampleBytes := rfl
@[simp] theorem State.setArg_sampleBlocks (s : State) (v : Word) : (s.setArg v).sampleBlocks = s.sampleBlocks := rfl
@[simp] theorem State.setArg_lcmd (s : State) (v : Word) : (s.setArg v).lcmd = s.lcmd := rfl
@[simp] theorem State.setArg_larg (s : State) (v : Word) : (s.setArg v).larg = s.larg := rfl
@[simp] theorem State.setArg_phase (s : State) (v : Word) : (s.setArg v).phase = s.phase := rfl
@[simp] theorem State.setArg_sampler (s : State) (v : Word) : (s.setArg v).sampler = s.sampler := rfl
@[simp] theorem State.setArg_session (s : State) (v : Word) : (s.setArg v).session = s.session := rfl
@[simp] theorem State.setArg_squeeze (s : State) (v : Word) : (s.setArg v).squeeze = s.squeeze := rfl
@[simp] theorem State.setArg_abandoned (s : State) (v : Word) : (s.setArg v).abandoned = s.abandoned := rfl
@[simp] theorem State.setArg_streams (s : State) (v : Word) : (s.setArg v).streams = s.streams := rfl
@[simp] theorem State.setArg_agenda (s : State) (v : Word) : (s.setArg v).agenda = s.agenda := rfl
@[simp] theorem State.setArg_response (s : State) (v : Word) : (s.setArg v).response = s.response := rfl
@[simp] theorem State.setArg_portLog (s : State) (v : Word) : (s.setArg v).portLog = s.portLog := rfl
@[simp] theorem State.setArg_drawn (s : State) (v : Word) : (s.setArg v).drawn = s.drawn := rfl

@[simp] theorem State.setArg_coeff (s : State) (v : Word) (j i : Nat) : (s.setArg v).coeff j i = s.coeff j i := rfl
@[simp] theorem State.setArg_poly (s : State) (v : Word) (j : Slot) : (s.setArg v).poly j = s.poly j := rfl
@[simp] theorem State.setArg_bufByte (s : State) (v : Word) (j : Nat) : (s.setArg v).bufByte j = s.bufByte j := rfl
@[simp] theorem State.setArg_bufBytes (s : State) (v : Word) (j l : Nat) : (s.setArg v).bufBytes j l = s.bufBytes j l := rfl
@[simp] theorem State.setArg_nonce (s : State) (v : Word) : (s.setArg v).nonce = s.nonce := rfl
@[simp] theorem State.setArg_offset (s : State) (v : Word) : (s.setArg v).offset = s.offset := rfl

/-! ### respond -/

@[simp] theorem State.respond_cfg (s : State) (r : Option Word) : (s.respond r).cfg = s.cfg := rfl
@[simp] theorem State.respond_slots (s : State) (r : Option Word) : (s.respond r).slots = s.slots := rfl
@[simp] theorem State.respond_buf (s : State) (r : Option Word) : (s.respond r).buf = s.buf := rfl
@[simp] theorem State.respond_cmd (s : State) (r : Option Word) : (s.respond r).cmd = s.cmd := rfl
@[simp] theorem State.respond_arg (s : State) (r : Option Word) : (s.respond r).arg = s.arg := rfl
@[simp] theorem State.respond_busy (s : State) (r : Option Word) : (s.respond r).busy = s.busy := rfl
@[simp] theorem State.respond_done (s : State) (r : Option Word) : (s.respond r).done = s.done := rfl
@[simp] theorem State.respond_err (s : State) (r : Option Word) : (s.respond r).err = s.err := rfl
@[simp] theorem State.respond_norm (s : State) (r : Option Word) : (s.respond r).norm = s.norm := rfl
@[simp] theorem State.respond_errcode (s : State) (r : Option Word) : (s.respond r).errcode = s.errcode := rfl
@[simp] theorem State.respond_ieDone (s : State) (r : Option Word) : (s.respond r).ieDone = s.ieDone := rfl
@[simp] theorem State.respond_ieErr (s : State) (r : Option Word) : (s.respond r).ieErr = s.ieErr := rfl
@[simp] theorem State.respond_errinfo (s : State) (r : Option Word) : (s.respond r).errinfo = s.errinfo := rfl
@[simp] theorem State.respond_sampleBytes (s : State) (r : Option Word) : (s.respond r).sampleBytes = s.sampleBytes := rfl
@[simp] theorem State.respond_sampleBlocks (s : State) (r : Option Word) : (s.respond r).sampleBlocks = s.sampleBlocks := rfl
@[simp] theorem State.respond_lcmd (s : State) (r : Option Word) : (s.respond r).lcmd = s.lcmd := rfl
@[simp] theorem State.respond_larg (s : State) (r : Option Word) : (s.respond r).larg = s.larg := rfl
@[simp] theorem State.respond_phase (s : State) (r : Option Word) : (s.respond r).phase = s.phase := rfl
@[simp] theorem State.respond_sampler (s : State) (r : Option Word) : (s.respond r).sampler = s.sampler := rfl
@[simp] theorem State.respond_session (s : State) (r : Option Word) : (s.respond r).session = s.session := rfl
@[simp] theorem State.respond_squeeze (s : State) (r : Option Word) : (s.respond r).squeeze = s.squeeze := rfl
@[simp] theorem State.respond_abandoned (s : State) (r : Option Word) : (s.respond r).abandoned = s.abandoned := rfl
@[simp] theorem State.respond_streams (s : State) (r : Option Word) : (s.respond r).streams = s.streams := rfl
@[simp] theorem State.respond_agenda (s : State) (r : Option Word) : (s.respond r).agenda = s.agenda := rfl
@[simp] theorem State.respond_response (s : State) (r : Option Word) : (s.respond r).response = r := rfl
@[simp] theorem State.respond_portLog (s : State) (r : Option Word) : (s.respond r).portLog = s.portLog := rfl
@[simp] theorem State.respond_drawn (s : State) (r : Option Word) : (s.respond r).drawn = s.drawn := rfl

@[simp] theorem State.respond_coeff (s : State) (r : Option Word) (j i : Nat) : (s.respond r).coeff j i = s.coeff j i := rfl
@[simp] theorem State.respond_poly (s : State) (r : Option Word) (j : Slot) : (s.respond r).poly j = s.poly j := rfl
@[simp] theorem State.respond_bufByte (s : State) (r : Option Word) (j : Nat) : (s.respond r).bufByte j = s.bufByte j := rfl
@[simp] theorem State.respond_bufBytes (s : State) (r : Option Word) (j l : Nat) : (s.respond r).bufBytes j l = s.bufBytes j l := rfl
@[simp] theorem State.respond_nonce (s : State) (r : Option Word) : (s.respond r).nonce = s.nonce := rfl
@[simp] theorem State.respond_offset (s : State) (r : Option Word) : (s.respond r).offset = s.offset := rfl

end Sys2Proof.Machine
end

