-- ==== Sys2Proof/Laws/Ops.lean ====
section
/-! SUPPORT. What the shared operations over storage give: reading a slot or bytes after a write, when a source can be read, and
how many values each transformation of a slot or of bytes yields. -/

namespace Sys2Proof.Machine

/-! ### Words -/

theorem w32_natCast (n : Nat) : w32 (n : Int) = n % 2 ^ 32 := by
  rw [w32, show (4294967296 : Int) = ((4294967296 : Nat) : Int) from rfl, ← Int.natCast_mod, Int.toNat_natCast]
  rfl

theorem w64_natCast (n : Nat) : w64 (n : Int) = n % 2 ^ 64 := by
  rw [w64, show (18446744073709551616 : Int) = ((18446744073709551616 : Nat) : Int) from rfl, ← Int.natCast_mod,
    Int.toNat_natCast]
  rfl

/-- Montgomery reduction on natural numbers (R130). -/
theorem montred_eq (a : Nat) : montred a = (a + a % 2 ^ 32 * qinv % 2 ^ 32 * q) % 2 ^ 64 / 2 ^ 32 := by
  rw [montred, w32_natCast, ← Int.natCast_mul _ qinv, w32_natCast, ← Int.natCast_mul _ q, ← Int.natCast_add, w64_natCast]

/-! ### Slots -/

theorem State.poly_eq_some_iff (s : State) (k : Slot) (p : List Nat) :
    s.poly k = some p ↔ p.length = 256 ∧ ∀ i (h : i < p.length), (s.coeff k i).map BitVec.toNat = some p[i] := by
  simp only [State.poly, Option.map_eq_some_iff, Memory.readRange_eq_some, State.coeff, slotKey, Nat.add_zero]
  constructor
  · rintro ⟨ws, ⟨hl, hr⟩, rfl⟩
    refine ⟨by simpa using hl, fun i h => ?_⟩
    have hi : i < ws.length := by simpa using h
    exact ⟨ws[i], hr i hi, by simp⟩
  · rintro ⟨hl, hr⟩
    refine ⟨p.map (BitVec.ofNat 32), ⟨by simpa using hl, ?_⟩, ?_⟩
    · intro i h
      have hi : i < p.length := by simpa using h
      obtain ⟨w, hw, hv⟩ := hr i hi
      rw [hw]
      simp [← hv]
    · apply List.ext_getElem (by simp)
      intro i h1 h2
      obtain ⟨w, hw, hv⟩ := hr i h2
      simp [← hv]

/-- A slot is a source exactly when every coefficient has been written. -/
theorem State.poly_isSome_iff (s : State) (k : Slot) : (s.poly k).isSome = true ↔ s.Readable k := by
  simp only [State.poly, Option.isSome_map, State.Readable, State.coeff, slotKey, Nat.add_zero]
  exact Memory.readRange_isSome s.slots (256 * k.val) 256

/-- What a source slot holds. -/
theorem State.poly_of_readable (s : State) (k : Slot) (h : s.Readable k) :
    ∃ p, s.poly k = some p ∧ p.length = 256 ∧ ∀ i (hi : i < p.length), p[i] = s.val k i := by
  obtain ⟨p, hp⟩ := Option.isSome_iff_exists.mp ((s.poly_isSome_iff k).mpr h)
  obtain ⟨hl, hr⟩ := (s.poly_eq_some_iff k p).mp hp
  refine ⟨p, hp, hl, fun i hi => ?_⟩
  simp [State.val, hr i hi]

theorem State.poly_eq_none_iff (s : State) (k : Slot) : s.poly k = none ↔ ¬ s.Readable k := by
  rw [← s.poly_isSome_iff k]
  cases s.poly k <;> simp

theorem State.val_lt (s : State) (k : Slot) (i : Nat) : s.val k i < 2 ^ 32 := by
  unfold State.val
  cases s.coeff k i with
  | none => simp
  | some w => simpa using w.isLt

/-- A coefficient after a slot is written. -/
theorem State.setPoly_coeff_same (s : State) (k : Slot) (p : List Nat) (i : Nat) (h : i < p.length) :
    (s.setPoly k p).coeff k i = some (BitVec.ofNat 32 p[i]) := by
  have := Memory.read_writeRange_inside s.slots (slotKey k 0) i (p.map (BitVec.ofNat 32)) (by simpa using h)
  simpa [State.coeff, State.setPoly, slotKey] using this

/-- A coefficient of another slot after a slot is written. -/
theorem State.setPoly_coeff_other (s : State) (k : Slot) (p : List Nat) (j i : Nat) (hp : p.length ≤ 256) (hi : i < 256)
    (h : j ≠ k.val) : (s.setPoly k p).coeff j i = s.coeff j i := by
  refine Memory.read_writeRange_outside _ _ _ _ ?_
  simp only [slotKey, List.length_map]
  rcases Nat.lt_or_gt_of_ne h with h | h <;> omega

/-- Every coefficient of the other slots reads as before a slot is written. -/
theorem State.setPoly_slotsSameBut (s : State) (k : Slot) (p : List Nat) (hp : p.length ≤ 256) :
    SlotsSameBut [k] s (s.setPoly k p) := fun j i hi hj =>
  s.setPoly_coeff_other k p j i hp hi (hj k (by simp))

/-- A slot read back after it is written whole. -/
theorem State.poly_setPoly_same (s : State) (k : Slot) (p : List Nat) (h : p.length = 256) :
    (s.setPoly k p).poly k = some (p.map (fun v => v % 2 ^ 32)) := by
  rw [State.poly_eq_some_iff]
  refine ⟨by simpa using h, fun i hi => ?_⟩
  have hi' : i < p.length := by simpa using hi
  rw [s.setPoly_coeff_same k p i hi']
  simp

/-- Another slot reads as before. -/
theorem State.poly_setPoly_other (s : State) (j k : Slot) (p : List Nat) (h : p.length ≤ 256) (hjk : j ≠ k) :
    (s.setPoly k p).poly j = s.poly j := by
  have key : ∀ q, (s.setPoly k p).poly j = some q ↔ s.poly j = some q := by
    intro q
    simp only [State.poly_eq_some_iff]
    constructor <;> rintro ⟨hl, hr⟩ <;> refine ⟨hl, fun i hi => ?_⟩ <;> have := hr i hi <;>
      rw [s.setPoly_coeff_other k p j i h (by omega) (by simpa using Fin.val_ne_of_ne hjk)] at * <;> exact this
  cases hq : s.poly j with
  | some q => exact (key q).mpr hq
  | none =>
    cases hq' : (s.setPoly k p).poly j with
    | none => rfl
    | some q => rw [(key q).mp hq'] at hq; cases hq

/-! ### Bytes -/

theorem State.bufBytes_isSome_iff (s : State) (off n : Nat) : (s.bufBytes off n).isSome = true ↔ s.BytesReadable off n :=
  Memory.readRange_isSome s.buf off n

theorem State.bufBytes_eq_none_iff (s : State) (off n : Nat) : s.bufBytes off n = none ↔ ¬ s.BytesReadable off n := by
  rw [← s.bufBytes_isSome_iff off n]
  cases s.bufBytes off n <;> simp

theorem State.bufBytes_of_readable (s : State) (off n : Nat) (h : s.BytesReadable off n) :
    ∃ bs, s.bufBytes off n = some bs ∧ bs.length = n ∧ ∀ i (hi : i < bs.length), bs[i].toNat = s.byteVal (off + i) := by
  obtain ⟨bs, hb⟩ := Option.isSome_iff_exists.mp ((s.bufBytes_isSome_iff off n).mpr h)
  obtain ⟨hl, hr⟩ := (Memory.readRange_eq_some s.buf off n bs).mp hb
  refine ⟨bs, hb, hl, fun i hi => ?_⟩
  simp [State.byteVal, State.bufByte, hr i hi]

theorem State.setBytes_bufByte_inside (s : State) (off i : Nat) (bs : List Byte) (h : i < bs.length) :
    (s.setBytes off bs).bufByte (off + i) = some bs[i] :=
  Memory.read_writeRange_inside s.buf off i bs h

theorem State.setBytes_bufSameBut (s : State) (off : Nat) (bs : List Byte) :
    BufSameBut off bs.length s (s.setBytes off bs) := fun o ho =>
  Memory.read_writeRange_outside s.buf off o bs ho

/-- Bytes read back after they are written. -/
theorem State.bufBytes_setBytes_same (s : State) (off : Nat) (bs : List Byte) :
    (s.setBytes off bs).bufBytes off bs.length = some bs := by
  simp only [State.bufBytes, Memory.readRange_eq_some]
  exact ⟨trivial, fun i hi => s.setBytes_bufByte_inside off i bs hi⟩
/-! ### Sources: when a command goes on -/

theorem State.withPoly_next_iff (s : State) (k : Slot) (f : List Nat → Result) (t : State) :
    s.withPoly k f = .next t ↔ ∃ p, s.poly k = some p ∧ f p = .next t := by
  unfold State.withPoly
  cases s.poly k <;> simp

theorem State.withPoly_of_readable (s : State) (k : Slot) (f : List Nat → Result) (h : s.Readable k) :
    ∃ p, s.withPoly k f = f p ∧ s.poly k = some p ∧ p.length = 256 ∧ ∀ i (hi : i < p.length), p[i] = s.val k i := by
  obtain ⟨p, hp, hl, hv⟩ := s.poly_of_readable k h
  exact ⟨p, by simp [State.withPoly, hp], hp, hl, hv⟩

theorem State.withPoly_unreadable (s : State) (k : Slot) (f : List Nat → Result) (h : ¬ s.Readable k) :
    s.withPoly k f = .fault (.unwrittenRead .slotFile) := by
  simp [State.withPoly, (s.poly_eq_none_iff k).mpr h]

theorem State.withBytes_next_iff (s : State) (off n : Nat) (f : List Byte → Result) (t : State) :
    s.withBytes off n f = .next t ↔ ∃ bs, s.bufBytes off n = some bs ∧ f bs = .next t := by
  unfold State.withBytes
  cases s.bufBytes off n <;> simp

theorem State.withBytes_of_readable (s : State) (off n : Nat) (f : List Byte → Result) (h : s.BytesReadable off n) :
    ∃ bs, s.withBytes off n f = f bs ∧ bs.length = n ∧ ∀ i (hi : i < bs.length), bs[i].toNat = s.byteVal (off + i) := by
  obtain ⟨bs, hb, hl, hv⟩ := s.bufBytes_of_readable off n h
  exact ⟨bs, by simp [State.withBytes, hb], hl, hv⟩

theorem State.withBytes_unreadable (s : State) (off n : Nat) (f : List Byte → Result) (h : ¬ s.BytesReadable off n) :
    s.withBytes off n f = .fault (.unwrittenRead .buf) := by
  simp [State.withBytes, (s.bufBytes_eq_none_iff off n).mpr h]

/-! ### Lengths -/

theorem length_splitFields (w n v : Nat) : (splitFields w n v).length = n := by simp [splitFields]

theorem length_packPoly (c : Config) (r : Role) (p : List Nat) : (packPoly c r p).length = roleSize c r := by
  simp [packPoly, length_splitFields]

theorem length_unpackBytes (c : Config) (r : Role) (bs : List Byte) : (unpackBytes c r bs).length = 256 := by
  simp [unpackBytes, length_splitFields]

theorem length_forwardBlock (z : Nat) (lo hi : List Nat) (h : lo.length = hi.length) :
    (forwardBlock z lo hi).length = 2 * lo.length := by
  simp [forwardBlock, h]; omega

theorem length_inverseBlock (z : Nat) (lo hi : List Nat) (h : lo.length = hi.length) :
    (inverseBlock z lo hi).length = 2 * lo.length := by
  simp [inverseBlock, h]; omega

/-- A layer of blocks that keep their length keeps the length of the slot. -/
theorem length_layer (block : Nat → List Nat → List Nat → List Nat) (rom : List Nat) (len blocks k : Nat) (p : List Nat)
    (hb : ∀ z lo hi, lo.length = hi.length → (block z lo hi).length = 2 * lo.length) (hp : p.length = 2 * len * blocks) :
    (layer block rom len blocks k p).length = p.length := by
  induction blocks generalizing k p with
  | zero => simpa [layer] using hp.symm
  | succ n ih =>
    have e : 2 * len * (n + 1) = 2 * len * n + 2 * len := by ring
    have hlo : (p.take len).length = len := by simp; omega
    have hhi : ((p.drop len).take len).length = len := by simp; omega
    simp only [layer, List.length_append]
    rw [hb _ _ _ (hlo.trans hhi.symm), hlo, ih _ _ (by simp; omega)]
    simp; omega

theorem length_forwardLayer (l : Nat) (p : List Nat) (hl : 1 ≤ l ∧ l ≤ 8) (hp : p.length = 256) :
    (forwardLayer l p).length = 256 := by
  unfold forwardLayer
  rw [length_layer _ _ _ _ _ _ length_forwardBlock, hp]
  rw [hp]
  obtain ⟨h1, h8⟩ := hl
  interval_cases l <;> rfl

theorem length_inverseLayer (l : Nat) (p : List Nat) (hl : 1 ≤ l ∧ l ≤ 8) (hp : p.length = 256) :
    (inverseLayer l p).length = 256 := by
  unfold inverseLayer
  rw [length_layer _ _ _ _ _ _ length_inverseBlock, hp]
  rw [hp]
  obtain ⟨h1, h8⟩ := hl
  interval_cases l <;> rfl

theorem length_forwardNtt (p : List Nat) (hp : p.length = 256) : (forwardNtt p).length = 256 := by
  simp only [forwardNtt, List.foldl_cons, List.foldl_nil]
  repeat' apply length_forwardLayer _ _ (by decide)
  exact hp

theorem length_inverseNtt (p : List Nat) (hp : p.length = 256) : (inverseNtt p).length = 256 := by
  simp only [inverseNtt, List.foldl_cons, List.foldl_nil, List.length_map]
  repeat' apply length_inverseLayer _ _ (by decide)
  exact hp

end Sys2Proof.Machine
end

