-- ==== Sys2Proof/Laws/Exec.lean ====
section
/-! SUPPORT. Everything a command can do when it answers a next state: one inversion lemma for the commands that run in one
step, one for the samplers. -/

namespace Sys2Proof.Machine

/-- What a command other than a sampler does: it completes, having written at most its destination slots, its bytes of BUF and,
for CHKNORM, NORM. -/
structure PlainRun (i : Instr) (s t : State) : Prop where
  shape : t = ({ s with slots := t.slots, buf := t.buf, norm := t.norm } : State).complete
  slots_wf : Memory.wf s.slots = true → Memory.wf t.slots = true
  slots_mem : ∀ c ∈ t.slots, c ∈ s.slots ∨ ∃ d ∈ destSlots i, 256 * d.val ≤ c.1 ∧ c.1 < 256 * d.val + 256
  buf_wf : Memory.wf s.buf = true → Memory.wf t.buf = true
  buf_mem : ∀ c ∈ t.buf, c ∈ s.buf ∨
    ∃ r, destRole i = some r ∧ s.offset ≤ c.1 ∧ c.1 < s.offset + roleSize s.cfg r
  norm : (∀ ra, i ≠ .chknorm ra) → t.norm = s.norm

theorem mem_setPoly {s : State} {k : Slot} {p : List Nat} (hp : p.length ≤ 256) {c : Nat × Word}
    (h : c ∈ (s.setPoly k p).slots) : c ∈ s.slots ∨ (256 * k.val ≤ c.1 ∧ c.1 < 256 * k.val + 256) := by
  rcases Memory.mem_writeRange h with h | h
  · exact .inl h
  · simp only [slotKey, List.length_map] at h
    exact .inr (by omega)

theorem wf_setPoly {s : State} {k : Slot} {p : List Nat} (h : Memory.wf s.slots = true) :
    Memory.wf (s.setPoly k p).slots = true := Memory.wf_writeRange _ _ _ h

/-- A command that writes one slot and completes. -/
theorem plainRun_setPoly {i : Instr} {s : State} {k : Slot} {p : List Nat} (hp : p.length ≤ 256) (hk : k ∈ destSlots i) :
    PlainRun i s (s.setPoly k p).complete where
  shape := rfl
  slots_wf := wf_setPoly
  slots_mem := fun _ hc => (mem_setPoly hp hc).imp_right fun h => ⟨k, hk, h⟩
  buf_wf := id
  buf_mem := fun _ hc => .inl hc
  norm := fun _ => rfl

theorem inPlace_cases {f : List Nat → List Nat} {rd : Slot} {s t : State} (h : inPlace f rd s = .next t) :
    ∃ p, s.poly rd = some p ∧ t = (s.setPoly rd (f p)).complete := by
  obtain ⟨p, hp, ht⟩ := (s.withPoly_next_iff _ _ _).mp h
  exact ⟨p, hp, by simpa using ht.symm⟩

theorem threeSlots_cases {f : Nat → Nat → Nat} {rd ra rb : Slot} {s t : State} (h : threeSlots f rd ra rb s = .next t) :
    ∃ a b, s.poly ra = some a ∧ s.poly rb = some b ∧ t = (s.setPoly rd (List.zipWith f a b)).complete := by
  obtain ⟨a, ha, h⟩ := (s.withPoly_next_iff _ _ _).mp h
  obtain ⟨b, hb, ht⟩ := (s.withPoly_next_iff _ _ _).mp h
  exact ⟨a, b, ha, hb, by simpa using ht.symm⟩

theorem poly_length {s : State} {k : Slot} {p : List Nat} (h : s.poly k = some p) : p.length = 256 :=
  ((s.poly_eq_some_iff k p).mp h).1

theorem plainRun_inPlace {i : Instr} {f : List Nat → List Nat} {rd : Slot} {s t : State}
    (hf : ∀ p, p.length = 256 → (f p).length = 256) (hd : rd ∈ destSlots i) (h : inPlace f rd s = .next t) :
    PlainRun i s t := by
  obtain ⟨p, hp, rfl⟩ := inPlace_cases h
  exact plainRun_setPoly (by rw [hf p (poly_length hp)]) hd

theorem plainRun_threeSlots {i : Instr} {f : Nat → Nat → Nat} {rd ra rb : Slot} {s t : State} (hd : rd ∈ destSlots i)
    (h : threeSlots f rd ra rb s = .next t) : PlainRun i s t := by
  obtain ⟨a, b, ha, hb, rfl⟩ := threeSlots_cases h
  exact plainRun_setPoly (by simp [poly_length ha, poly_length hb]) hd

theorem plainRun_pack {i : Instr} {r : Role} {ra : Slot} {s t : State} (hd : destRole i = some r)
    (h : pack r ra s = .next t) : PlainRun i s t := by
  obtain ⟨p, hp, ht⟩ := (s.withPoly_next_iff _ _ _).mp h
  obtain rfl : (s.setBytes s.offset (packPoly s.cfg r p)).complete = t := by simpa using ht
  refine ⟨rfl, id, fun _ hc => .inl hc, fun h => Memory.wf_writeRange _ _ _ h, fun c hc => ?_, fun _ => rfl⟩
  rcases Memory.mem_writeRange hc with hc | hc
  · exact .inl hc
  · rw [length_packPoly] at hc
    exact .inr ⟨r, hd, hc⟩

theorem plainRun_unpack {i : Instr} {r : Role} {rd : Slot} {s t : State} (hd : rd ∈ destSlots i)
    (h : unpack r rd s = .next t) : PlainRun i s t := by
  obtain ⟨bs, hb, ht⟩ := (s.withBytes_next_iff _ _ _ _).mp h
  obtain rfl : (s.setPoly rd (unpackBytes s.cfg r bs)).complete = t := by simpa using ht
  exact plainRun_setPoly (by rw [length_unpackBytes]) hd

theorem plainRun_chknorm {ra : Slot} {s t : State} (h : execChknorm ra s = .next t) : PlainRun (.chknorm ra) s t := by
  obtain ⟨p, hp, ht⟩ := (s.withPoly_next_iff _ _ _).mp h
  obtain rfl := (Host.Outcome.next.inj ht)
  exact ⟨rfl, id, fun _ hc => .inl hc, id, fun _ hc => .inl hc, fun h => absurd rfl (h ra)⟩

theorem plainRun_power2round {rd ra rb : Slot} {s t : State} (h : execPower2round rd ra rb s = .next t) :
    PlainRun (.power2round rd ra rb) s t := by
  obtain ⟨p, hp, ht⟩ := (s.withPoly_next_iff _ _ _).mp h
  obtain rfl := (Host.Outcome.next.inj ht)
  have hl := poly_length hp
  refine ⟨rfl, fun h => wf_setPoly (wf_setPoly h), fun c hc => ?_, id, fun _ hc => .inl hc, fun _ => rfl⟩
  rcases mem_setPoly (by simp [hl]) hc with hc | hc
  · rcases mem_setPoly (by simp [hl]) hc with hc | hc
    · exact .inl hc
    · exact .inr ⟨rd, by simp [destSlots], hc⟩
  · exact .inr ⟨rb, by simp [destSlots], hc⟩

/-- A command other than a sampler, when it answers a next state, completes and writes its destinations only. -/
theorem exec_plain {i : Instr} {s t : State} (hk : samplerKind i = none) (h : exec i s = .next t) : PlainRun i s t := by
  cases i with
  | reduce rd => exact plainRun_inPlace (fun p hp => by simp [hp]) (by simp [destSlots]) h
  | freeze rd => exact plainRun_inPlace (fun p hp => by simp [hp]) (by simp [destSlots]) h
  | pwmul rd ra rb => exact plainRun_threeSlots (by simp [destSlots]) h
  | ntt rd => exact plainRun_inPlace length_forwardNtt (by simp [destSlots]) h
  | invntt rd => exact plainRun_inPlace length_inverseNtt (by simp [destSlots]) h
  | add rd ra rb => exact plainRun_threeSlots (by simp [destSlots]) h
  | sub rd ra rb => exact plainRun_threeSlots (by simp [destSlots]) h
  | shl rd => exact plainRun_inPlace (fun p hp => by simp [hp]) (by simp [destSlots]) h
  | chknorm ra => exact plainRun_chknorm h
  | power2round rd ra rb => exact plainRun_power2round h
  | sampleUniform rd => simp [samplerKind] at hk
  | sampleEta rd => simp [samplerKind] at hk
  | sampleGamma1m1 rd => simp [samplerKind] at hk
  | packEta ra => exact plainRun_pack rfl h
  | packT0 ra => exact plainRun_pack rfl h
  | packT1 ra => exact plainRun_pack rfl h
  | packZ ra => exact plainRun_pack rfl h
  | packW1 ra => exact plainRun_pack rfl h
  | unpackEta rd => exact plainRun_unpack (by simp [destSlots]) h
  | unpackT0 rd => exact plainRun_unpack (by simp [destSlots]) h
  | unpackT1 rd => exact plainRun_unpack (by simp [destSlots]) h
  | unpackZ rd => exact plainRun_unpack (by simp [destSlots]) h
  | unpackW1 rd => exact plainRun_unpack (by simp [destSlots]) h

/-- A sampler command is `runSampler` of its kind and destination. -/
theorem exec_sampler {i : Instr} {k : SamplerKind} (s : State) (hk : samplerKind i = some k) :
    ∃ rd, destSlots i = [rd] ∧ exec i s = runSampler k rd s := by
  cases i <;> simp only [samplerKind, Option.some.injEq, reduceCtorEq] at hk
  all_goals
    subst hk
    exact ⟨_, rfl, rfl⟩

/-- What one step of a sampler can do. -/
theorem runSampler_cases {k : SamplerKind} {rd : Slot} {s t : State} (h : runSampler k rd s = .next t) :
    ((s.session = none ∨ s.sampler = none) ∧ t = samplerStart k s)
      ∨ (∃ p m n, s.session = some p ∧ s.sampler = some m ∧ s.squeeze = some n ∧ t = s)
      ∨ (∃ p m, s.session = some p ∧ s.sampler = some m ∧ s.squeeze = none ∧ (consumeDelivered s k m).got.length = 256
          ∧ t = samplerFinish k rd (consumeDelivered s k m) s)
      ∨ ∃ p m, s.session = some p ∧ s.sampler = some m ∧ s.squeeze = none ∧ (consumeDelivered s k m).got.length ≠ 256
          ∧ t = samplerRefill (consumeDelivered s k m) s := by
  unfold runSampler at h
  cases hp : s.session with
  | none => exact .inl ⟨.inl rfl, by simpa [hp] using h.symm⟩
  | some p =>
    cases hs : s.sampler with
    | none => exact .inl ⟨.inr rfl, by simpa [hp, hs] using h.symm⟩
    | some m =>
      cases hq : s.squeeze with
      | some n => exact .inr (.inl ⟨p, m, n, rfl, rfl, rfl, by simpa [hp, hs, hq] using h.symm⟩)
      | none =>
        simp only [hp, hs, hq] at h
        split at h
        · rename_i hl
          exact .inr (.inr (.inl ⟨p, m, rfl, rfl, rfl, hl, by simpa using h.symm⟩))
        · rename_i hl
          exact .inr (.inr (.inr ⟨p, m, rfl, rfl, rfl, hl, by simpa using h.symm⟩))

/-- A sampler step always answers a next state: a sampler reads no slot and no byte of BUF. -/
theorem runSampler_next (k : SamplerKind) (rd : Slot) (s : State) : ∃ t, runSampler k rd s = .next t := by
  unfold runSampler
  dsimp only
  repeat' split
  all_goals exact ⟨_, rfl⟩

/-! ### The sampler's loop -/

theorem length_takeFields (c : Config) (k : SamplerKind) (room : Nat) (ts : List Nat) :
    (takeFields c k room ts).length ≤ room := by
  induction ts generalizing room with
  | nil => cases room <;> simp [takeFields]
  | cons t ts ih =>
    cases room with
    | zero => simp [takeFields]
    | succ room =>
      simp only [takeFields]
      split
      · simpa using ih room
      · exact ih (room + 1)

/-- The fields taken are the accepted ones, in order, as far as there is room (R249). -/
theorem takeFields_eq (c : Config) (k : SamplerKind) (room : Nat) (ts : List Nat) :
    takeFields c k room ts
      = ((ts.filter (acceptField c k)).map (fun t => BitVec.ofNat 32 (outField c k t))).take room := by
  induction ts generalizing room with
  | nil => cases room <;> simp [takeFields]
  | cons t ts ih =>
    cases room with
    | zero => simp [takeFields]
    | succ room =>
      simp only [takeFields, List.filter_cons]
      cases acceptField c k t <;> simp [ih]

theorem chunkBytes_pos (k : SamplerKind) : 0 < chunkBytes k := by cases k <;> decide

theorem consume_length (c : Config) (k : SamplerKind) (n room : Nat) (bs : List Byte) :
    (consume c k n room bs).1.length ≤ room ∧ (consume c k n room bs).2 ≤ bs.length := by
  induction n generalizing room bs with
  | zero => simp [consume]
  | succ n ih =>
    simp only [consume]
    split
    · rename_i h
      have hnew : (chunkCoeffs c k room (bs.take (chunkBytes k))).length ≤ room := length_takeFields _ _ _ _
      obtain ⟨h1, h2⟩ := ih (room - (chunkCoeffs c k room (bs.take (chunkBytes k))).length) (bs.drop (chunkBytes k))
      have h3 := h.2
      simp only [List.length_take] at h3
      simp only [List.length_append, List.length_drop] at h1 h2 ⊢
      omega
    · simp

theorem length_streamBytes (s : State) (k : SamplerKind) (n : BitVec 16) (first count : Nat) :
    (s.streamBytes k n first count).length = count := by
  simp only [State.streamBytes, List.length_append, List.length_map, List.length_range, List.length_take]
  omega

/-- The bytes of a session are the `streamByte` of their indexes. -/
theorem getElem_streamBytes (s : State) (k : SamplerKind) (n : BitVec 16) (first count d : Nat)
    (h : d < (s.streamBytes k n first count).length) :
    (s.streamBytes k n first count)[d] = s.streamByte k n (first + d) := by
  have hd : d < count := by simpa [length_streamBytes] using h
  simp only [State.streamBytes, State.streamByte, List.getElem_append, List.length_take, List.length_drop]
  split
  · rename_i h1
    have h2 : first + d < (s.knownBytes k n).length := by omega
    simp [List.getElem_take, List.getElem_drop, h2]
  · rename_i h1
    have h2 : (s.knownBytes k n).length ≤ first + d := by omega
    simp only [List.getElem_map, List.getElem_range, List.getElem?_eq_none h2, Option.getD_none]
    congr 1
    omega

/-- After the inner loop at most 256 coefficients are accepted and at most the bytes delivered are consumed. -/
theorem consumeDelivered_bounds (s : State) (k : SamplerKind) (m : Sampler) (hg : m.got.length ≤ 256)
    (hp : m.pos ≤ m.avail) :
    (consumeDelivered s k m).got.length ≤ 256 ∧ (consumeDelivered s k m).pos ≤ m.avail
      ∧ (consumeDelivered s k m).avail = m.avail ∧ (consumeDelivered s k m).blk = m.blk := by
  have h := consume_length s.cfg k (m.avail - m.pos) (256 - m.got.length)
    (s.streamBytes k s.nonce m.pos (m.avail - m.pos))
  rw [length_streamBytes] at h
  refine ⟨?_, ?_, rfl, rfl⟩
  · simp only [consumeDelivered, List.length_append]; omega
  · simp only [consumeDelivered]; omega

end Sys2Proof.Machine
end

