-- ==== Sys2Proof/Laws/PerInstr.lean ====
section
/-! SUPPORT. The family `Encoding`, one lemma per constructor: a command's word holds its opcode in OP and 0 in the reserved fields
Z0 and Z1 (spec/30_encoding.md R101). -/

namespace Sys2Proof.Laws.Encoding

/-- OP of the command's word is its opcode, and bits 7:6 and 31:20 are 0 (R101, R105). -/
def Statement (i : Instr) : Prop :=
  opField (encode i) = i.opcode ∧ (encode i).toNat / 2 ^ 6 % 2 ^ 2 = 0 ∧ (encode i).toNat / 2 ^ 20 = 0

/-- The fields of a word assembled from an opcode and three slot numbers. -/
theorem of_fields (op rd ra rb : Nat) (ho : op < 64) (hd : rd < 16) (ha : ra < 16) (hb : rb < 16) :
    opField (encodeFields op rd ra rb) = op ∧ (encodeFields op rd ra rb).toNat / 2 ^ 6 % 2 ^ 2 = 0
      ∧ (encodeFields op rd ra rb).toNat / 2 ^ 20 = 0 := by
  simp only [opField, encodeFields, BitVec.toNat_ofNat]
  omega

theorem reduce (rd : Slot) : Statement (.reduce rd) := of_fields _ rd 0 0 (by decide) rd.isLt (by decide) (by decide)
theorem freeze (rd : Slot) : Statement (.freeze rd) := of_fields _ rd 0 0 (by decide) rd.isLt (by decide) (by decide)
theorem pwmul (rd ra rb : Slot) : Statement (.pwmul rd ra rb) :=
  of_fields _ rd ra rb (by decide) rd.isLt ra.isLt rb.isLt
theorem ntt (rd : Slot) : Statement (.ntt rd) := of_fields _ rd 0 0 (by decide) rd.isLt (by decide) (by decide)
theorem invntt (rd : Slot) : Statement (.invntt rd) := of_fields _ rd 0 0 (by decide) rd.isLt (by decide) (by decide)
theorem add (rd ra rb : Slot) : Statement (.add rd ra rb) :=
  of_fields _ rd ra rb (by decide) rd.isLt ra.isLt rb.isLt
theorem sub (rd ra rb : Slot) : Statement (.sub rd ra rb) :=
  of_fields _ rd ra rb (by decide) rd.isLt ra.isLt rb.isLt
theorem shl (rd : Slot) : Statement (.shl rd) := of_fields _ rd 0 0 (by decide) rd.isLt (by decide) (by decide)
theorem chknorm (ra : Slot) : Statement (.chknorm ra) := of_fields _ 0 ra 0 (by decide) (by decide) ra.isLt (by decide)
theorem power2round (rd ra rb : Slot) : Statement (.power2round rd ra rb) :=
  of_fields _ rd ra rb (by decide) rd.isLt ra.isLt rb.isLt
theorem sampleUniform (rd : Slot) : Statement (.sampleUniform rd) := of_fields _ rd 0 0 (by decide) rd.isLt (by decide) (by decide)
theorem sampleEta (rd : Slot) : Statement (.sampleEta rd) := of_fields _ rd 0 0 (by decide) rd.isLt (by decide) (by decide)
theorem sampleGamma1m1 (rd : Slot) : Statement (.sampleGamma1m1 rd) := of_fields _ rd 0 0 (by decide) rd.isLt (by decide) (by decide)
theorem packEta (ra : Slot) : Statement (.packEta ra) := of_fields _ 0 ra 0 (by decide) (by decide) ra.isLt (by decide)
theorem packT0 (ra : Slot) : Statement (.packT0 ra) := of_fields _ 0 ra 0 (by decide) (by decide) ra.isLt (by decide)
theorem packT1 (ra : Slot) : Statement (.packT1 ra) := of_fields _ 0 ra 0 (by decide) (by decide) ra.isLt (by decide)
theorem packZ (ra : Slot) : Statement (.packZ ra) := of_fields _ 0 ra 0 (by decide) (by decide) ra.isLt (by decide)
theorem packW1 (ra : Slot) : Statement (.packW1 ra) := of_fields _ 0 ra 0 (by decide) (by decide) ra.isLt (by decide)
theorem unpackEta (rd : Slot) : Statement (.unpackEta rd) := of_fields _ rd 0 0 (by decide) rd.isLt (by decide) (by decide)
theorem unpackT0 (rd : Slot) : Statement (.unpackT0 rd) := of_fields _ rd 0 0 (by decide) rd.isLt (by decide) (by decide)
theorem unpackT1 (rd : Slot) : Statement (.unpackT1 rd) := of_fields _ rd 0 0 (by decide) rd.isLt (by decide) (by decide)
theorem unpackZ (rd : Slot) : Statement (.unpackZ rd) := of_fields _ rd 0 0 (by decide) rd.isLt (by decide) (by decide)
theorem unpackW1 (rd : Slot) : Statement (.unpackW1 rd) := of_fields _ rd 0 0 (by decide) rd.isLt (by decide) (by decide)

end Sys2Proof.Laws.Encoding
end

