-- ==== Sys2Proof/Laws/Step.lean ====
section
/-! SUPPORT. Everything a step can do when it answers a next state: one inversion lemma for the decode checks, for each kind of
host access and for each move. -/

namespace Sys2Proof.Machine

/-! ### The decode checks -/

theorem commandCheck_ok_iff (c : Config) (w arg : Word) (i : Instr) :
    commandCheck c w arg = .ok i ↔ decode w = .ok i ∧ operandError c i arg = none := by
  unfold commandCheck
  rcases decode w with (_ | _) | j
  · simp
  · simp
  · dsimp only
    have key : i = j → (operandError c j arg = none ↔ operandError c i arg = none) := by rintro rfl; rfl
    cases h : operandError c j arg with
    | some e => simp only [Except.ok.injEq, reduceCtorEq, false_iff, not_and]; rintro rfl; simp [h]
    | none => simp only [Except.ok.injEq]; exact ⟨fun e => ⟨e, (key e.symm).mp h⟩, fun e => e.1⟩

/-- The operand checks pass exactly on a well-formed command whose bytes lie in BUF. -/
theorem operandError_none_iff (c : Config) (i : Instr) (arg : Word) :
    operandError c i arg = none ↔
      i.wellFormed c = true ∧ ∀ r, bufRole i = some r → arg.toNat + roleSize c r ≤ c.bufBytes := by
  unfold operandError Instr.wellFormed
  cases i.slotsExist c <;> cases i.destinationsDiffer <;> cases h : bufRole i <;> simp

theorem commandCheck_error_ne (c : Config) (w arg : Word) (e : ErrCode) (h : commandCheck c w arg = .error e) :
    e ≠ .noError := by
  rintro rfl
  unfold commandCheck at h
  split at h
  · simp at h
  · simp at h
  · unfold operandError at h
    split at h
    · rename_i he
      repeat' split at he
      all_goals simp_all
    · simp at h

/-- The destination slots of a command with existing slots exist. -/
theorem destSlots_lt {c : Config} {i : Instr} (h : i.slotsExist c = true) : ∀ d ∈ destSlots i, d.val < c.npoly := by
  cases i <;> simp_all [Instr.slotsExist, destSlots]

theorem bufRole_of_destRole {i : Instr} {r : Role} (h : destRole i = some r) : bufRole i = some r := by
  cases i <;> simp_all [destRole, bufRole]

theorem destRole_of_samplerKind {i : Instr} {k : SamplerKind} (h : samplerKind i = some k) : destRole i = none := by
  cases i <;> simp_all [destRole, samplerKind]

/-- The opcodes of the samplers (R105). -/
theorem samplerKind_of_decode {w : Word} {i : Instr} (h : decode w = .ok i) :
    samplerKind i = if w.toNat % 64 = 0x10 then some .U else if w.toNat % 64 = 0x11 then some .E
      else if w.toNat % 64 = 0x12 then some .G else none := by
  have hc : ∀ {f o j}, checkFields w f o j = .ok i → i = j := by
    intro f o j h
    unfold checkFields at h
    split at h
    · exact (Except.ok.inj h).symm
    · cases h
  unfold decode opField at h
  split at h
  all_goals first
    | cases h
    | (rename_i ho; obtain rfl := hc h; rw [ho]; rfl)

/-- Acceptance of a decoded word creates a sampler state at 0 exactly for a sampler (R44). -/
theorem freshSampler_of_decode {w : Word} {i : Instr} (h : decode w = .ok i) :
    freshSampler w = (samplerKind i).map (fun _ => ⟨[], 0, 0, 0⟩) := by
  rw [freshSampler, h]

theorem freshSampler_eq_some {w : Word} {m : Sampler} (h : freshSampler w = some m) : m = ⟨[], 0, 0, 0⟩ := by
  unfold freshSampler at h
  split at h
  · obtain ⟨_, -, rfl⟩ := Option.map_eq_some_iff.mp h
    rfl
  · cases h

/-! ### Host accesses -/

theorem regionOf_register {c : Config} {off : Nat} (h : regionOf c off = .register) : off < 0x100 := by
  unfold regionOf at h
  repeat' split at h
  all_goals simp_all

theorem regionOf_bufWord {c : Config} {off o : Nat} (h : regionOf c off = .bufWord o) :
    off = 0x2000 + o ∧ o < c.bufBytes := by
  unfold regionOf at h
  repeat' split at h
  all_goals simp only [reduceCtorEq, Region.bufWord.injEq] at h
  omega

theorem regionOf_coeff {c : Config} {off key : Nat} (h : regionOf c off = .coeff key) :
    0x10000 ≤ off ∧ key = (off - 0x10000) / 4 ∧ off < 0x10000 + 1024 * c.npoly := by
  unfold regionOf at h
  repeat' split at h
  all_goals simp only [reduceCtorEq, Region.coeff.injEq] at h
  omega

theorem submit_cases (s : State) (w : Word) :
    (s.busy = true ∧ s.submit w = ({ s with cmd := w } : State).raiseError .cmdWhileBusy w)
      ∨ (s.busy = false ∧ ∃ e, commandCheck s.cfg w s.arg = .error e
          ∧ s.submit w = ({ s with cmd := w } : State).raiseError e w)
      ∨ (s.busy = false ∧ ∃ i, commandCheck s.cfg w s.arg = .ok i
          ∧ s.submit w = ({ s with cmd := w } : State).accept w) := by
  unfold State.submit
  cases s.busy
  · right
    cases h : commandCheck s.cfg w s.arg <;> simp
  · left; simp

/-- The draws of an abort change storage and the count of draws alone. -/
theorem foldl_havocSlot_shape (ds : List Slot) (s : State) :
    ∃ m d, ds.foldl State.havocSlot s = { s with slots := m, drawn := d } := by
  induction ds generalizing s with
  | nil => exact ⟨_, _, rfl⟩
  | cons k ds ih =>
    obtain ⟨m, d, h⟩ := ih (s.havocSlot k)
    exact ⟨m, d, h⟩

theorem havocDestinations_shape (s : State) (i : Instr) :
    ∃ m b d, s.havocDestinations i = { s with slots := m, buf := b, drawn := d } := by
  obtain ⟨m, d, h⟩ := foldl_havocSlot_shape (destSlots i) s
  unfold State.havocDestinations
  rw [h]
  cases destRole i with
  | none => exact ⟨m, _, d, rfl⟩
  | some r => exact ⟨m, _, _, rfl⟩

/-- What an abort does: draws into storage, then CLOSE if a session is open. -/
theorem abortRunning_shape (s : State) : ∃ m b d,
    s.abortRunning = if s.session.isSome then ({ s with slots := m, buf := b, drawn := d } : State).closeSession
      else { s with slots := m, buf := b, drawn := d } := by
  unfold State.abortRunning
  cases decode s.lcmd with
  | error e => exact ⟨s.slots, s.buf, s.drawn, rfl⟩
  | ok i =>
    obtain ⟨m, b, d, h⟩ := havocDestinations_shape s i
    exact ⟨m, b, d, by simp only [h]⟩

theorem softReset_cases (s : State) :
    (s.phase = .running ∧ s.softReset = s.abortRunning.clearRegisters)
      ∨ (s.phase = .idle ∧ s.softReset = s.clearRegisters) := by
  unfold State.softReset
  cases s.phase <;> simp

theorem writeRegister_cases (s : State) (off : Nat) (v : Word) :
    (off = 0x40 ∧ s.writeRegister off v = s.submit v)
      ∨ (off = 0x44 ∧ s.writeRegister off v = s.setArg v)
      ∨ (off = 0x48 ∧ s.writeRegister off v = s.writeStatus v)
      ∨ (off = 0x4C ∧ v.getLsbD 0 = true ∧ s.writeRegister off v = s.softReset)
      ∨ (off = 0x4C ∧ v.getLsbD 0 = false ∧ s.writeRegister off v = s.writeEnables v)
      ∨ s.writeRegister off v = s := by
  unfold State.writeRegister
  split
  · simp
  · simp
  · simp
  · unfold State.writeControl
    cases h : v.getLsbD 0 <;> simp
  · simp

/-- What a read can do: answer, or refuse. It writes no storage. -/
theorem hostRead_cases {width : AccessWidth} {off : BitVec 17} {s t : State} (h : hostRead width off s = .next t) :
    (∃ r, t = s.respond r)
      ∨ (∃ e w, e ≠ ErrCode.noError ∧ t = (s.raiseError e w).respond (some 0#32))
      ∨ (s.busy = true ∧ t = s.refuseBusyRead off) := by
  unfold hostRead at h
  split at h
  · exact .inr (.inl ⟨.badAccess, _, by decide, by simpa using h.symm⟩)
  · split at h
    · exact .inl ⟨_, by simpa using h.symm⟩
    · exact .inl ⟨_, by simpa using h.symm⟩
    · exact .inl ⟨_, by simpa using h.symm⟩
    · exact .inr (.inl ⟨.badAddress, _, by decide, by simpa using h.symm⟩)
    · split at h
      · exact .inr (.inr ⟨by assumption, by simpa using h.symm⟩)
      · obtain ⟨bs, -, ht⟩ := (s.withBytes_next_iff _ _ _ _).mp h
        exact .inl ⟨_, by simpa using ht.symm⟩
    · split at h
      · exact .inr (.inr ⟨by assumption, by simpa using h.symm⟩)
      · split at h
        · exact .inl ⟨_, by simpa using h.symm⟩
        · cases h

/-- A write always goes on, and this is what it can do. -/
theorem hostWrite_cases (width : AccessWidth) (off : BitVec 17) (v : Word) (s : State) : ∃ t,
    hostWrite width off v s = .next t ∧
      ((∃ e w, e ≠ ErrCode.noError ∧ t = (s.raiseError e w).respond none)
        ∨ (width = .w4 ∧ off.toNat < 0x100 ∧ t = (s.writeRegister off.toNat v).respond none)
        ∨ t = s.respond none
        ∨ (s.busy = false ∧ ∃ o, o % 4 = 0 ∧ o < s.cfg.bufBytes ∧ t = (s.setBytes o (bytesOfWord v)).respond none)
        ∨ (s.busy = false ∧ ∃ key, key < 256 * s.cfg.npoly ∧ t = (s.setCoeff key v).respond none)) := by
  unfold hostWrite
  split
  · exact ⟨_, rfl, .inl ⟨.badAccess, _, by decide, rfl⟩⟩
  · rename_i hb
    have hw : width = .w4 ∧ off.toNat % 4 = 0 := by simpa [badAccess] using hb
    obtain ⟨hw, ha⟩ := hw
    split
    · rename_i h; exact ⟨_, rfl, .inr (.inl ⟨hw, regionOf_register h, rfl⟩)⟩
    · exact ⟨_, rfl, .inr (.inr (.inl rfl))⟩
    · exact ⟨_, rfl, .inr (.inr (.inl rfl))⟩
    · exact ⟨_, rfl, .inl ⟨.badAddress, _, by decide, rfl⟩⟩
    · rename_i o h
      have := regionOf_bufWord h
      cases hbusy : s.busy
      · exact ⟨_, rfl, .inr (.inr (.inr (.inl ⟨rfl, o, by omega, this.2, rfl⟩)))⟩
      · exact ⟨_, rfl, .inl ⟨.accessWhileBusy, _, by decide, rfl⟩⟩
    · rename_i key h
      have := regionOf_coeff h
      cases hbusy : s.busy
      · exact ⟨_, rfl, .inr (.inr (.inr (.inr ⟨rfl, key, by omega, rfl⟩)))⟩
      · exact ⟨_, rfl, .inl ⟨.accessWhileBusy, _, by decide, rfl⟩⟩

/-! ### Moves and steps -/

theorem engine_idle {s : State} (h : s.phase = .idle) : engine s = .next s := by simp [engine, h]

theorem engine_running {s : State} {i : Instr} (h : s.phase = .running) (hi : commandCheck s.cfg s.lcmd s.larg = .ok i) :
    engine s = exec i s := by simp [engine, h, hi]

theorem engine_cases {s t : State} (h : engine s = .next t) :
    (s.phase = .idle ∧ t = s)
      ∨ (s.phase = .running ∧ ∃ i, commandCheck s.cfg s.lcmd s.larg = .ok i ∧ exec i s = .next t)
      ∨ (s.phase = .running ∧ ∃ e, commandCheck s.cfg s.lcmd s.larg = .error e ∧ t = s.dropLatched e) := by
  unfold engine at h
  cases hp : s.phase with
  | idle => exact .inl ⟨rfl, by simpa [hp] using h.symm⟩
  | running =>
    right
    cases hc : commandCheck s.cfg s.lcmd s.larg with
    | ok i => exact .inl ⟨rfl, i, rfl, by simpa [hp, hc] using h⟩
    | error e => exact .inr ⟨rfl, e, rfl, by simpa [hp, hc] using h.symm⟩

theorem deliver_cases {s t : State} (h : deliver s = .next t) :
    ∃ p n m, s.session = some p ∧ s.squeeze = some n ∧ s.sampler = some m ∧ t = { s with
      squeeze := none
      sampler := some { m with avail := m.avail + n * blockBytes s.cfg p.kind }
      portLog := s.portLog ++ [.data (n * blockBytes s.cfg p.kind)] } := by
  unfold deliver at h
  split at h
  · rename_i p n m hp hn hm
    exact ⟨p, n, m, hp, hn, hm, by simpa using h.symm⟩
  · cases h

theorem discardLate_cases {s t : State} (h : discardLate s = .next t) :
    ∃ n, s.abandoned = n + 1 ∧ t = { s with abandoned := n } := by
  unfold discardLate at h
  split at h
  · cases h
  · rename_i n hn
    exact ⟨n, hn, by simpa using h.symm⟩

/-- A step is the move at the head of the agenda, or the engine's. -/
theorem step_eq (s : State) :
    (s.agenda = [] ∧ step s = engine s)
      ∨ ∃ m rest, s.agenda = m :: rest ∧ step s = perform m { s with agenda := rest } := by
  unfold step nextMove
  cases h : s.agenda with
  | nil => exact .inl ⟨rfl, rfl⟩
  | cons m rest => exact .inr ⟨m, rest, rfl, rfl⟩

end Sys2Proof.Machine
end

