-- ==== Sys2Proof/Laws/Sampler.lean ====
section
/-! SUPPORT. The sampler's loop against the fully buffered stream (spec/43_samplers.md R275): what the inner loop consumes and
accepts from the bytes delivered is a number of whole chunks and their accepted fields, up to 256. -/

namespace Sys2Proof.Machine

variable (c : Config) (k : SamplerKind) (src : Nat → Byte)

@[simp] theorem chunkLength_eq : chunkLength k = chunkBytes k := by cases k <;> rfl

/-- Chunk `j` of a stream. -/
def streamChunk (j : Nat) : List Nat :=
  (List.range (chunkBytes k)).map (fun d => (src (chunkBytes k * j + d)).toNat)

/-- The fields that the machine reads from a chunk are those of the stream. -/
theorem chunkFields_streamChunk (j : Nat) : chunkFields c k (streamChunk k src j) = streamFields c k src j := by
  cases k <;> simp [streamChunk, chunkFields, streamFields, chunkBytes, List.range_succ]

/-- The machine's test and output of a field are the stream's. -/
theorem streamValue_eq (t : Nat) :
    streamValue c k t = if acceptField c k t then some (BitVec.ofNat 32 (outField c k t)) else none := by
  cases k <;> simp [streamValue, acceptField, outField, q]

/-- The coefficients of the accepted fields of one chunk, with no stop at 256. -/
def chunkAccepted (j : Nat) : List Word := (streamFields c k src j).filterMap (streamValue c k)

theorem chunkAccepted_eq (j : Nat) : chunkAccepted c k src j
    = ((chunkFields c k (streamChunk k src j)).filter (acceptField c k)).map (fun t => BitVec.ofNat 32 (outField c k t)) := by
  rw [chunkFields_streamChunk, chunkAccepted]
  induction streamFields c k src j with
  | nil => rfl
  | cons t ts ih =>
    rw [List.filterMap_cons, streamValue_eq, ih, List.filter_cons]
    cases acceptField c k t <;> rfl

@[simp] theorem streamCoeffs_zero : streamCoeffs c k src 0 = [] := rfl

theorem streamCoeffs_succ (n : Nat) :
    streamCoeffs c k src (n + 1) = streamCoeffs c k src n ++ chunkAccepted c k src n := by
  simp [streamCoeffs, List.range_succ, List.flatMap_append, chunkAccepted]

/-- The coefficients of fewer chunks begin those of more. -/
theorem streamCoeffs_prefix {m n : Nat} (h : m ≤ n) : streamCoeffs c k src m <+: streamCoeffs c k src n := by
  induction n with
  | zero => simp_all
  | succ n ih =>
    rcases Nat.lt_or_eq_of_le h with h | rfl
    · exact (ih (by omega)).trans (streamCoeffs_succ c k src n ▸ List.prefix_append _ _)
    · exact List.prefix_refl _

theorem streamCoeffs_length_mono {m n : Nat} (h : m ≤ n) :
    (streamCoeffs c k src m).length ≤ (streamCoeffs c k src n).length := (streamCoeffs_prefix c k src h).length_le

/-- The inner loop on the bytes from chunk `n` on: it consumes `j` whole chunks and takes what they accept as far as there is room;
it goes on while there is room, and stops when there is none or the next chunk is not wholly there. -/
theorem consume_eq (fuel : Nat) : ∀ (n room : Nat) (bs : List Byte), bs.length ≤ fuel →
    (∀ d (h : d < bs.length), bs[d] = src (chunkBytes k * n + d)) → ∃ j,
      (consume c k fuel room bs).2 = chunkBytes k * j ∧ chunkBytes k * j ≤ bs.length
      ∧ (consume c k fuel room bs).1
          = ((streamCoeffs c k src (n + j)).drop (streamCoeffs c k src n).length).take room
      ∧ (∀ i < j, (streamCoeffs c k src (n + i)).length < (streamCoeffs c k src n).length + room)
      ∧ ((streamCoeffs c k src n).length + room ≤ (streamCoeffs c k src (n + j)).length
          ∨ bs.length < chunkBytes k * (j + 1)) := by
  induction fuel with
  | zero =>
    intro n room bs hl hs
    have hp := chunkBytes_pos k
    refine ⟨0, by simp [consume], by simp, by simp [consume], by simp, .inr (by simp; omega)⟩
  | succ fuel ih =>
    intro n room bs hl hs
    have hp := chunkBytes_pos k
    simp only [consume]
    split
    · rename_i h
      obtain ⟨hroom, hlen⟩ := h
      have hge : chunkBytes k ≤ bs.length := by simp only [List.length_take] at hlen; omega
      have hchunk : (bs.take (chunkBytes k)).map BitVec.toNat = streamChunk k src n := by
        apply List.ext_getElem
        · simp [streamChunk]; omega
        · intro i h1 h2
          have hi : i < bs.length := by simp at h1; omega
          simp [streamChunk, hs i hi]
      have hnew : chunkCoeffs c k room (bs.take (chunkBytes k)) = (chunkAccepted c k src n).take room := by
        simp only [chunkCoeffs, takeFields_eq, hchunk, chunkAccepted_eq]
      obtain ⟨j, h1, h2, h3, h4, h5⟩ := ih (n + 1) (room - (chunkCoeffs c k room (bs.take (chunkBytes k))).length)
        (bs.drop (chunkBytes k)) (by simp; omega) (by
          intro d hd
          have hd' : chunkBytes k + d < bs.length := by simp at hd; omega
          simp only [List.getElem_drop, hs _ hd']
          congr 1
          ring)
      have hsucc := streamCoeffs_succ c k src n
      have hlsucc : (streamCoeffs c k src (n + 1)).length
          = (streamCoeffs c k src n).length + (chunkAccepted c k src n).length := by simp [hsucc]
      have hnl : (chunkCoeffs c k room (bs.take (chunkBytes k))).length = min room (chunkAccepted c k src n).length := by
        simp [hnew]
      have hmul : chunkBytes k * (j + 1) = chunkBytes k + chunkBytes k * j := by ring
      have hmul2 : chunkBytes k * (j + 1 + 1) = chunkBytes k + chunkBytes k * (j + 1) := by ring
      have e : n + 1 + j = n + (j + 1) := by omega
      rw [e] at h3 h5
      simp only [List.length_drop] at h2 h5
      refine ⟨j + 1, ?_, ?_, ?_, ?_, ?_⟩
      · simp only [h1]; omega
      · omega
      · dsimp only
        rw [h3, hnl, hnew]
        obtain ⟨r, hr⟩ := streamCoeffs_prefix c k src (show n + 1 ≤ n + (j + 1) by omega)
        rw [← hr, hsucc]
        rw [List.drop_left, List.append_assoc, List.drop_left, List.take_append]
        congr 1
        rcases Nat.le_total room (chunkAccepted c k src n).length with hle | hle
        · simp [Nat.min_eq_left hle, Nat.sub_eq_zero_of_le hle]
        · simp [Nat.min_eq_right hle]
      · intro i hi
        cases i with
        | zero => simpa using hroom
        | succ i =>
          have := h4 i (by omega)
          have e2 : n + 1 + i = n + (i + 1) := by omega
          rw [e2] at this
          have := streamCoeffs_length_mono c k src (show n + 1 ≤ n + (i + 1) by omega)
          omega
      · rcases h5 with h5 | h5
        · left
          have := streamCoeffs_length_mono c k src (show n + 1 ≤ n + (j + 1) by omega)
          omega
        · right; omega
    · rename_i h
      refine ⟨0, by simp, by simp, by simp, by simp, ?_⟩
      simp only [List.length_take, not_and] at h
      rcases Nat.eq_zero_or_pos room with hz | hz
      · left; simp [hz]
      · right
        have := h hz
        simp only [Nat.zero_add, Nat.mul_one]
        omega

/-- The inner loop of a sampler that tracks its stream: the chunks consumed so far are `n` and become `j`. -/
theorem consumeDelivered_eq (s : State) (m : Sampler) (h : Tracks k m s) : ∃ n j,
    m.pos = chunkBytes k * n ∧ n ≤ j ∧ (consumeDelivered s k m).pos = chunkBytes k * j ∧ chunkBytes k * j ≤ m.avail
      ∧ (consumeDelivered s k m).got = (streamCoeffs s.cfg k (s.streamByte k s.nonce) j).take 256
      ∧ (∀ i < j, (streamCoeffs s.cfg k (s.streamByte k s.nonce) i).length < 256)
      ∧ (256 ≤ (streamCoeffs s.cfg k (s.streamByte k s.nonce) j).length ∨ m.avail < chunkBytes k * (j + 1)) := by
  obtain ⟨-, ⟨n, hn, hg⟩, hshort, -, hwithin, -, -⟩ := h
  rw [chunkLength_eq] at hn
  have hl := length_streamBytes s k s.nonce m.pos (m.avail - m.pos)
  obtain ⟨j, h1, h2, h3, h4, h5⟩ := consume_eq s.cfg k (s.streamByte k s.nonce) (m.avail - m.pos) n (256 - m.got.length)
    (s.streamBytes k s.nonce m.pos (m.avail - m.pos)) (by rw [hl]) (by
      intro d hd
      rw [getElem_streamBytes _ _ _ _ _ _ hd, hn])
  rw [hl] at h2 h5
  rw [← hg] at h3 h4 h5
  have hmul : chunkBytes k * (n + j) = chunkBytes k * n + chunkBytes k * j := by ring
  have hmul1 : chunkBytes k * (n + j + 1) = chunkBytes k * n + chunkBytes k * (j + 1) := by ring
  refine ⟨n, n + j, hn, by omega, ?_, by omega, ?_, ?_, ?_⟩
  · simp only [consumeDelivered]; rw [h1]; omega
  · simp only [consumeDelivered, h3]
    obtain ⟨r, hr⟩ := streamCoeffs_prefix s.cfg k (s.streamByte k s.nonce) (show n ≤ n + j by omega)
    rw [← hr, ← hg, List.drop_left, List.take_append, List.take_of_length_le (by omega : m.got.length ≤ 256)]
  · intro i hi
    rcases Nat.lt_or_ge i n with hlt | hge
    · have := streamCoeffs_length_mono s.cfg k (s.streamByte k s.nonce) (show i ≤ n by omega)
      rw [← hg] at this
      omega
    · have := h4 (i - n) (by omega)
      rw [show n + (i - n) = i by omega] at this
      omega
  · rcases h5 with h5 | h5
    · left; omega
    · right; omega

/-! ### The counts -/

@[simp] theorem countWord_of_lt (free : Nat → Word) {v : Nat} (h : v < 2 ^ 32) : countWord free v = BitVec.ofNat 32 v := if_pos h

@[simp] theorem countWord_of_ge (free : Nat → Word) {v : Nat} (h : 2 ^ 32 ≤ v) : countWord free v = free v :=
  if_neg (Nat.not_lt.mpr h)

end Sys2Proof.Machine
end

