-- ==== Sys2Proof/Machine/Assembly.lean ====
section
/-! DEFINITION. The assembler's view (spec/30_encoding.md section 5): how a command is written (R111) and the host accesses that
each pseudo-instruction stands for (R112). Nothing of the machine depends on this file: a program in this notation is a sequence
of host moves. -/

namespace Sys2Proof.Machine

/-- One line of assembly: a mnemonic in lower case, the slots in the order in which they are written, and the value after `#`. -/
structure AsmLine where
  mnemonic : String
  slots : List Slot
  value : Option Word
  deriving DecidableEq, Repr

/-- Whether a command reads ARG (R103): a sampler's nonce, CHKNORM's bound, the byte offset of a PACK or an UNPACK. -/
def readsArg : Instr → Bool
  | .chknorm _ => true
  | i => (bufRole i).isSome || (samplerKind i).isSome

/-- How a command is written (R111); POWER2ROUND names its high destination, its low destination and its source, in this order. -/
def asmLine (i : Instr) (v : Word) : AsmLine :=
  let value := if readsArg i then some v else none
  match i with
  | .reduce rd => ⟨"reduce", [rd], value⟩
  | .freeze rd => ⟨"freeze", [rd], value⟩
  | .pwmul rd ra rb => ⟨"pwmul", [rd, ra, rb], value⟩
  | .ntt rd => ⟨"ntt", [rd], value⟩
  | .invntt rd => ⟨"invntt", [rd], value⟩
  | .add rd ra rb => ⟨"add", [rd, ra, rb], value⟩
  | .sub rd ra rb => ⟨"sub", [rd, ra, rb], value⟩
  | .shl rd => ⟨"shl", [rd], value⟩
  | .chknorm ra => ⟨"chknorm", [ra], value⟩
  | .power2round rd ra rb => ⟨"power2round", [rd, rb, ra], value⟩
  | .sampleUniform rd => ⟨"sample_uniform", [rd], value⟩
  | .sampleEta rd => ⟨"sample_eta", [rd], value⟩
  | .sampleGamma1m1 rd => ⟨"sample_gamma1m1", [rd], value⟩
  | .packEta ra => ⟨"pack_eta", [ra], value⟩
  | .packT0 ra => ⟨"pack_t0", [ra], value⟩
  | .packT1 ra => ⟨"pack_t1", [ra], value⟩
  | .packZ ra => ⟨"pack_z", [ra], value⟩
  | .packW1 ra => ⟨"pack_w1", [ra], value⟩
  | .unpackEta rd => ⟨"unpack_eta", [rd], value⟩
  | .unpackT0 rd => ⟨"unpack_t0", [rd], value⟩
  | .unpackT1 rd => ⟨"unpack_t1", [rd], value⟩
  | .unpackZ rd => ⟨"unpack_z", [rd], value⟩
  | .unpackW1 rd => ⟨"unpack_w1", [rd], value⟩

/-- The pseudo-instructions (R112). -/
inductive Pseudo where
  /-- `mnemonic operands, #v`. -/
  | commandWith (i : Instr) (v : Word)
  /-- `mnemonic operands`, with no `#`: ARG is left as it is. -/
  | command (i : Instr)
  /-- `wait`. -/
  | wait
  /-- `ack`. -/
  | ack
  /-- `ackerr`. -/
  | ackerr
  /-- `ld.p pS[i], v`. -/
  | ldP (k : Slot) (i : Fin 256) (v : Word)
  /-- `rd.p pS[i]`. -/
  | rdP (k : Slot) (i : Fin 256)
  /-- `ld.b off, v`, with `off` a multiple of 4. -/
  | ldB (off : Nat) (v : Word)
  /-- `rd.b off`. -/
  | rdB (off : Nat)
  deriving DecidableEq, Repr

/-- The aperture offset of `x[k][i]` (spec/20_memory.md R73). -/
def polyOffset (k : Slot) (i : Fin 256) : BitVec 17 := BitVec.ofNat 17 (0x10000 + 1024 * k.val + 4 * i.val)

/-- The aperture offset of `BUF[off]` (R74). -/
def bufOffset (off : Nat) : BitVec 17 := BitVec.ofNat 17 (0x2000 + off)

/-- The host accesses of a pseudo-instruction (R112). For `wait` this is one round of its loop: the host repeats it until
`waitOver`. -/
def Pseudo.expand : Pseudo → List Move
  | .commandWith i v => [.hostWrite .w4 0x044#17 v, .hostWrite .w4 0x040#17 (encode i)]
  | .command i => [.hostWrite .w4 0x040#17 (encode i)]
  | .wait => [.hostRead .w4 0x048#17]
  | .ack => [.hostWrite .w4 0x048#17 0x2#32]
  | .ackerr => [.hostWrite .w4 0x048#17 0x4#32]
  | .ldP k i v => [.hostWrite .w4 (polyOffset k i) v]
  | .rdP k i => [.hostRead .w4 (polyOffset k i)]
  | .ldB off v => [.hostWrite .w4 (bufOffset off) v]
  | .rdB off => [.hostRead .w4 (bufOffset off)]

/-- The end of `wait`: the STATUS word that the host has just read has BUSY = 0. -/
def waitOver (s : State) : Bool :=
  match s.response with
  | some w => !w.getLsbD 0
  | none => false

end Sys2Proof.Machine
end

