-- ==== Sys2Proof/Tests/Slice0.lean ====
section
/-! SUPPORT. Small tests of the model and one witness for each statement with hypotheses. The expected values come from the spec:
the encodings of spec/30_encoding.md and the vectors of spec/95_test_vectors.md. -/

namespace Sys2Proof.Tests

open Sys2Proof.Machine

/-! ### WellFormed refuses -/

/-- A build with three slots. -/
def threeSlotBuild : Config := { Config.reference with npoly := 3 }

theorem test_wellFormed_ok : (Instr.pwmul 2 0 1).wellFormed threeSlotBuild = true := by decide
theorem test_illFormed_rd : (Instr.ntt 3).wellFormed threeSlotBuild = false := by decide
theorem test_illFormed_ra : (Instr.packZ 3).wellFormed threeSlotBuild = false := by decide
theorem test_illFormed_three_rd : (Instr.add 3 0 1).wellFormed threeSlotBuild = false := by decide
theorem test_illFormed_three_ra : (Instr.add 0 3 1).wellFormed threeSlotBuild = false := by decide
theorem test_illFormed_three_rb : (Instr.add 0 1 3).wellFormed threeSlotBuild = false := by decide
theorem test_illFormed_alias : (Instr.power2round 6 5 6).wellFormed Config.reference = false := by decide
theorem test_wellFormed_source_alias : (Instr.power2round 5 5 6).wellFormed Config.reference = true := by decide

/-! ### Decoding: every constructor, its word written out from the fields of R101 (Z1, RB, RA, RD, Z0, OP) and the opcode of R105 -/

theorem test_decode_reduce : decode 0b000000000000_0000_0000_1011_00_000001#32 = .ok (.reduce 11) := by decide
theorem test_decode_freeze : decode 0b000000000000_0000_0000_1011_00_000010#32 = .ok (.freeze 11) := by decide
theorem test_decode_pwmul : decode 0b000000000000_1110_0101_1001_00_000011#32 = .ok (.pwmul 9 5 14) := by decide
theorem test_decode_ntt : decode 0b000000000000_0000_0000_1011_00_000100#32 = .ok (.ntt 11) := by decide
theorem test_decode_invntt : decode 0b000000000000_0000_0000_1011_00_000101#32 = .ok (.invntt 11) := by decide
theorem test_decode_add : decode 0b000000000000_1110_0101_1001_00_000110#32 = .ok (.add 9 5 14) := by decide
theorem test_decode_sub : decode 0b000000000000_1110_0101_1001_00_000111#32 = .ok (.sub 9 5 14) := by decide
theorem test_decode_shl : decode 0b000000000000_0000_0000_1011_00_001000#32 = .ok (.shl 11) := by decide
theorem test_decode_chknorm : decode 0b000000000000_0000_1101_0000_00_001001#32 = .ok (.chknorm 13) := by decide
theorem test_decode_power2round : decode 0b000000000000_1110_0101_1001_00_001010#32 = .ok (.power2round 9 5 14) := by decide
theorem test_decode_sampleUniform : decode 0b000000000000_0000_0000_1011_00_010000#32 = .ok (.sampleUniform 11) := by decide
theorem test_decode_sampleEta : decode 0b000000000000_0000_0000_1011_00_010001#32 = .ok (.sampleEta 11) := by decide
theorem test_decode_sampleGamma1m1 : decode 0b000000000000_0000_0000_1011_00_010010#32 = .ok (.sampleGamma1m1 11) := by decide
theorem test_decode_packEta : decode 0b000000000000_0000_1101_0000_00_011000#32 = .ok (.packEta 13) := by decide
theorem test_decode_packT0 : decode 0b000000000000_0000_1101_0000_00_011001#32 = .ok (.packT0 13) := by decide
theorem test_decode_packT1 : decode 0b000000000000_0000_1101_0000_00_011010#32 = .ok (.packT1 13) := by decide
theorem test_decode_packZ : decode 0b000000000000_0000_1101_0000_00_011011#32 = .ok (.packZ 13) := by decide
theorem test_decode_packW1 : decode 0b000000000000_0000_1101_0000_00_011100#32 = .ok (.packW1 13) := by decide
theorem test_decode_unpackEta : decode 0b000000000000_0000_0000_1011_00_100000#32 = .ok (.unpackEta 11) := by decide
theorem test_decode_unpackT0 : decode 0b000000000000_0000_0000_1011_00_100001#32 = .ok (.unpackT0 11) := by decide
theorem test_decode_unpackT1 : decode 0b000000000000_0000_0000_1011_00_100010#32 = .ok (.unpackT1 11) := by decide
theorem test_decode_unpackZ : decode 0b000000000000_0000_0000_1011_00_100011#32 = .ok (.unpackZ 11) := by decide
theorem test_decode_unpackW1 : decode 0b000000000000_0000_0000_1011_00_100100#32 = .ok (.unpackW1 11) := by decide

/-! ### Refused words (spec/95_test_vectors.md section 7, spec/30_encoding.md R106, R107) -/

theorem test_decode_reserved_opcodes :
    [0x00, 0x0B, 0x0F, 0x13, 0x17, 0x1D, 0x1F, 0x25, 0x27, 0x28, 0x3F].all
      (fun w => decide (decode (BitVec.ofNat 32 w) = .error .illegalOpcode)) = true := by decide
theorem test_decode_illegal_field :
    [0x000000C4, 0x00001304, 0x00100203, 0x00000109, 0x00010004].all
      (fun w => decide (decode (BitVec.ofNat 32 w) = .error .illegalField)) = true := by decide
theorem test_encode_pwmul : encode (.pwmul 2 0 1) = 0x00010203#32 := by decide
theorem test_encode_power2round : encode (.power2round 6 5 7) = 0x0007560A#32 := by decide
theorem test_table_word : decodeTableWord 32 0x00044407 = some (.sub 4 4 4) := by decide

/-! ### States and observations -/

/-- 256 coefficients: `p`, then `v` to the end. -/
def pad (p : List Nat) (v : Nat) : List Nat := p ++ List.replicate (256 - p.length) v

theorem length_pad (p : List Nat) (v : Nat) (h : p.length ≤ 256) : (pad p v).length = 256 := by simp [pad, h]

/-- The reset state with slot 0 holding `p`. -/
def one (p : List Nat) : State := State.reset.setPoly 0 p

/-- The reset state with slot 0 holding `p` and slot 1 holding `r`. -/
def two (p r : List Nat) : State := (State.reset.setPoly 0 p).setPoly 1 r

/-- What slot `k` holds after a command; nothing if it stopped. -/
def after (k : Slot) : Result → List Nat
  | .next t => (t.poly k).getD []
  | _ => []

/-- The `n` bytes of BUF from `off` on after a command; nothing if it stopped. -/
def bytesAfter (off n : Nat) : Result → List Byte
  | .next t => (t.bufBytes off n).getD []
  | _ => []

/-- Whether an outcome is a next state with a property. -/
def goesOn (r : Result) (f : State → Bool) : Bool :=
  match r with
  | .next t => f t
  | _ => false

/-- A command in place, on slot 0. -/
theorem after_inPlace (f : List Nat → List Nat) (p : List Nat) (hp : p.length = 256)
    (hf : ∀ r, r.length = 256 → (f r).length = 256) :
    after 0 (inPlace f 0 (one p)) = (f (p.map (· % 2 ^ 32))).map (· % 2 ^ 32) := by
  have hq : (one p).poly 0 = some (p.map (· % 2 ^ 32)) := State.poly_setPoly_same _ _ _ hp
  rw [inPlace, State.withPoly, hq]
  exact congrArg (Option.getD · []) (State.poly_setPoly_same (one p) 0 _ (hf _ (by simp [hp])))

/-- A command from slots 0 and 1 into slot 2. -/
theorem after_threeSlots (f : Nat → Nat → Nat) (p r : List Nat) (hp : p.length = 256) (hr : r.length = 256) :
    after 2 (threeSlots f 2 0 1 (two p r))
      = (List.zipWith f (p.map (· % 2 ^ 32)) (r.map (· % 2 ^ 32))).map (· % 2 ^ 32) := by
  have hq : (two p r).poly 0 = some (p.map (· % 2 ^ 32)) :=
    (State.poly_setPoly_other _ 0 1 r (by omega) (by decide)).trans (State.poly_setPoly_same _ _ _ hp)
  have hs : (two p r).poly 1 = some (r.map (· % 2 ^ 32)) := State.poly_setPoly_same _ _ _ hr
  rw [threeSlots, State.withPoly, hq]
  dsimp only
  rw [State.withPoly, hs]
  exact congrArg (Option.getD · []) (State.poly_setPoly_same (two p r) 2 _ (by simp [hp, hr]))

/-- A PACK of slot 0 at offset 0. -/
theorem bytesAfter_pack (r : Role) (p : List Nat) (hp : p.length = 256) :
    bytesAfter 0 (roleSize Config.reference r) (pack r 0 (one p))
      = packPoly Config.reference r (p.map (· % 2 ^ 32)) := by
  have h := State.bufBytes_setBytes_same (one p) 0 (packPoly Config.reference r (p.map (· % 2 ^ 32)))
  rw [length_packPoly] at h
  have hc : (one p).cfg = Config.reference := rfl
  have ho : (one p).offset = 0 := rfl
  have hq : (one p).poly 0 = some (p.map (· % 2 ^ 32)) := State.poly_setPoly_same _ _ _ hp
  rw [pack, State.withPoly, hq, ho, hc]
  exact congrArg (Option.getD · []) h

/-- An UNPACK from offset 0 into slot 4. -/
theorem after_unpack (r : Role) (bs : List Byte) (h : bs.length = roleSize Config.reference r) :
    after 4 (unpack r 4 (State.reset.setBytes 0 bs)) = (unpackBytes Config.reference r bs).map (· % 2 ^ 32) := by
  have hb := State.bufBytes_setBytes_same State.reset 0 bs
  rw [h] at hb
  have hc : (State.reset.setBytes 0 bs).cfg = Config.reference := rfl
  have ho : (State.reset.setBytes 0 bs).offset = 0 := rfl
  rw [unpack, State.withBytes, ho, hc, hb]
  have hp := State.poly_setPoly_same (State.reset.setBytes 0 bs) 4 (unpackBytes Config.reference r bs)
    (length_unpackBytes _ _ _)
  simp only [after, State.complete_poly, hp, Option.getD_some]

/-! ### The commands on the vectors of spec/95_test_vectors.md sections 2 to 6 -/

theorem test_reduce : (after 0 (exec (.reduce 0)
    (one (pad [0, 8380416, 8380417, 16760834, 8388608, 134086672, 4294967295] 0)))).take 7
    = [0, 8380416, 8380417, 8380417, 8191, 8380417, 12574208] := by
  rw [exec, execReduce, after_inPlace _ _ (length_pad _ _ (by decide)) (fun r h => by simp [h])]; decide +kernel
theorem test_freeze : (after 0 (exec (.freeze 0)
    (one (pad [0, 8380417, 16760833, 16760834, 8388607, 2147483648, 4294967295] 0)))).take 7
    = [0, 0, 8380416, 0, 8190, 2096896, 4193791] := by
  rw [exec, execFreeze, after_inPlace _ _ (length_pad _ _ (by decide)) (fun r h => by simp [h])]; decide +kernel
theorem test_pwmul : (after 2 (exec (.pwmul 2 0 1)
    (two (pad [2, 0, 4193792, 184369173, 4294967295] 0) (pad [3, 7, 4193792, 184369173, 4294967295] 0)))).take 5
    = [7692865, 0, 4193792, 8265825, 8265823] := by
  rw [exec, execPwmul, after_threeSlots _ _ _ (length_pad _ _ (by decide)) (length_pad _ _ (by decide))]; decide +kernel
theorem test_add_wraps : (after 2 (exec (.add 2 0 1)
    (two (pad [5, 8380416, 2147483647, 2147483648] 0) (pad [3, 8380416, 2147483647, 2147483648] 0)))).take 4
    = [8, 16760832, 4294967294, 0] := by
  rw [exec, execAdd, after_threeSlots _ _ _ (length_pad _ _ (by decide)) (length_pad _ _ (by decide))]; decide +kernel
theorem test_sub_bias : (after 2 (exec (.sub 2 0 1)
    (two (pad [5, 0, 0, 0, 0, 4294967295] 0) (pad [3, 0, 16760833, 16760834, 16760835, 0] 0)))).take 6
    = [16760836, 16760834, 1, 0, 4294967295, 16760833] := by
  rw [exec, execSub, after_threeSlots _ _ _ (length_pad _ _ (by decide)) (length_pad _ _ (by decide))]; decide +kernel
theorem test_shl : (after 0 (exec (.shl 0) (one (pad [0, 1, 3, 1023, 524287, 524288, 8380416] 0)))).take 7
    = [0, 8192, 24576, 8380416, 4294959104, 0, 4227858432] := by
  rw [exec, execShl, after_inPlace _ _ (length_pad _ _ (by decide)) (fun r h => by simp [h])]; decide +kernel
theorem test_chkval : [0, 1, 8380416, 4190208, 4190209, 8380417, 8380418, 2151673856, 2151673857, 4294967295].map chkval
    = [0, 1, 1, 4190208, 4190208, 0, 4294967295, 2151673857, 2151673857, 4294967295] := by decide +kernel
theorem test_chknorm_bounds : [4, 5, 6].map (fun b => goesOn (exec (.chknorm 0)
    { one (pad [0, 0, 0, 0, 0, 0, 0, 5, 0, 8380414] 0) with larg := BitVec.ofNat 32 b }) (fun t => t.norm))
    = [true, true, false] := by decide +kernel
theorem test_power2round_d13 : [4097, 0, 1, 4096, 4190208, 8380416, 4294967295].map (fun a => (highPart 13 a, lowPart 13 a))
    = [(1, 8376322), (0, 8380417), (0, 8380418), (0, 8384513), (511, 8384513), (1023, 8380417), (0, 8380416)] := by
  decide +kernel
theorem test_power2round_d14 : [0, 4097, 8192, 8193, 8380416].map (fun a => (highPart 14 a, lowPart 14 a))
    = [(0, 8380417), (0, 8384514), (0, 8388609), (1, 8372226), (511, 8388609)] := by decide +kernel
theorem test_ntt_of_one : (after 0 (exec (.ntt 0) (one (pad [1] 0)))).take 8
    = [1, 16760835, 25141252, 25141252, 33521669, 33521669, 33521669, 33521669] := by
  rw [exec, execNtt, after_inPlace _ _ (length_pad _ _ (by decide)) length_forwardNtt]; decide +kernel
theorem test_ntt_of_X : (after 0 (exec (.ntt 0) (one (pad [0, 1] 0)))).take 4
    = [1753, 16759081, 23205831, 27076671] := by
  rw [exec, execNtt, after_inPlace _ _ (length_pad _ _ (by decide)) length_forwardNtt]; decide +kernel
theorem test_invntt_of_ones : after 0 (exec (.invntt 0) (one (pad [] 1))) = pad [4193792] 8380417 := by
  rw [exec, execInvntt, after_inPlace _ _ (length_pad _ _ (by decide)) length_inverseNtt]; decide +kernel
theorem test_pack_eta : (bytesAfter 0 96 (exec (.packEta 0)
    (one (pad [8380419, 8380415, 1, 0, 8380416, 8380419, 2, 8380417] 0)))).take 6
    = [0x60, 0x34, 0x40, 0x92, 0x24, 0x49] := by
  rw [exec, execPackEta, show 96 = roleSize Config.reference .eta from rfl, bytesAfter_pack _ _ (length_pad _ _ (by decide))]; decide +kernel
theorem test_pack_t0 : (bytesAfter 0 416 (exec (.packT0 0)
    (one (pad [8376322, 0, 4096, 8380416, 8380417] 0)))).take 13
    = [0xFF, 0x1F, 0x00, 0x02, 0x80, 0x00, 0x08, 0x00, 0x01, 0x20, 0x00, 0x04, 0x80] := by
  rw [exec, execPackT0, show 416 = roleSize Config.reference .t0 from rfl, bytesAfter_pack _ _ (length_pad _ _ (by decide))]; decide +kernel
theorem test_pack_t1 : (bytesAfter 0 320 (exec (.packT1 0) (one (pad [0, 1, 2, 3, 4, 5, 6, 7] 0)))).take 10
    = [0x00, 0x04, 0x20, 0xC0, 0x00, 0x04, 0x14, 0x60, 0xC0, 0x01] := by
  rw [exec, execPackT1, show 320 = roleSize Config.reference .t1 from rfl, bytesAfter_pack _ _ (length_pad _ _ (by decide))]; decide +kernel
theorem test_pack_z : (bytesAfter 0 640 (exec (.packZ 0) (one (pad [1, 8380416, 524287, 7856129] 0)))).take 10
    = [0xFE, 0xFF, 0x07, 0x00, 0x80, 0x00, 0x00, 0xF0, 0xFF, 0xFF] := by
  rw [exec, execPackZ, show 640 = roleSize Config.reference .z from rfl, bytesAfter_pack _ _ (length_pad _ _ (by decide))]; decide +kernel
theorem test_pack_z_18 : (packPoly { Config.reference with zbits := 18, gamma1 := 131072 } .z
    [1, 8380416, 131071, 8249345]).take 9 = [0xFE, 0xFF, 0x01, 0x00, 0x08, 0x00, 0xC0, 0xFF, 0xFF] := by decide +kernel
theorem test_pack_w1 : (bytesAfter 0 128 (exec (.packW1 0) (one (pad [0, 1, 2, 3, 4, 5, 6, 23] 0)))).take 4
    = [0x10, 0x32, 0x54, 0x76] := by
  rw [exec, execPackW1, show 128 = roleSize Config.reference .w1 from rfl, bytesAfter_pack _ _ (length_pad _ _ (by decide))]; decide +kernel
theorem test_unpack_eta : (after 4 (exec (.unpackEta 4)
    (State.reset.setBytes 0 ([0x60, 0x34, 0x40] ++ List.replicate 93 0xFF)))).take 9
    = [2, 8380415, 1, 0, 8380416, 2, 2, 0, 8380412] := by
  rw [exec, execUnpackEta, after_unpack _ _ (by rw [List.length_append, List.length_replicate]; rfl)]; decide +kernel
theorem test_unpack_t0 : (after 4 (exec (.unpackT0 4)
    (State.reset.setBytes 0 ([0xFF, 0x1F, 0x00, 0x02, 0x80, 0x00, 0x08] ++ List.replicate 409 0)))).take 4
    = [8376322, 0, 4096, 8380416] := by
  rw [exec, execUnpackT0, after_unpack _ _ (by rw [List.length_append, List.length_replicate]; rfl)]; decide +kernel
theorem test_unpack_t1 : (after 4 (exec (.unpackT1 4)
    (State.reset.setBytes 0 ([0x00, 0x04, 0x20, 0xC0, 0x00] ++ List.replicate 315 0xFF)))).take 5
    = [0, 1, 2, 3, 1023] := by
  rw [exec, execUnpackT1, after_unpack _ _ (by rw [List.length_append, List.length_replicate]; rfl)]; decide +kernel
theorem test_unpack_z : (after 4 (exec (.unpackZ 4) (State.reset.setBytes 0
    ([0xFE, 0xFF, 0x07, 0x00, 0x80, 0x00, 0x00, 0xF0, 0xFF, 0xFF] ++ List.replicate 630 0)))).take 5
    = [1, 8380416, 524287, 7856129, 524287] := by
  rw [exec, execUnpackZ, after_unpack _ _ (by rw [List.length_append, List.length_replicate]; rfl)]; decide +kernel
theorem test_unpack_w1 : (after 4 (exec (.unpackW1 4) (State.reset.setBytes 0 ([0xA3] ++ List.replicate 127 0xFF)))).take 3
    = [3, 10, 15] := by
  rw [exec, execUnpackW1, after_unpack _ _ (by rw [List.length_append, List.length_replicate]; rfl)]; decide +kernel

/-- A sampler command of kind `k` that has all of `bytes` of its stream delivered, in `blk` blocks. -/
def sampling (k : SamplerKind) (op : Word) (bytes : List Nat) (blk : Nat) : State :=
  { State.reset with
    lcmd := op, larg := 7#32, phase := .running, busy := true
    streams := [⟨k, 7#16, bytes.map (BitVec.ofNat 8)⟩], session := some ⟨k, 7#16⟩
    sampler := some ⟨[], 0, bytes.length, blk⟩ }

theorem test_sample_uniform : (fun m : Sampler => (m.got.take 4, m.got.length, m.pos))
    (consumeDelivered (sampling .U 0x10#32 (List.range 840) 5) .U ⟨[], 0, 840, 5⟩)
    = ([131328, 328707, 526086, 723465], 256, 771) := by decide +kernel
theorem test_sample_eta : (fun m : Sampler => (m.got.take 8, m.got.length, m.pos))
    (consumeDelivered (sampling .E 0x11#32 (List.range 256 ++ List.range 16) 2) .E ⟨[], 0, 272, 2⟩)
    = ([8380419, 8380419, 8380418, 8380419, 8380417, 8380419, 8380416, 8380419], 256, 157) := by decide +kernel
theorem test_sample_gamma1m1 : (fun m : Sampler => (m.got.take 2, m.got.length, m.pos))
    (consumeDelivered (sampling .G 0x12#32 ([0xFE, 0xFF, 0xFF, 0xFF, 0xFF] ++ List.replicate 675 0) 5) .G ⟨[], 0, 680, 5⟩)
    = ([7856130, 8904704], 256, 645) := by decide +kernel
theorem test_sample_carries_over : (fun m : Sampler => (m.got.length, m.pos))
    (consumeDelivered (sampling .G 0x12#32 (List.replicate 135 0xFF ++ [0x01]) 1) .G ⟨[], 0, 136, 1⟩) = (0, 135) := by
  decide +kernel

/-! ### The host interface (spec/95_test_vectors.md sections 7 and 8) -/

theorem test_submit_statuses :
    [0x00000000, 0x000000C4, 0x0006560A, 0x0000001B].map (fun w =>
      ((State.reset.setArg 960#32).submit (BitVec.ofNat 32 w)).statusWord.toNat) = [0x104, 0x204, 0x404, 0x504] := by decide
theorem test_submit_bad_slot : (({ State.reset with cfg := threeSlotBuild }).submit 0x304#32).statusWord = 0x304#32 := by decide
theorem test_submit_while_busy : ((State.reset.submit 0x304#32).submit 0x104#32).statusWord = 0x605#32 := by decide
theorem test_status_of_refused_reads :
    [hostRead .w4 0x14000#17 State.reset, hostRead .w1 0x10000#17 State.reset, hostRead .w4 0x10002#17 State.reset].map
      (fun r => goesOn r (fun t => t.response == some 0#32 && t.statusWord.toNat / 256 == t.errcode.code
        && (t.errcode == .badAddress || t.errcode == .badAccess))) = [true, true, true] := by decide
theorem test_zeta_read : goesOn (hostRead .w4 0x1004#17 State.reset) (fun t => t.response == some 25847#32) = true := by decide
theorem test_unwritten_read_faults :
    (match hostRead .w4 0x10000#17 State.reset with | .fault f => some f | _ => none) = some (.unwrittenRead .slotFile) := by
  decide
theorem test_sampler_opens : goesOn (step (State.reset.withFetchWord 32 0x311)) (fun t =>
    t.portLog == [.opened .E 0#16, .squeeze 2] && t.busy && !t.done) = true := by decide
theorem test_acceptance_creates_the_sampler_state : [0x311, 0x304].map (fun w => (State.reset.submit (BitVec.ofNat 32 w)).sampler)
    = [some ⟨[], 0, 0, 0⟩, none] := by decide
theorem test_soft_reset_closes : ((sampling .E 0x311#32 [] 2).softReset).portLog = [.closed] := by decide +kernel

/-! ### The assembler's view (spec/30_encoding.md R111 to R113) -/

theorem test_asm_power2round : (asmLine (.power2round 6 5 7) 0).slots = [6, 7, 5] := by decide
theorem test_asm_chknorm : (Pseudo.commandWith (.chknorm 4) 9#32).expand
    = [.hostWrite .w4 0x44#17 9#32, .hostWrite .w4 0x40#17 0x00004009#32] := by decide
theorem test_asm_ld_p : (Pseudo.ldP 2 3 7#32).expand = [.hostWrite .w4 0x1080C#17 7#32] := by decide


/-! ### Witnesses: concrete states and operands that meet the hypotheses of the statements -/

/-- Slots 0 to 3 full of ones, BUF full of zeros. -/
def ready : State :=
  { State.reset with slots := numberFrom 0 (List.replicate 1024 1#32), buf := numberFrom 0 (List.replicate 1024 0#8) }

theorem ready_coeff (k i : Nat) (h : 256 * k + i < 1024) : ready.coeff k i = some 1#32 := by
  simp [-List.reduceReplicate, State.coeff, ready, slotKey, read_numberFrom, h]

theorem ready_readable (k : Slot) (h : k.val < 4) : ready.Readable k := fun i hi => by
  rw [ready_coeff k i (by omega)]; rfl

theorem ready_val (k : Slot) (i : Nat) (hk : k.val < 4) (hi : i < 256) : ready.val k i = 1 := by
  rw [State.val, ready_coeff k i (by omega)]; rfl

theorem ready_bytes (off n : Nat) (h : off + n ≤ 1024) : ready.BytesReadable off n := fun i hi => by
  simp [-List.reduceReplicate, State.bufByte, ready, read_numberFrom, show off + i < 1024 by omega]

theorem one_readable (p : List Nat) (hp : p.length = 256) : (one p).Readable 0 := fun i hi => by
  rw [one, show ((0 : Slot) : Nat) = 0 from rfl]
  exact (congrArg Option.isSome (State.reset.setPoly_coeff_same 0 p i (by omega))).trans rfl

theorem one_val (p : List Nat) (i : Nat) (hi : i < p.length) : (one p).val 0 i = p[i] % 2 ^ 32 := by
  rw [State.val, one, State.reset.setPoly_coeff_same 0 p i hi]; simp

theorem one_val_all (p : List Nat) (f : Nat → Prop) (hp : p.length = 256) (h : ∀ v ∈ p, f (v % 2 ^ 32)) :
    ∀ i < 256, f ((one p).val 0 i) := fun i hi => by
  rw [one_val p i (by omega)]; exact h _ (List.getElem_mem _)

theorem mem_pad {p : List Nat} {v w : Nat} (h : w ∈ pad p v) : w ∈ p ∨ w = v := by
  simp only [pad, List.mem_append, List.mem_replicate] at h; tauto

/-! The step. -/

theorem witness_step_runs_ntt :
    let s := { ready with phase := .running, lcmd := 0x4#32 }
    s.phase = .running ∧ decode s.lcmd = .ok (.ntt 0) ∧ (Instr.ntt 0).wellFormed s.cfg = true
      ∧ (∀ r, bufRole (.ntt 0) = some r → s.larg.toNat + roleSize s.cfg r ≤ s.cfg.bufBytes) ∧ s.agenda = [] := by
  refine ⟨rfl, by decide, by decide, ?_, rfl⟩
  intro r h; cases h
theorem witness_step_runs_pack_at_the_end_of_buf :
    let s := { ready with phase := .running, lcmd := 0x18#32, larg := 928#32, agenda := [.core, .powerOn] }
    s.phase = .running ∧ decode s.lcmd = .ok (.packEta 0) ∧ (Instr.packEta 0).wellFormed s.cfg = true
      ∧ (∀ r, bufRole (.packEta 0) = some r → s.larg.toNat + roleSize s.cfg r ≤ s.cfg.bufBytes)
      ∧ s.agenda = .core :: [.powerOn] := by
  refine ⟨rfl, by decide, by decide, ?_, rfl⟩
  intro r h; cases h; decide
theorem witness_step_idle : State.reset.phase = .idle ∧ State.reset.agenda = [] := ⟨rfl, rfl⟩
theorem witness_fetch_word :
    let s := { ready with arg := 384#32 }
    (Instr.packZ 0).wellFormed s.cfg = true
      ∧ (∀ r, bufRole (.packZ 0) = some r → s.arg.toNat + roleSize s.cfg r ≤ s.cfg.bufBytes) := by
  refine ⟨by decide, ?_⟩
  intro r h; cases h; decide

/-- A sampler that waits for the DATA of its first SQUEEZE, which comes next. -/
def waiting : State :=
  { sampling .E 0x311#32 [] 2 with
    streams := [⟨.E, 7#16, List.replicate 272 0#8⟩], squeeze := some 2, agenda := [.data] }

theorem witness_inv : waiting.Inv where
  legal := by decide
  slots_wf := by decide
  slots_below := fun _ h => nomatch h
  buf_wf := by decide
  buf_below := fun _ h => nomatch h
  busy_running := by decide
  busy_not_done := by decide
  err_code := by decide
  err_info := by decide
  latched := fun _ => ⟨.sampleEta 3, by rfl⟩
  session_latched := fun p hp => by cases hp; exact ⟨rfl, by decide, .sampleEta 3, by rfl, rfl⟩
  sampler_running := ⟨fun _ => ⟨rfl, .sampleEta 3, .E, rfl, rfl⟩, fun _ => rfl⟩
  session_sampler := fun _ => rfl
  sampler_fresh := fun h => nomatch h
  squeeze_session := by decide

theorem witness_tracks : Tracks .E ⟨[], 0, 0, 2⟩ waiting where
  opened := rfl
  chunks := ⟨0, by decide, rfl⟩
  short := by decide
  delivered := by decide
  within := by decide
  requested := by decide
  needed := .inl (by decide)

theorem witness_streamInv : waiting.StreamInv := fun p m hp hm => by cases hp; cases hm; exact witness_tracks
theorem witness_step_keeps : ∃ t, step waiting = .next t := ⟨_, rfl⟩
theorem witness_norm_by_chknorm : goesOn (step { ready with phase := .running, lcmd := 0x9#32 }) (fun t => t.norm != ready.norm)
    = true := by decide +kernel
theorem witness_norm_by_power_on : ∃ t, step { State.reset with norm := true, agenda := [.powerOn] } = .next t ∧ t.norm ≠ true :=
  ⟨_, rfl, by decide⟩
theorem witness_norm_by_soft_reset :
    ∃ t, step { State.reset with norm := true, agenda := [.hostWrite .w4 0x4C#17 1#32] } = .next t ∧ t.norm ≠ true :=
  ⟨_, rfl, by decide⟩
theorem witness_command_starts :
    let s := { State.reset with agenda := [.hostWrite .w4 0x40#17 0x304#32] }
    s.phase = .idle ∧ s.busy = false ∧ ∃ t, step s = .next t ∧ t.busy = true := ⟨rfl, rfl, _, rfl, by decide⟩

/-! Submission, one witness a clause. -/

theorem witness_submit_opcode : State.reset.busy = false ∧ decode 0x0B#32 = .error .illegalOpcode := by decide
theorem witness_submit_field : decode 0x00100203#32 = .error .illegalField := by decide
theorem witness_submit_slot : decode 0x304#32 = .ok (.ntt 3) ∧ (Instr.ntt 3).slotsExist threeSlotBuild = false := by decide
theorem witness_submit_alias : decode 0x0006560A#32 = .ok (.power2round 6 5 6)
    ∧ (Instr.power2round 6 5 6).slotsExist Config.reference = true
    ∧ (Instr.power2round 6 5 6).destinationsDiffer = false := by decide
theorem witness_submit_range :
    let s := { State.reset with arg := 385#32 }
    s.busy = false ∧ decode 0x1B#32 = .ok (.packZ 0) ∧ (Instr.packZ 0).wellFormed s.cfg = true ∧ packInstr 0 .z = .packZ 0
      ∧ s.cfg.bufBytes < s.arg.toNat + packedSize s.cfg .z := by decide
theorem witness_submit_range_no_wrap :
    let s := { State.reset with arg := 0xFFFFFFFF#32 }
    s.cfg.bufBytes < s.arg.toNat + packedSize s.cfg .eta := by decide
theorem witness_submit_accepted :
    let s := { State.reset with arg := 384#32 }
    s.busy = false ∧ decode 0x1B#32 = .ok (.packZ 0) ∧ (Instr.packZ 0).wellFormed s.cfg = true
      ∧ ∀ r p, .packZ 0 = packInstr p r ∨ .packZ 0 = unpackInstr p r → s.arg.toNat + packedSize s.cfg r ≤ s.cfg.bufBytes := by
  refine ⟨rfl, by decide, by decide, fun r p h => ?_⟩
  cases r <;> simp only [packInstr, unpackInstr, reduceCtorEq, or_self] at h
  decide
theorem witness_submit_sampler : decode 0x311#32 = .ok (.sampleEta 3) ∧ (0x311#32).toNat % 64 = 0x11
    ∧ (Instr.sampleEta 3).wellFormed Config.reference = true
    ∧ ∀ r p, Instr.sampleEta 3 ≠ packInstr p r ∧ Instr.sampleEta 3 ≠ unpackInstr p r := by
  refine ⟨by decide, by decide, by decide, fun r p => ?_⟩
  cases r <;> simp [packInstr, unpackInstr]
theorem witness_busy : waiting.busy = true := rfl
theorem witness_arg : ∃ t, exec (.sampleEta 3) waiting = .next t := ⟨_, rfl⟩
theorem witness_ackerr : (0x4#32).getLsbD 2 = true := by decide

/-! Host accesses, at the ends of the ranges. -/

theorem witness_bad_access : (AccessWidth.w1 ≠ .w4 ∨ (0x10000#17).toNat % 4 ≠ 0) ∧ (AccessWidth.w8 ≠ .w4 ∨ (0x2000#17).toNat % 4 ≠ 0)
    ∧ (AccessWidth.w4 ≠ .w4 ∨ (0x10002#17).toNat % 4 ≠ 0) ∧ (AccessWidth.w4 ≠ .w4 ∨ (0x1FFFF#17).toNat % 4 ≠ 0) := by decide
theorem witness_bad_address : State.reset.cfg.legal = true ∧ ∀ off ∈ [0x100#17, 0xFFC, 0x1800, 0x1FFC, 0x2400, 0xFFFC, 0x14000, 0x1FFFC],
    off.toNat % 4 = 0 ∧ ((0x100 ≤ off.toNat ∧ off.toNat < 0x1000) ∨ (0x1800 ≤ off.toNat ∧ off.toNat < 0x2000)
      ∨ (0x2000 + State.reset.cfg.bufBytes ≤ off.toNat ∧ off.toNat < 0x10000)
      ∨ 0x10000 + 1024 * State.reset.cfg.npoly ≤ off.toNat) := by
  refine ⟨by decide, ?_⟩
  simp only [List.mem_cons, List.not_mem_nil, or_false, forall_eq_or_imp, forall_eq]
  decide
theorem witness_windows_busy : waiting.cfg.legal = true ∧ waiting.busy = true ∧ ∀ off ∈ [0x2000#17, 0x23FC, 0x10000, 0x13FFC],
    off.toNat % 4 = 0 ∧ ((0x2000 ≤ off.toNat ∧ off.toNat < 0x2000 + waiting.cfg.bufBytes)
      ∨ (0x10000 ≤ off.toNat ∧ off.toNat < 0x10000 + 1024 * waiting.cfg.npoly)) := by
  refine ⟨by decide, rfl, ?_⟩
  simp only [List.mem_cons, List.not_mem_nil, or_false, forall_eq_or_imp, forall_eq]
  decide
theorem witness_open_while_busy : ∀ off ∈ [0x0#17, 0xFC, 0x1000, 0x13FC, 0x1400, 0x17FC],
    off.toNat % 4 = 0 ∧ (off.toNat < 0x100 ∨ (0x1000 ≤ off.toNat ∧ off.toNat < 0x1800)) := by
  simp only [List.mem_cons, List.not_mem_nil, or_false, forall_eq_or_imp, forall_eq]
  decide
theorem witness_read : ∃ t, hostRead .w4 0x48#17 State.reset = .next t := ⟨_, rfl⟩
theorem witness_poly_window : ready.cfg.legal = true ∧ ready.busy = false ∧ 15 < ready.cfg.npoly ∧ 255 < 256 := by decide
theorem witness_poly_written : ready.coeff 3 255 = some 1#32 := ready_coeff 3 255 (by decide)
theorem witness_poly_unwritten : State.reset.coeff 15 255 = none := rfl
theorem witness_buf_window : ready.cfg.legal = true ∧ ready.busy = false ∧ 1020 % 4 = 0 ∧ 1020 < ready.cfg.bufBytes
    ∧ ready.BytesReadable 1020 4 := ⟨by decide, rfl, rfl, by decide, ready_bytes _ _ (by decide)⟩
theorem witness_buf_unwritten : ¬ State.reset.BytesReadable 0 4 := fun h => absurd (h 0 (by decide)) (by decide)
theorem witness_zeta : 255 < 256 := by decide
theorem witness_config : State.reset.cfg.legal = true ∧ (0x030#17).toNat % 4 = 0 ∧ (0x030#17).toNat ≤ 0x030 := by decide
theorem witness_read_only : ∀ off ∈ [0x0#17, 0x30, 0x50, 0x58, 0xFC], off.toNat % 4 = 0 ∧ off.toNat < 0x100
    ∧ off.toNat ∉ [0x40, 0x44, 0x48, 0x4C] := by
  simp only [List.mem_cons, List.not_mem_nil, or_false, forall_eq_or_imp, forall_eq]
  decide
theorem witness_unlisted : ∀ off ∈ [0x34#17, 0x3C, 0x5C, 0xFC], off.toNat % 4 = 0 ∧ off.toNat < 0x100
    ∧ ((0x034 ≤ off.toNat ∧ off.toNat < 0x040) ∨ 0x05C ≤ off.toNat) := by
  simp only [List.mem_cons, List.not_mem_nil, or_false, forall_eq_or_imp, forall_eq]
  decide
theorem witness_enables : (0x6#32).getLsbD 0 = false ∧ (0x1#32).getLsbD 0 = true := by decide

/-! Reset. -/

theorem witness_soft_reset : waiting.Inv ∧ (0x7#32).getLsbD 0 = true := ⟨witness_inv, by decide⟩
theorem witness_soft_reset_idle : ready.phase = .idle := rfl
theorem witness_soft_reset_running : waiting.phase = .running ∧ decode waiting.lcmd = .ok (.sampleEta 3)
    ∧ (3 : Slot) ∈ (destinationTable (.sampleEta 3)).1 ∧ (destinationTable (.sampleEta 3)).2 = none := by decide
theorem witness_soft_reset_pack :
    let s := { ready with phase := .running, busy := true, lcmd := 0x18#32, larg := 928#32 }
    s.phase = .running ∧ decode s.lcmd = .ok (.packEta 0) ∧ (destinationTable (.packEta 0)).2 = some .eta := ⟨rfl, by decide, rfl⟩

/-! The commands. -/

theorem witness_in_place : ready.Readable 3 := ready_readable 3 (by decide)
theorem witness_three_slots : ready.Readable 0 ∧ ready.Readable 3 := ⟨ready_readable 0 (by decide), ready_readable 3 (by decide)⟩
theorem witness_chknorm_in_contract : (one (pad [4190208, 4190209] 8380417)).Readable 0
    ∧ ∀ i < 256, (one (pad [4190208, 4190209] 8380417)).val 0 i ≤ 8380417 := by
  refine ⟨one_readable _ (length_pad _ _ (by decide)), one_val_all _ (· ≤ 8380417) (length_pad _ _ (by decide)) ?_⟩
  intro v hv
  rcases mem_pad hv with h | rfl
  · fin_cases h <;> decide
  · decide
theorem witness_power2round : (one (pad [0] 8380416)).Readable 0 ∧ (5 : Slot) ≠ 6 ∧ (one (pad [0] 8380416)).cfg.legal = true
    ∧ ∀ i < 256, (one (pad [0] 8380416)).val 0 i < 8380417 := by
  refine ⟨one_readable _ (length_pad _ _ (by decide)), by decide, by decide,
    one_val_all _ (· < 8380417) (length_pad _ _ (by decide)) ?_⟩
  intro v hv
  rcases mem_pad hv with h | rfl
  · fin_cases h; decide
  · decide
theorem witness_recomposition : (one (pad [0, 8380416, 4294963200] 4097)).Readable 0 ∧ (5 : Slot) ≠ 6
    ∧ (one (pad [0, 8380416, 4294963200] 4097)).cfg.legal = true
    ∧ ∀ i < 256, (one (pad [0, 8380416, 4294963200] 4097)).val 0 i < 2 ^ 32 - 2 ^ (Config.reference.d - 1) + 1 := by
  refine ⟨one_readable _ (length_pad _ _ (by decide)), by decide, by decide,
    one_val_all _ (· < 2 ^ 32 - 2 ^ (Config.reference.d - 1) + 1) (length_pad _ _ (by decide)) ?_⟩
  intro v hv
  rcases mem_pad hv with h | rfl
  · fin_cases h <;> decide
  · decide
theorem witness_ntt_growth : 4160880624 + 16 * 8380417 ≤ 2 ^ 32 ∧ (one (pad [] 4160880623)).Readable 0
    ∧ ∀ i < 256, (one (pad [] 4160880623)).val 0 i < 4160880624 := by
  refine ⟨by decide, one_readable _ (length_pad _ _ (by decide)),
    one_val_all _ (· < 4160880624) (length_pad _ _ (by decide)) ?_⟩
  intro v hv
  rcases mem_pad hv with h | rfl
  · cases h
  · decide
theorem witness_ntt_in_contract : ∀ i < 256, (one (pad [] 4160880623)).val 0 i < 2 ^ 32 - 16 * 8380417 := witness_ntt_growth.2.2
theorem witness_invntt_in_contract : (one (pad [] 16760833)).Readable 0
    ∧ ∀ j < 256, (one (pad [] 16760833)).val 0 j < 2 * 8380417 := by
  refine ⟨one_readable _ (length_pad _ _ (by decide)),
    one_val_all _ (· < 2 * 8380417) (length_pad _ _ (by decide)) ?_⟩
  intro v hv
  rcases mem_pad hv with h | rfl
  · cases h
  · decide
theorem witness_invntt_constants : 2 ^ 32 % 8380417 = 4193792 ∧ 256 * 8347681 % 8380417 = 1 ∧ 1753 * 731434 % 8380417 = 1 := by
  decide
theorem witness_pwmul : (one (pad [] 184369172)).Readable 0
    ∧ ∀ i < 256, (one (pad [] 184369172)).val 0 i < 22 * 8380417 := by
  refine ⟨one_readable _ (length_pad _ _ (by decide)),
    one_val_all _ (· < 22 * 8380417) (length_pad _ _ (by decide)) ?_⟩
  intro v hv
  rcases mem_pad hv with h | rfl
  · cases h
  · decide
theorem witness_pwmul_product : 4294967295 * 8380417 ≤ 8380417 * 2 ^ 32 := by decide
theorem witness_convolution : (0 : Slot) ≠ 3 ∧ ready.Readable 0 ∧ ready.Readable 3
    ∧ ∀ i < 256, ready.val 0 i < 6 * 8380417 ∧ ready.val 3 i < 6 * 8380417 := by
  refine ⟨by decide, ready_readable 0 (by decide), ready_readable 3 (by decide), fun i hi => ?_⟩
  rw [ready_val 0 i (by decide) hi, ready_val 3 i (by decide) hi]; decide
theorem witness_square : (one (pad [] 50282501)).Readable 0 ∧ ∀ i < 256, (one (pad [] 50282501)).val 0 i < 6 * 8380417 := by
  refine ⟨one_readable _ (length_pad _ _ (by decide)), one_val_all _ (· < 6 * 8380417) (length_pad _ _ (by decide)) ?_⟩
  intro v hv
  rcases mem_pad hv with h | rfl
  · cases h
  · decide
theorem witness_exact_sums : ready.Readable 0 ∧ ready.cfg.legal = true ∧ ready.val 0 255 + ready.val 3 255 < 2 ^ 32
    ∧ ready.val 3 255 ≤ ready.val 0 255 + 2 * 8380417 ∧ ready.val 0 255 + 2 * 8380417 < 2 ^ 32
    ∧ ready.val 0 255 < 2 ^ (32 - ready.cfg.d) := by
  rw [ready_val 0 255 (by decide) (by decide), ready_val 3 255 (by decide) (by decide)]
  exact ⟨ready_readable 0 (by decide), by decide, by decide, by decide, by decide, by decide⟩
theorem witness_exact_edges : 2147483647 + 2147483648 < 2 ^ 32 ∧ 16760834 ≤ 0 + 2 * 8380417
    ∧ 4278206461 + 2 * 8380417 < 2 ^ 32 ∧ 524287 < 2 ^ (32 - Config.reference.d) := by decide
theorem witness_pack : ready.Readable 2 ∧ ready.cfg.legal = true := ⟨ready_readable 2 (by decide), by decide⟩
theorem witness_unpack : ∀ r : Role, ready.BytesReadable ready.larg.toNat (packedSize ready.cfg r) := fun r =>
  ready_bytes _ _ (by cases r <;> decide)
theorem witness_round_trip : ∀ (r : Role), ∀ i < 256, 0 ≤ fieldOf ready.cfg r (ready.val 0 i)
    ∧ fieldOf ready.cfg r (ready.val 0 i) < (2 ^ packedWidth ready.cfg r : Nat) := by
  intro r i hi
  rw [ready_val 0 i (by decide) hi]
  cases r <;> decide
theorem witness_round_trip_edges :
    fieldOf Config.reference .z 524287 = 0
      ∧ fieldOf Config.reference .z 7856129 + 1 = (2 ^ packedWidth Config.reference .z : Nat)
      ∧ fieldOf Config.reference .t0 4096 = 0
      ∧ fieldOf Config.reference .t0 8376322 + 1 = (2 ^ packedWidth Config.reference .t0 : Nat)
      ∧ fieldOf Config.reference .t1 1023 + 1 = (2 ^ packedWidth Config.reference .t1 : Nat)
      ∧ fieldOf Config.reference .w1 15 + 1 = (2 ^ packedWidth Config.reference .w1 : Nat)
      ∧ fieldOf Config.reference .eta 2 = 0 := by decide

/-! The samplers. -/

theorem witness_sampler_opens : ready.session = none := rfl
theorem witness_sampler_waits : waiting.session.isSome = true ∧ waiting.sampler.isSome = true ∧ waiting.squeeze.isSome = true := by decide
theorem witness_data : waiting.session = some ⟨.E, 7#16⟩ ∧ waiting.squeeze = some 2 ∧ waiting.sampler = some ⟨[], 0, 0, 2⟩ :=
  ⟨rfl, rfl, rfl⟩
theorem witness_late_data : State.reset.squeeze = none ∧ ({ State.reset with abandoned := 1 }).abandoned = 0 + 1
    ∧ State.reset.abandoned = 0 := ⟨rfl, rfl, rfl⟩

/-- The same sampler with its DATA delivered. -/
def served : State := { waiting with squeeze := none, sampler := some ⟨[], 0, 272, 2⟩, agenda := [] }

theorem served_tracks : Tracks .E ⟨[], 0, 272, 2⟩ served where
  opened := rfl
  chunks := ⟨0, by decide, rfl⟩
  short := by decide
  delivered := by decide
  within := by decide
  requested := by decide
  needed := .inl (by decide)

theorem witness_chunks_needed : ChunksNeeded served.cfg .E (served.streamByte .E served.nonce) 128 := by
  refine ⟨by decide +kernel, fun m hm => ?_⟩
  have h := streamCoeffs_length_mono served.cfg .E (served.streamByte .E served.nonce) (show m ≤ 127 by omega)
  have h127 : (streamCoeffs served.cfg .E (served.streamByte .E served.nonce) 127).length < 256 := by decide +kernel
  omega

theorem witness_sampler_completes : served.sampler = some ⟨[], 0, 272, 2⟩ ∧ served.squeeze = none ∧ Tracks .E ⟨[], 0, 272, 2⟩ served
    ∧ ChunksNeeded served.cfg .E (served.streamByte .E served.nonce) 128 ∧ chunkLength .E * 128 ≤ 272 ∧ 272 < 2 ^ 32 ∧ 2 < 2 ^ 32 :=
  ⟨rfl, rfl, served_tracks, witness_chunks_needed, by decide, by decide, by decide⟩
theorem witness_sampler_result : served.phase = .running ∧ served.cfg.legal = true
    ∧ ∃ t, exec (.sampleEta 3) served = .next t ∧ t.phase = .idle := by
  refine ⟨rfl, by decide, ?_⟩
  have h : (consumeDelivered served .E ⟨[], 0, 272, 2⟩).got.length = 256 := by decide +kernel
  refine ⟨samplerFinish .E 3 (consumeDelivered served .E ⟨[], 0, 272, 2⟩) served, ?_, rfl⟩
  rw [exec, execSampleEta, runSampler, show served.session = some ⟨.E, 7#16⟩ from rfl, show served.sampler = some ⟨[], 0, 272, 2⟩ from rfl,
    show served.squeeze = none from rfl]
  exact if_pos h

/-- The same sampler on a stream whose delivered bytes are all rejected. -/
def starved : State := { served with streams := [⟨.E, 7#16, List.replicate 272 0xFF#8⟩] }

theorem witness_sampler_short : starved.sampler = some ⟨[], 0, 272, 2⟩ ∧ starved.squeeze = none
    ∧ Tracks .E ⟨[], 0, 272, 2⟩ starved
    ∧ ∀ n, ChunksNeeded starved.cfg .E (starved.streamByte .E starved.nonce) n → 272 < chunkLength .E * n := by
  refine ⟨rfl, rfl, ⟨rfl, ⟨0, by decide, rfl⟩, by decide, by decide, by decide, by decide, .inl (by decide)⟩, fun n hn => ?_⟩
  by_contra hc
  have hm := streamCoeffs_length_mono starved.cfg .E (starved.streamByte .E starved.nonce)
    (show n ≤ 272 by simp only [chunkLength] at hc; omega)
  have h0 : (streamCoeffs starved.cfg .E (starved.streamByte .E starved.nonce) 272).length = 0 := by decide +kernel
  have := hn.1
  omega

end Sys2Proof.Tests
end

section
/-! PROOFS. Unwritten storage (spec/00_scope.md R18): a read of slots or of BUF that goes on to a next state faults exactly when its
source is not readable. Each command but a sampler is such a read. -/

namespace Sys2Proof.Machine

/-! ### Reads that go on to a next state -/

theorem State.withPoly_of_poly_eq_some {s : State} {k : Slot} {p : List Nat} (h : s.poly k = some p) (f : List Nat → Result) :
    s.withPoly k f = f p := by
  rw [State.withPoly, h]

theorem State.withPoly_unwrittenRead_iff (s : State) (k : Slot) (g : List Nat → State) :
    s.withPoly k (fun p => .next (g p)) = .fault (.unwrittenRead .slotFile) ↔ ¬ s.Readable k := by
  refine ⟨fun hfault hread => ?_, s.withPoly_unreadable k _⟩
  obtain ⟨p, hp, -⟩ := s.poly_of_readable k hread
  rw [State.withPoly_of_poly_eq_some hp] at hfault
  cases hfault

theorem State.withBytes_unwrittenRead_iff (s : State) (off n : Nat) (g : List Byte → State) :
    s.withBytes off n (fun bs => .next (g bs)) = .fault (.unwrittenRead .buf) ↔ ¬ s.BytesReadable off n := by
  refine ⟨fun hfault hread => ?_, s.withBytes_unreadable off n _⟩
  obtain ⟨bs, hbs, -⟩ := s.withBytes_of_readable off n (fun bs => .next (g bs)) hread
  rw [hbs] at hfault
  cases hfault

/-! ### The shapes of the commands -/

theorem inPlace_unwrittenRead_iff (f : List Nat → List Nat) (rd : Slot) (s : State) :
    inPlace f rd s = .fault (.unwrittenRead .slotFile) ↔ ¬ s.Readable rd :=
  s.withPoly_unwrittenRead_iff rd _

/-- The first source is read before the second: where it is readable, the second decides. -/
theorem threeSlots_unwrittenRead_iff (f : Nat → Nat → Nat) (rd ra rb : Slot) (s : State) :
    threeSlots f rd ra rb s = .fault (.unwrittenRead .slotFile) ↔ ¬ (s.Readable ra ∧ s.Readable rb) := by
  unfold threeSlots
  by_cases ha : s.Readable ra
  · obtain ⟨a, hpa, -⟩ := s.poly_of_readable ra ha
    rw [State.withPoly_of_poly_eq_some hpa, State.withPoly_unwrittenRead_iff]
    simp [ha]
  · rw [s.withPoly_unreadable ra _ ha]
    simp [ha]

theorem pack_unwrittenRead_iff (r : Role) (ra : Slot) (s : State) :
    pack r ra s = .fault (.unwrittenRead .slotFile) ↔ ¬ s.Readable ra :=
  s.withPoly_unwrittenRead_iff ra _

theorem roleWidth_eq_packedWidth (c : Config) (r : Role) : roleWidth c r = packedWidth c r := by
  cases r <;> rfl

theorem roleSize_eq_packedSize (c : Config) (r : Role) : roleSize c r = packedSize c r := by
  rw [roleSize, packedSize, roleWidth_eq_packedWidth]
  omega

theorem unpack_unwrittenRead_iff (r : Role) (rd : Slot) (s : State) :
    unpack r rd s = .fault (.unwrittenRead .buf) ↔ ¬ s.BytesReadable s.larg.toNat (packedSize s.cfg r) := by
  rw [← roleSize_eq_packedSize]
  exact s.withBytes_unwrittenRead_iff s.offset _ _

/-! ### The commands of a role -/

theorem exec_packInstr (r : Role) (ra : Slot) (s : State) : exec (packInstr ra r) s = pack r ra s := by
  cases r <;> rfl

theorem exec_unpackInstr (r : Role) (rd : Slot) (s : State) : exec (unpackInstr rd r) s = unpack r rd s := by
  cases r <;> rfl

/-- Settles O60: each command is one of the shapes above, over its own source slots or bytes. -/
theorem unwrittenReadIsAFault : Obligations.UnwrittenReadIsAFault := by
  intro rd ra rb r s
  have hInPlace (f : List Nat → List Nat) := (inPlace_unwrittenRead_iff f rd s).symm
  have hThreeSlots (f : Nat → Nat → Nat) := (threeSlots_unwrittenRead_iff f rd ra rb s).symm
  have hOneSource (g : List Nat → State) := (s.withPoly_unwrittenRead_iff ra g).symm
  rw [exec_packInstr, exec_unpackInstr]
  exact ⟨hInPlace _, hInPlace _, hInPlace _, hInPlace _, hInPlace _, hOneSource _, hOneSource _,
    hThreeSlots _, hThreeSlots _, hThreeSlots _, (pack_unwrittenRead_iff r ra s).symm, (unpack_unwrittenRead_iff r rd s).symm⟩

end Sys2Proof.Machine
end

section
/-! PROOFS. The machine's invariant (`State.Inv`) step by step: its storage clauses under the stores of Laws/Memory.lean, then each
operation, each move and the step. -/

namespace Sys2Proof.Machine

/-! ### The parts of the invariant -/

/-- The storage clauses of `State.Inv`: the build is legal, and both stores are in canonical form and inside the build. -/
structure State.StorageInv (s : State) : Prop where
  legal : s.cfg.legal = true
  slots_wf : Memory.wf s.slots = true
  slots_below : ∀ c ∈ s.slots, c.1 < 256 * s.cfg.npoly
  buf_wf : Memory.wf s.buf = true
  buf_below : ∀ c ∈ s.buf, c.1 < s.cfg.bufBytes

theorem State.Inv.storage {s : State} (h : s.Inv) : s.StorageInv := { h with }

/-- The machine with no command running: only storage and the error record have something to meet. -/
theorem State.Inv.of_idle {s : State} (hstore : s.StorageInv) (hcode : s.err = true ↔ s.errcode ≠ .noError)
    (hinfo : s.err = false → s.errinfo = 0#32) (hphase : s.phase = .idle) (hbusy : s.busy = false)
    (hsampler : s.sampler = none) (hsession : s.session = none) (hsqueeze : s.squeeze = none) : s.Inv where
  legal := hstore.legal
  slots_wf := hstore.slots_wf
  slots_below := hstore.slots_below
  buf_wf := hstore.buf_wf
  buf_below := hstore.buf_below
  busy_running := by simp [hbusy, hphase]
  busy_not_done := by simp [hbusy]
  err_code := hcode
  err_info := hinfo
  latched := by simp [hphase]
  session_latched := by simp [hsession]
  sampler_running := by simp [hsampler, hphase]
  session_sampler := by simp [hsession]
  sampler_fresh := by simp [hsampler]
  squeeze_session := by simp [hsqueeze]

/-- The invariant does not speak of the fields listed here. -/
theorem State.Inv.of_unmentioned {s t : State} (h : s.Inv) (ht : t = { s with
    cmd := t.cmd, arg := t.arg, norm := t.norm, ieDone := t.ieDone, ieErr := t.ieErr, abandoned := t.abandoned
    agenda := t.agenda, response := t.response, drawn := t.drawn }) : t.Inv := by
  rw [ht]
  exact { h with }

/-- The invariant survives a change of the stores that keeps its storage clauses. -/
theorem State.Inv.of_storage {s t : State} (h : s.Inv) (hstore : t.StorageInv)
    (ht : t = { s with slots := t.slots, buf := t.buf }) : t.Inv := by
  rw [ht] at hstore ⊢
  exact { h with
    slots_wf := hstore.slots_wf, slots_below := hstore.slots_below, buf_wf := hstore.buf_wf, buf_below := hstore.buf_below }

/-! ### What an idle machine and a running command leave absent -/

section
variable {s : State}

theorem State.Inv.session_none_of_sampler_none (h : s.Inv) (hs : s.sampler = none) : s.session = none := by
  have hsome := h.session_sampler
  simpa [hs] using hsome

theorem State.Inv.squeeze_none_of_session_none (h : s.Inv) (hs : s.session = none) : s.squeeze = none := by
  have hsome := h.squeeze_session
  simpa [hs] using hsome

theorem State.Inv.sampler_none_of_idle (h : s.Inv) (hp : s.phase = .idle) : s.sampler = none := by
  rw [← Option.not_isSome_iff_eq_none, h.sampler_running, hp]
  simp

theorem State.Inv.idle_of_not_busy (h : s.Inv) (hb : s.busy = false) : s.phase = .idle := by
  cases hp : s.phase with
  | idle => rfl
  | running => simp [h.busy_running.mpr hp] at hb

/-- While a command that is no sampler runs there is no sampler state. -/
theorem State.Inv.sampler_none_of_plain (h : s.Inv) {i : Instr} (hi : commandCheck s.cfg s.lcmd s.larg = .ok i)
    (hk : samplerKind i = none) : s.sampler = none := by
  rw [← Option.not_isSome_iff_eq_none, h.sampler_running]
  rintro ⟨-, j, k, hj, hjk⟩
  cases hi.symm.trans hj
  simp [hk] at hjk

end

/-! ### Storage -/

/-- Every destination slot of a command that passed its checks is one of the build's. -/
theorem destSlots_lt_of_check {c : Config} {w arg : Word} {i : Instr} (h : commandCheck c w arg = .ok i) :
    ∀ d ∈ destSlots i, d.val < c.npoly := by
  obtain ⟨-, hop⟩ := (commandCheck_ok_iff _ _ _ _).mp h
  have hwell := ((operandError_none_iff _ _ _).mp hop).1
  rw [Instr.wellFormed, Bool.and_eq_true] at hwell
  exact destSlots_lt hwell.1

/-- The bytes that a PACK which passed its checks writes are the build's. -/
theorem destRole_range_of_check {c : Config} {w arg : Word} {i : Instr} (h : commandCheck c w arg = .ok i) {r : Role}
    (hr : destRole i = some r) : arg.toNat + roleSize c r ≤ c.bufBytes := by
  obtain ⟨-, hop⟩ := (commandCheck_ok_iff _ _ _ _).mp h
  exact ((operandError_none_iff _ _ _).mp hop).2 r (bufRole_of_destRole hr)

section
variable {s : State}

/-- Writing at most 256 coefficients of a slot of the build. -/
theorem State.StorageInv.writeSlot (h : s.StorageInv) {k : Slot} (hk : k.val < s.cfg.npoly) {vs : List Word}
    (hvs : vs.length ≤ 256) (d : Nat) :
    ({ s with slots := Memory.writeRange s.slots (slotKey k 0) vs, drawn := d } : State).StorageInv := by
  refine { h with slots_wf := Memory.wf_writeRange _ _ _ h.slots_wf, slots_below := fun c hc => ?_ }
  rcases Memory.mem_writeRange hc with hc | hc
  · exact h.slots_below c hc
  · simp only [slotKey] at hc ⊢
    omega

/-- Writing bytes that lie in the build's BUF. -/
theorem State.StorageInv.writeBytes (h : s.StorageInv) {off : Nat} {bs : List Byte} (hoff : off + bs.length ≤ s.cfg.bufBytes)
    (d : Nat) : ({ s with buf := Memory.writeRange s.buf off bs, drawn := d } : State).StorageInv := by
  refine { h with buf_wf := Memory.wf_writeRange _ _ _ h.buf_wf, buf_below := fun c hc => ?_ }
  rcases Memory.mem_writeRange hc with hc | hc
  · exact h.buf_below c hc
  · simp only at hc ⊢
    omega

theorem State.StorageInv.setPoly (h : s.StorageInv) {k : Slot} (hk : k.val < s.cfg.npoly) {p : List Nat}
    (hp : p.length ≤ 256) : (s.setPoly k p).StorageInv :=
  h.writeSlot hk (by simpa using hp) s.drawn

theorem State.StorageInv.setBytes (h : s.StorageInv) {off : Nat} {bs : List Byte} (hoff : off + bs.length ≤ s.cfg.bufBytes) :
    (s.setBytes off bs).StorageInv :=
  h.writeBytes hoff s.drawn

theorem State.StorageInv.setCoeff (h : s.StorageInv) {key : Nat} (hkey : key < 256 * s.cfg.npoly) (v : Word) :
    (s.setCoeff key v).StorageInv := by
  refine { h with slots_wf := Memory.wf_write _ _ _ h.slots_wf, slots_below := fun c hc => ?_ }
  rcases Memory.mem_write hc with rfl | hc
  · exact hkey
  · exact h.slots_below c hc

theorem State.StorageInv.foldl_havocSlot (h : s.StorageInv) {ds : List Slot} (hds : ∀ d ∈ ds, d.val < s.cfg.npoly) :
    (ds.foldl State.havocSlot s).StorageInv := by
  induction ds generalizing s with
  | nil => exact h
  | cons d ds ih =>
    obtain ⟨hd, hds⟩ := List.forall_mem_cons.mp hds
    exact ih (h.writeSlot hd (by simp [freeWords]) _) hds

/-- The draws of an abort stay inside the build (R383). -/
theorem State.StorageInv.havocDestinations (h : s.StorageInv) {i : Instr} (hslots : ∀ d ∈ destSlots i, d.val < s.cfg.npoly)
    (hbytes : ∀ r, destRole i = some r → s.offset + roleSize s.cfg r ≤ s.cfg.bufBytes) :
    (s.havocDestinations i).StorageInv := by
  have hfold := h.foldl_havocSlot hslots
  obtain ⟨m, d, hshape⟩ := foldl_havocSlot_shape (destSlots i) s
  unfold State.havocDestinations
  rw [hshape] at hfold ⊢
  cases hr : destRole i with
  | none => exact hfold
  | some r => exact hfold.writeBytes (by simpa [freeBytes] using hbytes r hr) _

end

/-! ### The error record, the acknowledgements and the host's stores -/

section
variable {s : State}

theorem State.Inv.respond (h : s.Inv) (r : Option Word) : (s.respond r).Inv := h.of_unmentioned rfl

theorem State.Inv.raiseError (h : s.Inv) {e : ErrCode} (he : e ≠ .noError) (w : Word) : (s.raiseError e w).Inv := by
  refine { h with err_code := ?_, err_info := by simp }
  cases herr : s.err with
  | true => simpa [herr] using h.err_code.mp herr
  | false => simpa [herr] using he

theorem State.Inv.ackError (h : s.Inv) : s.ackError.Inv := { h with err_code := by simp, err_info := by simp }

theorem State.Inv.ackDone (h : s.Inv) : s.ackDone.Inv := { h with busy_not_done := by simp }

theorem State.Inv.writeStatus (h : s.Inv) (v : Word) : (s.writeStatus v).Inv := by
  have hdone : (if v.getLsbD 1 then s.ackDone else s).Inv := by
    split
    · exact h.ackDone
    · exact h
  unfold State.writeStatus
  dsimp only
  split
  · exact hdone.ackError
  · exact hdone

theorem State.Inv.setBytes (h : s.Inv) {off : Nat} {bs : List Byte} (hoff : off + bs.length ≤ s.cfg.bufBytes) :
    (s.setBytes off bs).Inv :=
  h.of_storage (h.storage.setBytes hoff) rfl

theorem State.Inv.setCoeff (h : s.Inv) {key : Nat} (hkey : key < 256 * s.cfg.npoly) (v : Word) : (s.setCoeff key v).Inv :=
  h.of_storage (h.storage.setCoeff hkey v) rfl

/-! ### Submission and the resets -/

/-- Acceptance of a checked word by an idle machine (R340, R44). -/
theorem State.Inv.accept (h : s.Inv) (hbusy : s.busy = false) {w : Word} {i : Instr}
    (hi : commandCheck s.cfg w s.arg = .ok i) : (s.accept w).Inv := by
  have hsampler := h.sampler_none_of_idle (h.idle_of_not_busy hbusy)
  have hsession := h.session_none_of_sampler_none hsampler
  have hfresh := freshSampler_of_decode ((commandCheck_ok_iff _ _ _ _).mp hi).1
  refine { h with
    busy_running := by simp
    busy_not_done := by simp
    latched := fun _ => ⟨i, hi⟩
    session_latched := by simp [hsession]
    sampler_running := ?_
    session_sampler := by simp [hsession]
    sampler_fresh := fun _ m hm => freshSampler_eq_some hm }
  simp [hfresh, hi, Option.isSome_iff_exists]

theorem State.Inv.submit (h : s.Inv) (w : Word) : (s.submit w).Inv := by
  have hcmd : ({ s with cmd := w } : State).Inv := h.of_unmentioned rfl
  rcases submit_cases s w with ⟨-, heq⟩ | ⟨-, e, he, heq⟩ | ⟨hbusy, i, hi, heq⟩ <;> rw [heq]
  · exact hcmd.raiseError (by decide) w
  · exact hcmd.raiseError (commandCheck_error_ne _ _ _ _ he) w
  · exact hcmd.accept hbusy hi

/-- The registers after a reset: storage is what is left to meet. -/
theorem State.StorageInv.clearRegisters (h : s.StorageInv) (hsession : s.session = none) (hsqueeze : s.squeeze = none) :
    s.clearRegisters.Inv :=
  .of_idle { h with } (by simp) (by simp) rfl rfl rfl hsession hsqueeze

theorem State.Inv.abortRunning_storage (h : s.Inv) (hp : s.phase = .running) : s.abortRunning.StorageInv := by
  obtain ⟨i, hi⟩ := h.latched hp
  have hhavoc : (s.havocDestinations i).StorageInv :=
    h.storage.havocDestinations (destSlots_lt_of_check hi) fun _ hr => destRole_range_of_check hi hr
  simp only [State.abortRunning, ((commandCheck_ok_iff _ _ _ _).mp hi).1]
  split
  · exact { hhavoc with }
  · exact hhavoc

/-- An abort leaves no session and no outstanding SQUEEZE (R244, R383). -/
theorem State.Inv.abortRunning_closed (h : s.Inv) : s.abortRunning.session = none ∧ s.abortRunning.squeeze = none := by
  obtain ⟨m, b, d, heq⟩ := abortRunning_shape s
  rw [heq]
  split
  · exact ⟨rfl, rfl⟩
  · rename_i hclosed
    have hsession := Option.not_isSome_iff_eq_none.mp hclosed
    exact ⟨hsession, h.squeeze_none_of_session_none hsession⟩

theorem State.Inv.softReset (h : s.Inv) : s.softReset.Inv := by
  rcases softReset_cases s with ⟨hp, heq⟩ | ⟨hp, heq⟩ <;> rw [heq]
  · exact (h.abortRunning_storage hp).clearRegisters h.abortRunning_closed.1 h.abortRunning_closed.2
  · have hsession := h.session_none_of_sampler_none (h.sampler_none_of_idle hp)
    exact h.storage.clearRegisters hsession (h.squeeze_none_of_session_none hsession)

theorem State.Inv.powerOn (h : s.Inv) : s.powerOn.Inv :=
  .of_idle ⟨h.legal, rfl, by simp [State.powerOn], rfl, by simp [State.powerOn]⟩ (by simp [State.powerOn])
    (by simp [State.powerOn]) rfl rfl rfl rfl rfl

theorem State.Inv.writeRegister (h : s.Inv) (off : Nat) (v : Word) : (s.writeRegister off v).Inv := by
  rcases writeRegister_cases s off v with ⟨-, heq⟩ | ⟨-, heq⟩ | ⟨-, heq⟩ | ⟨-, -, heq⟩ | ⟨-, -, heq⟩ | heq <;> rw [heq]
  · exact h.submit v
  · exact h.of_unmentioned rfl
  · exact h.writeStatus v
  · exact h.softReset
  · exact h.of_unmentioned rfl
  · exact h

end

/-! ### The moves -/

section
variable {s t : State}

theorem hostRead_inv {width : AccessWidth} {off : BitVec 17} (h : s.Inv) (ht : hostRead width off s = .next t) : t.Inv := by
  rcases hostRead_cases ht with ⟨r, rfl⟩ | ⟨e, w, he, rfl⟩ | ⟨-, rfl⟩
  · exact h.respond r
  · exact (h.raiseError he w).respond _
  · exact (h.raiseError (e := .accessWhileBusy) (by decide) (offsetWord off)).of_unmentioned rfl

theorem hostWrite_inv {width : AccessWidth} {off : BitVec 17} {v : Word} (h : s.Inv)
    (ht : hostWrite width off v s = .next t) : t.Inv := by
  obtain ⟨u, hu, hcases⟩ := hostWrite_cases width off v s
  cases hu.symm.trans ht
  rcases hcases with ⟨e, w, he, rfl⟩ | ⟨-, -, rfl⟩ | rfl | ⟨-, o, halign, ho, rfl⟩ | ⟨-, key, hkey, rfl⟩
  · exact (h.raiseError he w).respond none
  · exact (h.writeRegister _ v).respond none
  · exact h.respond none
  · have hbuf : s.cfg.bufBytes % 4 = 0 := by
      have := h.legal
      simp only [Config.legal, Bool.and_eq_true, beq_iff_eq] at this
      omega
    have hlen : (bytesOfWord v).length = 4 := by simp [bytesOfWord]
    exact (h.setBytes (by omega)).respond none
  · exact (h.setCoeff hkey v).respond none

theorem deliver_inv (h : s.Inv) (ht : deliver s = .next t) : t.Inv := by
  obtain ⟨p, n, m, hp, hn, hm, rfl⟩ := deliver_cases ht
  exact { h with
    sampler_running := by simpa [hm] using h.sampler_running
    session_sampler := by simp
    sampler_fresh := by simp [hp]
    squeeze_session := by simp }

theorem discardLate_inv (h : s.Inv) (ht : discardLate s = .next t) : t.Inv := by
  obtain ⟨n, -, rfl⟩ := discardLate_cases ht
  exact h.of_unmentioned rfl

/-! ### The engine -/

/-- A command that is no sampler completes inside its destinations. -/
theorem PlainRun.inv {i : Instr} (hrun : PlainRun i s t) (h : s.Inv) (hi : commandCheck s.cfg s.lcmd s.larg = .ok i)
    (hk : samplerKind i = none) : t.Inv := by
  have hsampler := h.sampler_none_of_plain hi hk
  have hsession := h.session_none_of_sampler_none hsampler
  have hsqueeze := h.squeeze_none_of_session_none hsession
  have hslots : ∀ c ∈ t.slots, c.1 < 256 * s.cfg.npoly := fun c hc => by
    rcases hrun.slots_mem c hc with hc | ⟨d, hd, -, hlt⟩
    · exact h.slots_below c hc
    · have := destSlots_lt_of_check hi d hd
      omega
  have hbuf : ∀ c ∈ t.buf, c.1 < s.cfg.bufBytes := fun c hc => by
    rcases hrun.buf_mem c hc with hc | ⟨r, hr, -, hlt⟩
    · exact h.buf_below c hc
    · exact hlt.trans_le (destRole_range_of_check hi hr)
  rw [hrun.shape]
  exact .of_idle ⟨h.legal, hrun.slots_wf h.slots_wf, hslots, hrun.buf_wf h.buf_wf, hbuf⟩ h.err_code h.err_info rfl rfl
    hsampler hsession hsqueeze

section
variable {i : Instr} {k : SamplerKind} (h : s.Inv) (hp : s.phase = .running)
  (hi : commandCheck s.cfg s.lcmd s.larg = .ok i) (hk : samplerKind i = some k)
include h hp hi hk

theorem samplerStart_inv : (samplerStart k s).Inv :=
  { h with
    session_latched := fun p hs => by
      obtain rfl : (⟨k, s.nonce⟩ : Session) = p := by simpa [samplerStart] using hs
      exact ⟨hp, rfl, i, hi, hk⟩
    sampler_running := iff_of_true rfl ⟨hp, i, k, hi, hk⟩
    session_sampler := fun _ => rfl
    sampler_fresh := by simp [samplerStart]
    squeeze_session := fun _ => rfl }

theorem samplerRefill_inv (hsession : s.session.isSome = true) (m : Sampler) : (samplerRefill m s).Inv :=
  { h with
    sampler_running := iff_of_true rfl ⟨hp, i, k, hi, hk⟩
    session_sampler := fun _ => rfl
    sampler_fresh := fun hnone => by simp [show s.session = none from hnone] at hsession
    squeeze_session := fun _ => hsession }

omit hp hk in
theorem samplerFinish_inv {rd : Slot} (hrd : rd ∈ destSlots i) {m : Sampler} (hm : m.got.length = 256) :
    (samplerFinish k rd m s).Inv :=
  have hstore : (s.setPoly rd (m.got.map BitVec.toNat)).StorageInv :=
    h.storage.setPoly (destSlots_lt_of_check hi rd hrd) (by simp [hm])
  .of_idle { hstore with } h.err_code h.err_info rfl rfl rfl rfl rfl

theorem exec_sampler_inv (ht : exec i s = .next t) : t.Inv := by
  obtain ⟨rd, hrd, hexec⟩ := exec_sampler s hk
  rw [hexec] at ht
  rcases runSampler_cases ht with ⟨-, rfl⟩ | ⟨_, _, _, -, -, -, rfl⟩ | ⟨_, _, -, -, -, hl, rfl⟩ | ⟨_, _, hs, -, -, -, rfl⟩
  · exact samplerStart_inv h hp hi hk
  · exact h
  · exact samplerFinish_inv h hi (by simp [hrd]) hl
  · exact samplerRefill_inv h hp hi hk (by simp [hs]) _

end

theorem engine_inv (h : s.Inv) (ht : engine s = .next t) : t.Inv := by
  rcases engine_cases ht with ⟨-, rfl⟩ | ⟨hp, i, hi, hexec⟩ | ⟨hp, e, he, -⟩
  · exact h
  · cases hk : samplerKind i with
    | none => exact (exec_plain hk hexec).inv h hi hk
    | some k => exact exec_sampler_inv h hp hi hk hexec
  · obtain ⟨i, hi⟩ := h.latched hp
    cases he.symm.trans hi

theorem perform_inv (m : Move) (h : s.Inv) (ht : perform m s = .next t) : t.Inv := by
  cases m with
  | hostRead width off => exact hostRead_inv h ht
  | hostWrite width off v => exact hostWrite_inv h ht
  | core => exact engine_inv h ht
  | data => exact deliver_inv h ht
  | lateData => exact discardLate_inv h ht
  | powerOn =>
    cases ht
    exact h.powerOn

end

/-- Settles O7: the move at the head of the agenda, or the engine's, keeps the invariant. -/
theorem stepKeepsInvariant : Obligations.StepKeepsInvariant := by
  intro s t h ht
  rcases step_eq s with ⟨-, heq⟩ | ⟨m, rest, -, heq⟩ <;> rw [heq] at ht
  · exact engine_inv h ht
  · exact perform_inv m (h.of_unmentioned rfl) ht

end Sys2Proof.Machine
end

section
/-! PROOFS. What one move can do to the build, the Source's known bytes, NORM and BUSY: nearly every move keeps the first three and does
not set BUSY, and the four others are named one by one. -/

namespace Sys2Proof.Machine

/-- The build, the Source's known bytes and NORM stay, and BUSY does not rise. -/
structure Quiet (s t : State) : Prop where
  cfg : t.cfg = s.cfg
  streams : t.streams = s.streams
  norm : t.norm = s.norm
  busy : t.busy = true → s.busy = true

/-- What a move does to them: it is quiet, completes a latched CHKNORM, resets, or is an accepted CMD write. -/
inductive Effect : Move → State → State → Prop
  | quiet {m s t} (h : Quiet s t) : Effect m s t
  | chknorm {s t ra} (hphase : s.phase = .running) (hra : decode s.lcmd = .ok (.chknorm ra))
      (ht : t = ({ s with slots := t.slots, buf := t.buf, norm := t.norm } : State).complete) : Effect .core s t
  | powerOn {s} : Effect .powerOn s s.powerOn
  | softReset {s v} (hv : v.getLsbD 0 = true) : Effect (.hostWrite .w4 0x4C#17 v) s (s.softReset.respond none)
  | accepted {s w i} (hi : commandCheck s.cfg w s.arg = .ok i) :
      Effect (.hostWrite .w4 0x40#17 w) s ((({ s with cmd := w } : State).accept w).respond none)

section
variable {s t : State}

theorem Quiet.writeStatus (s : State) (v : Word) : Quiet s (s.writeStatus v) := by
  unfold State.writeStatus
  cases v.getLsbD 1 <;> cases v.getLsbD 2 <;> exact ⟨rfl, rfl, rfl, id⟩

theorem Quiet.respond (h : Quiet s t) (r : Option Word) : Quiet s (t.respond r) := { h with }

theorem hostRead_quiet {width : AccessWidth} {off : BitVec 17} (h : hostRead width off s = .next t) : Quiet s t := by
  rcases hostRead_cases h with ⟨r, rfl⟩ | ⟨e, w, -, rfl⟩ | ⟨-, rfl⟩ <;> exact ⟨rfl, rfl, rfl, id⟩

/-- A register write is quiet but for a soft reset and an accepted command. -/
theorem writeRegister_effect (s : State) (off : BitVec 17) (v : Word) :
    Effect (.hostWrite .w4 off v) s ((s.writeRegister off.toNat v).respond none) := by
  have hoff {n : Nat} (h : off.toNat = n) : off = BitVec.ofNat 17 n := by rw [← h, BitVec.ofNat_toNat, BitVec.setWidth_eq]
  rcases writeRegister_cases s off.toNat v with ⟨hn, heq⟩ | ⟨-, heq⟩ | ⟨-, heq⟩ | ⟨hn, hv, heq⟩ | ⟨-, -, heq⟩ | heq <;> rw [heq]
  · rcases submit_cases s v with ⟨-, hsub⟩ | ⟨-, e, -, hsub⟩ | ⟨-, i, hi, hsub⟩ <;> rw [hsub]
    · exact .quiet ⟨rfl, rfl, rfl, id⟩
    · exact .quiet ⟨rfl, rfl, rfl, id⟩
    · exact hoff hn ▸ .accepted hi
  · exact .quiet ⟨rfl, rfl, rfl, id⟩
  · exact .quiet ((Quiet.writeStatus s v).respond none)
  · exact hoff hn ▸ .softReset hv
  · exact .quiet ⟨rfl, rfl, rfl, id⟩
  · exact .quiet ⟨rfl, rfl, rfl, id⟩

theorem hostWrite_effect {width : AccessWidth} {off : BitVec 17} {v : Word} (h : hostWrite width off v s = .next t) :
    Effect (.hostWrite width off v) s t := by
  obtain ⟨u, hu, hcases⟩ := hostWrite_cases width off v s
  cases hu.symm.trans h
  rcases hcases with ⟨e, w, -, rfl⟩ | ⟨rfl, -, rfl⟩ | rfl | ⟨-, o, -, -, rfl⟩ | ⟨-, key, -, rfl⟩
  · exact .quiet ⟨rfl, rfl, rfl, id⟩
  · exact writeRegister_effect s off v
  · exact .quiet ⟨rfl, rfl, rfl, id⟩
  · exact .quiet ⟨rfl, rfl, rfl, id⟩
  · exact .quiet ⟨rfl, rfl, rfl, id⟩

theorem exec_sampler_quiet {i : Instr} {k : SamplerKind} (hk : samplerKind i = some k) (h : exec i s = .next t) : Quiet s t := by
  obtain ⟨rd, -, hexec⟩ := exec_sampler s hk
  rw [hexec] at h
  rcases runSampler_cases h with ⟨-, rfl⟩ | ⟨_, _, _, -, -, -, rfl⟩ | ⟨_, _, -, -, -, -, rfl⟩ | ⟨_, _, -, -, -, -, rfl⟩
  · exact ⟨rfl, rfl, rfl, id⟩
  · exact ⟨rfl, rfl, rfl, id⟩
  · exact ⟨rfl, rfl, rfl, nofun⟩
  · exact ⟨rfl, rfl, rfl, id⟩

theorem PlainRun.quiet {i : Instr} (h : PlainRun i s t) (hi : ∀ ra, i ≠ .chknorm ra) : Quiet s t := by
  have hnorm := h.norm hi
  rw [h.shape]
  exact ⟨rfl, rfl, hnorm, nofun⟩

theorem engine_effect (h : engine s = .next t) : Effect .core s t := by
  rcases engine_cases h with ⟨-, rfl⟩ | ⟨hp, i, hi, hexec⟩ | ⟨-, e, -, rfl⟩
  · exact .quiet ⟨rfl, rfl, rfl, id⟩
  · cases hk : samplerKind i with
    | some k => exact .quiet (exec_sampler_quiet hk hexec)
    | none =>
      have hrun := exec_plain hk hexec
      by_cases hc : ∃ ra, i = .chknorm ra
      · obtain ⟨ra, rfl⟩ := hc
        exact .chknorm hp ((commandCheck_ok_iff _ _ _ _).mp hi).1 hrun.shape
      · exact .quiet (hrun.quiet (not_exists.mp hc))
  · exact .quiet ⟨rfl, rfl, rfl, nofun⟩

theorem perform_effect {m : Move} (h : perform m s = .next t) : Effect m s t := by
  cases m with
  | hostRead width off => exact .quiet (hostRead_quiet h)
  | hostWrite width off v => exact hostWrite_effect h
  | core => exact engine_effect h
  | data =>
    obtain ⟨p, n, m, -, -, -, rfl⟩ := deliver_cases h
    exact .quiet ⟨rfl, rfl, rfl, id⟩
  | lateData =>
    obtain ⟨n, -, rfl⟩ := discardLate_cases h
    exact .quiet ⟨rfl, rfl, rfl, id⟩
  | powerOn =>
    cases h
    exact .powerOn

/-- A step is a move: the agenda's first one, or the engine's when the agenda is empty. -/
theorem step_effect (h : step s = .next t) : ∃ m rest,
    (s.agenda = m :: rest ∨ (s.agenda = [] ∧ m = .core)) ∧ Effect m { s with agenda := rest } t := by
  rcases step_eq s with ⟨ha, heq⟩ | ⟨m, rest, ha, heq⟩ <;> rw [heq] at h
  · exact ⟨.core, s.agenda, .inr ⟨ha, rfl⟩, engine_effect h⟩
  · exact ⟨m, rest, .inl ha, perform_effect h⟩

end

/-! ### The build -/

theorem softReset_build (s : State) : s.softReset.cfg = s.cfg ∧ s.softReset.streams = s.streams := by
  obtain ⟨m, b, d, habort⟩ := abortRunning_shape s
  rcases softReset_cases s with ⟨-, heq⟩ | ⟨-, heq⟩ <;> rw [heq]
  · rw [habort]
    split <;> exact ⟨rfl, rfl⟩
  · exact ⟨rfl, rfl⟩

theorem softReset_busy (s : State) : s.softReset.busy = false := by
  rcases softReset_cases s with ⟨-, heq⟩ | ⟨-, heq⟩ <;> rw [heq] <;> rfl

theorem Effect.build {m : Move} {s t : State} (h : Effect m s t) : t.cfg = s.cfg ∧ t.streams = s.streams := by
  cases h with
  | quiet h => exact ⟨h.cfg, h.streams⟩
  | chknorm _ _ ht =>
    rw [ht]
    exact ⟨rfl, rfl⟩
  | powerOn => exact ⟨rfl, rfl⟩
  | softReset _ => exact softReset_build s
  | accepted _ => exact ⟨rfl, rfl⟩

/-- ID and the configuration registers, the only ones below 0x034, read the build alone. -/
theorem readRegister_of_cfg_eq {s t : State} (hcfg : t.cfg = s.cfg) {off : Nat} (hoff : off < 0x034) :
    t.readRegister off = s.readRegister off := by
  unfold State.readRegister
  rw [hcfg]
  split <;> try rfl
  all_goals omega

/-- Settles O9: every effect of a move keeps the build and the known bytes, and the registers below 0x034 read nothing else. -/
theorem stepKeepsTheBuild : Obligations.StepKeepsTheBuild := by
  intro s t h
  obtain ⟨m, rest, -, heffect⟩ := step_effect h
  obtain ⟨hcfg, hstreams⟩ := heffect.build
  exact ⟨hcfg, hstreams, fun _ hoff => readRegister_of_cfg_eq hcfg hoff⟩

/-! ### NORM and BUSY -/

/-- Settles O10: of the effects of a move, an accepted CMD write and the quiet ones keep NORM. -/
theorem onlyChknormOrResetChangesNorm : Obligations.OnlyChknormOrResetChangesNorm := by
  intro s t h hnorm
  obtain ⟨m, rest, hm, heffect⟩ := step_effect h
  cases heffect with
  | quiet hquiet => exact absurd hquiet.norm hnorm
  | chknorm hphase hra ht =>
    refine .inl ⟨?_, hphase, by rw [ht]; rfl, _, hra⟩
    exact hm.elim (fun ha => .inr ⟨rest, ha⟩) fun ha => .inl ha.1
  | powerOn => exact .inr (.inl ⟨rest, by simpa using hm⟩)
  | softReset hv => exact .inr (.inr ⟨_, rest, by simpa using hm, hv⟩)
  | accepted _ => exact absurd rfl hnorm

/-- Settles O11: of the effects of a move, only an accepted CMD write sets BUSY. -/
theorem onlyACmdWriteStartsACommand : Obligations.OnlyACmdWriteStartsACommand := by
  intro s t h _ hidle hbusy
  obtain ⟨m, rest, hm, heffect⟩ := step_effect h
  cases heffect with
  | quiet hquiet => exact absurd (hquiet.busy hbusy) (by simp [hidle])
  | chknorm _ _ ht =>
    rw [ht] at hbusy
    cases hbusy
  | powerOn => cases hbusy
  | softReset _ => exact absurd hbusy (by simp [softReset_busy])
  | accepted hi =>
    obtain ⟨hdecode, hop⟩ := (commandCheck_ok_iff _ _ _ _).mp hi
    exact ⟨_, rest, _, by simpa using hm, hdecode, ((operandError_none_iff _ _ _).mp hop).1, rfl, rfl, rfl⟩

end Sys2Proof.Machine
end

section
/-! PROOFS. The register block as the host sees it (spec/10_state.md): an aligned 4-byte access to it is a `readRegister` or a
`writeRegister`, the words of STATUS and CONTROL hold their fields, and no command reads ARG. -/

namespace Sys2Proof.Machine

/-! ### Accesses to the register block -/

theorem badAccess_w4_of_aligned {off : BitVec 17} (h : off.toNat % 4 = 0) : badAccess .w4 off = false := by
  simp [badAccess, h]

theorem regionOf_of_lt {c : Config} {off : Nat} (h : off < 0x100) : regionOf c off = .register := by
  simp [regionOf, h]

theorem hostRead_register (s : State) {off : BitVec 17} (halign : off.toNat % 4 = 0) (hoff : off.toNat < 0x100) :
    hostRead .w4 off s = .next (s.respond (some (s.readRegister off.toNat))) := by
  simp [hostRead, badAccess_w4_of_aligned halign, regionOf_of_lt hoff]

theorem hostWrite_register (s : State) (v : Word) {off : BitVec 17} (halign : off.toNat % 4 = 0) (hoff : off.toNat < 0x100) :
    hostWrite .w4 off v s = .next ((s.writeRegister off.toNat v).respond none) := by
  simp [hostWrite, badAccess_w4_of_aligned halign, regionOf_of_lt hoff]

/-- Only CMD, ARG, STATUS and CONTROL can be written. -/
theorem writeRegister_of_not_writable (s : State) (v : Word) {off : Nat} (h : off ∉ [0x40, 0x44, 0x48, 0x4C]) :
    s.writeRegister off v = s := by
  simp only [List.mem_cons, List.not_mem_nil, or_false, not_or] at h
  obtain ⟨hcmd, harg, hstatus, hcontrol⟩ := h
  rcases writeRegister_cases s off v with ⟨hn, -⟩ | ⟨hn, -⟩ | ⟨hn, -⟩ | ⟨hn, -⟩ | ⟨hn, -⟩ | heq
  · exact absurd hn hcmd
  · exact absurd hn harg
  · exact absurd hn hstatus
  · exact absurd hn hcontrol
  · exact absurd hn hcontrol
  · exact heq

/-! ### A write to ARG and the running command (R35) -/

/-- What the outcome of a command becomes when ARG holds `v` instead. -/
def withArg (v : Word) : Result → Result
  | .next t => .next (t.setArg v)
  | .fault r => .fault r
  | .refused r => .refused r

section
variable (v : Word) (s : State)

theorem withPoly_setArg (k : Slot) {f g : List Nat → Result} (h : ∀ p, g p = withArg v (f p)) :
    (s.setArg v).withPoly k g = withArg v (s.withPoly k f) := by
  unfold State.withPoly
  rw [State.setArg_poly]
  cases s.poly k with
  | some p => exact h p
  | none => rfl

theorem withBytes_setArg (off n : Nat) {f g : List Byte → Result} (h : ∀ bs, g bs = withArg v (f bs)) :
    (s.setArg v).withBytes off n g = withArg v (s.withBytes off n f) := by
  unfold State.withBytes
  rw [State.setArg_bufBytes]
  cases s.bufBytes off n with
  | some bs => exact h bs
  | none => rfl

theorem inPlace_setArg (f : List Nat → List Nat) (rd : Slot) : inPlace f rd (s.setArg v) = withArg v (inPlace f rd s) :=
  withPoly_setArg v s rd fun _ => rfl

theorem threeSlots_setArg (f : Nat → Nat → Nat) (rd ra rb : Slot) :
    threeSlots f rd ra rb (s.setArg v) = withArg v (threeSlots f rd ra rb s) :=
  withPoly_setArg v s ra fun _ => withPoly_setArg v s rb fun _ => rfl

theorem pack_setArg (r : Role) (ra : Slot) : pack r ra (s.setArg v) = withArg v (pack r ra s) :=
  withPoly_setArg v s ra fun _ => rfl

theorem unpack_setArg (r : Role) (rd : Slot) : unpack r rd (s.setArg v) = withArg v (unpack r rd s) :=
  withBytes_setArg v s s.offset _ fun _ => rfl

theorem runSampler_setArg (k : SamplerKind) (rd : Slot) : runSampler k rd (s.setArg v) = withArg v (runSampler k rd s) := by
  have hconsume (m : Sampler) : consumeDelivered (s.setArg v) k m = consumeDelivered s k m := rfl
  unfold runSampler
  rw [State.setArg_session, State.setArg_sampler, State.setArg_squeeze]
  cases s.session with
  | none => rfl
  | some p =>
    cases s.sampler with
    | none => rfl
    | some m =>
      cases s.squeeze with
      | some n => rfl
      | none =>
        dsimp only
        rw [hconsume]
        split <;> rfl

/-- No command reads ARG: what it runs on is LARG (R35). -/
theorem exec_setArg (i : Instr) : exec i (s.setArg v) = withArg v (exec i s) := by
  cases i with
  | reduce rd => exact inPlace_setArg v s _ rd
  | freeze rd => exact inPlace_setArg v s _ rd
  | ntt rd => exact inPlace_setArg v s _ rd
  | invntt rd => exact inPlace_setArg v s _ rd
  | shl rd => exact inPlace_setArg v s _ rd
  | pwmul rd ra rb => exact threeSlots_setArg v s _ rd ra rb
  | add rd ra rb => exact threeSlots_setArg v s _ rd ra rb
  | sub rd ra rb => exact threeSlots_setArg v s _ rd ra rb
  | chknorm ra => exact withPoly_setArg v s ra fun _ => rfl
  | power2round rd ra rb => exact withPoly_setArg v s ra fun _ => rfl
  | sampleUniform rd => exact runSampler_setArg v s _ rd
  | sampleEta rd => exact runSampler_setArg v s _ rd
  | sampleGamma1m1 rd => exact runSampler_setArg v s _ rd
  | packEta ra => exact pack_setArg v s _ ra
  | packT0 ra => exact pack_setArg v s _ ra
  | packT1 ra => exact pack_setArg v s _ ra
  | packZ ra => exact pack_setArg v s _ ra
  | packW1 ra => exact pack_setArg v s _ ra
  | unpackEta rd => exact unpack_setArg v s _ rd
  | unpackT0 rd => exact unpack_setArg v s _ rd
  | unpackT1 rd => exact unpack_setArg v s _ rd
  | unpackZ rd => exact unpack_setArg v s _ rd
  | unpackW1 rd => exact unpack_setArg v s _ rd

end

/-- Settles O15: a write to ARG is `setArg`, and `exec` commutes with it. -/
theorem argWriteLeavesTheRunningCommand : Obligations.ArgWriteLeavesTheRunningCommand := by
  intro s v
  refine ⟨hostWrite_register s v (by decide) (by decide), fun i t ht => ?_⟩
  have hcommutes := exec_setArg v s i
  rw [ht] at hcommutes
  exact hcommutes

/-! ### STATUS, CONTROL and the interrupt line -/

theorem writeStatus_eq (s : State) (v : Word) : s.writeStatus v = { s with
    done := s.done && !v.getLsbD 1
    err := s.err && !v.getLsbD 2
    errcode := if v.getLsbD 2 then .noError else s.errcode
    errinfo := if v.getLsbD 2 then 0#32 else s.errinfo } := by
  unfold State.writeStatus
  cases v.getLsbD 1 <;> cases v.getLsbD 2 <;> simp [State.ackDone, State.ackError]

/-- Settles O17: the write is `writeStatus`, whose two bits acknowledge independently. -/
theorem statusWriteOnlyAcknowledges : Obligations.StatusWriteOnlyAcknowledges := by
  intro s v
  rw [hostWrite_register s v (by decide) (by decide)]
  exact congrArg (fun t : State => Host.Outcome.next (t.respond none)) (writeStatus_eq s v)

/-- A bit of a word, from the word's value. -/
theorem getLsbD_of_toNat {w : Word} {n : Nat} {b : Bool} (h : w.toNat / 2 ^ n % 2 = b.toNat) : w.getLsbD n = b := by
  rw [BitVec.getLsbD, Nat.testBit_eq_decide_div_mod_eq, h]
  cases b <;> rfl

theorem ErrCode.code_lt (e : ErrCode) : e.code < 16 := by cases e <;> decide

theorem ErrCode.code_eq_errorCodeTable (e : ErrCode) : e.code = errorCodeTable e := by cases e <;> rfl

theorem statusWord_toNat (s : State) : s.statusWord.toNat
    = s.busy.toNat + s.done.toNat * 2 + s.err.toNat * 4 + s.norm.toNat * 8 + s.errcode.code * 256 := by
  have := s.busy.toNat_lt
  have := s.done.toNat_lt
  have := s.err.toNat_lt
  have := s.norm.toNat_lt
  have := s.errcode.code_lt
  rw [State.statusWord, BitVec.toNat_ofNat]
  omega

theorem controlWord_toNat (s : State) : s.controlWord.toNat = s.ieDone.toNat * 2 + s.ieErr.toNat * 4 := by
  have := s.ieDone.toNat_lt
  have := s.ieErr.toNat_lt
  rw [State.controlWord, BitVec.toNat_ofNat]
  omega

/-- Settles O18: STATUS is the sum of its fields, each below the next one's weight. -/
theorem statusReadsItsFields : Obligations.StatusReadsItsFields := by
  intro s
  refine ⟨s.statusWord, hostRead_register s (by decide) (by decide), ?_⟩
  have hword := statusWord_toNat s
  have hbusy := s.busy.toNat_lt
  have hdone := s.done.toNat_lt
  have herr := s.err.toNat_lt
  have hnorm := s.norm.toNat_lt
  have hcode := s.errcode.code_lt
  rw [← s.errcode.code_eq_errorCodeTable]
  refine ⟨getLsbD_of_toNat ?_, getLsbD_of_toNat ?_, getLsbD_of_toNat ?_, getLsbD_of_toNat ?_, ?_, ?_, ?_⟩ <;> omega

/-- Settles O19: the line is defined as this Boolean expression of the four flags. -/
theorem irqIsTheEnabledOr : Obligations.IrqIsTheEnabledOr := by
  intro s
  rw [State.irq, Bool.or_eq_true, Bool.and_eq_true, Bool.and_eq_true]

theorem softReset_controlWord (s : State) : s.softReset.controlWord = 0#32 := by
  rcases softReset_cases s with ⟨-, heq⟩ | ⟨-, heq⟩ <;> rw [heq] <;> rfl

/-- Settles O28: a write is `writeEnables` or `softReset` by bit 0, and CONTROL is the sum of its two fields. -/
theorem controlHoldsTheInterruptEnables : Obligations.ControlHoldsTheInterruptEnables := by
  intro s v
  have hwrite : hostWrite .w4 0x4C#17 v s = .next ((s.writeControl v).respond none) :=
    hostWrite_register s v (by decide) (by decide)
  refine ⟨fun hv => ?_, fun hv => ⟨s.softReset.respond none, ?_, ?_⟩,
    s.controlWord, hostRead_register s (by decide) (by decide), ?_⟩
  · rw [hwrite, State.writeControl, hv]
    rfl
  · rw [hwrite, State.writeControl, hv]
    rfl
  · rw [← softReset_controlWord s]
    exact hostRead_register _ (by decide) (by decide)
  · have hword := controlWord_toNat s
    have hdone := s.ieDone.toNat_lt
    have herr := s.ieErr.toNat_lt
    refine ⟨getLsbD_of_toNat (show _ = 0 from ?_), getLsbD_of_toNat ?_, getLsbD_of_toNat ?_, ?_⟩ <;> omega

/-! ### ID, the configuration registers and the held values -/

theorem nbInit_lt_of_legal {c : Config} (h : c.legal = true) : c.nbInitU < 256 ∧ c.nbInitE < 256 ∧ c.nbInitG < 256 := by
  simp only [Config.legal, Bool.and_eq_true, decide_eq_true_eq] at h
  omega

/-- The packed NB_INIT fits its word (R33). -/
theorem readRegister_nbInit_toNat {s : State} (h : s.cfg.legal = true) : (s.readRegister 0x030).toNat
    = s.cfg.nbInitU + s.cfg.nbInitE * 2 ^ 8 + s.cfg.nbInitG * 2 ^ 16 := by
  have hlt := nbInit_lt_of_legal h
  rw [State.readRegister, BitVec.toNat_ofNat]
  omega

/-- Settles O27: each offset is one arm of `readRegister`, and none up to 0x030 can be written. -/
theorem registersReadTheirValues : Obligations.RegistersReadTheirValues := by
  intro s hlegal
  have hread (off : BitVec 17) (h : off.toNat % 4 = 0 ∧ off.toNat < 0x100) := hostRead_register s h.1 h.2
  refine ⟨hread 0x000 (by decide), hread 0x004 (by decide), hread 0x008 (by decide), hread 0x00C (by decide),
    hread 0x010 (by decide), hread 0x014 (by decide), hread 0x018 (by decide), hread 0x01C (by decide),
    hread 0x020 (by decide), hread 0x024 (by decide), hread 0x028 (by decide), hread 0x02C (by decide),
    ⟨s.readRegister 0x030, hread 0x030 (by decide), ?_⟩, hread 0x040 (by decide), hread 0x044 (by decide), hread 0x050 (by decide),
    hread 0x054 (by decide), hread 0x058 (by decide), fun off v halign hoff => ?_⟩
  · obtain ⟨hU, hE, hG⟩ := nbInit_lt_of_legal hlegal
    have hword := readRegister_nbInit_toNat hlegal
    refine ⟨?_, ?_, ?_, ?_⟩ <;> omega
  · rw [hostWrite_register s v halign (by omega), writeRegister_of_not_writable s v (by simp; omega)]
    rfl

end Sys2Proof.Machine
end

section
/-! PROOFS. A command's word decodes to the command, and the step that finds it latched runs it (spec/10_state.md R38). -/

namespace Sys2Proof.Machine

/-! ### The fields of an assembled word (R101) -/

section
variable {op : Nat} (hop : op < 64)
include hop

theorem opField_encodeFields (rd ra rb : Nat) : opField (encodeFields op rd ra rb) = op := by
  rw [opField, encodeFields, BitVec.toNat_ofNat]
  omega

theorem rdField_encodeFields (rd : Slot) (ra rb : Nat) : rdField (encodeFields op rd ra rb) = rd := by
  refine Fin.ext ?_
  rw [rdField, Fin.val_ofNat, encodeFields, BitVec.toNat_ofNat]
  omega

theorem raField_encodeFields {rd : Nat} (hrd : rd < 16) (ra : Slot) (rb : Nat) : raField (encodeFields op rd ra rb) = ra := by
  refine Fin.ext ?_
  rw [raField, Fin.val_ofNat, encodeFields, BitVec.toNat_ofNat]
  omega

theorem rbField_encodeFields (rd ra rb : Slot) : rbField (encodeFields op rd ra rb) = rb := by
  refine Fin.ext ?_
  rw [rbField, Fin.val_ofNat, encodeFields, BitVec.toNat_ofNat]
  omega

end

/-- A mask whose zero bits are `lo` to `lo + n − 1` leaves of `2 ^ lo * f + op` the part below `lo`. -/
theorem ofNat_and_mask {mask : Word} {lo n f op : Nat}
    (hmask : ∀ j < 32, mask.getLsbD j = (decide (j < lo) || decide (lo + n ≤ j))) (hop : op < 2 ^ lo) (hf : f < 2 ^ n) :
    BitVec.ofNat 32 (2 ^ lo * f + op) &&& mask = BitVec.ofNat 32 op := by
  refine BitVec.eq_of_getLsbD_eq fun j hj => ?_
  rw [BitVec.getLsbD_and, BitVec.getLsbD_ofNat, BitVec.getLsbD_ofNat, Nat.testBit_two_pow_mul_add _ hop, hmask j hj]
  by_cases hlo : j < lo
  · simp [hlo]
  · have hopj : op.testBit j = false := Nat.testBit_lt_two_pow (hop.trans_le (Nat.pow_le_pow_right (by decide) (by omega)))
    by_cases hn : lo + n ≤ j
    · have hfj : f.testBit (j - lo) = false :=
        Nat.testBit_lt_two_pow (hf.trans_le (Nat.pow_le_pow_right (by decide) (by omega)))
      simp [hlo, hopj, hfj]
    · simp [hlo, hn, hopj]

section
variable {op : Nat} (hop : op < 64)
include hop

theorem checkFields_D (rd : Slot) (i : Instr) : checkFields (encodeFields op rd 0 0) .D op i = .ok i := by
  refine if_pos ?_
  rw [encodeFields, show op + rd * 2 ^ 8 + 0 * 2 ^ 12 + 0 * 2 ^ 16 = 2 ^ 8 * rd.val + op by omega]
  exact ofNat_and_mask (n := 4) (by decide) (by omega) rd.isLt

theorem checkFields_S (ra : Slot) (i : Instr) : checkFields (encodeFields op 0 ra 0) .S op i = .ok i := by
  refine if_pos ?_
  rw [encodeFields, show op + 0 * 2 ^ 8 + ra * 2 ^ 12 + 0 * 2 ^ 16 = 2 ^ 12 * ra.val + op by omega]
  exact ofNat_and_mask (n := 4) (by decide) (by omega) ra.isLt

theorem checkFields_T (rd ra rb : Slot) (i : Instr) : checkFields (encodeFields op rd ra rb) .T op i = .ok i := by
  refine if_pos ?_
  rw [encodeFields, show op + rd * 2 ^ 8 + ra * 2 ^ 12 + rb * 2 ^ 16 = 2 ^ 8 * (rd.val + ra * 2 ^ 4 + rb * 2 ^ 8) + op by omega]
  exact ofNat_and_mask (n := 12) (by decide) (by omega) (by omega)

end

/-- The word of a command decodes to it: its OP selects the command's row, and no bit stands outside the row's fields. -/
theorem decode_encode (i : Instr) : decode (encode i) = .ok i := by
  cases i <;> simp [encode, decode, opField_encodeFields, rdField_encodeFields, raField_encodeFields, rbField_encodeFields,
    checkFields_D, checkFields_S, checkFields_T]

/-! ### The step that runs it -/

theorem commandCheck_of_wellFormed {c : Config} {w arg : Word} {i : Instr} (hdecode : decode w = .ok i)
    (hwell : i.wellFormed c = true) (hrange : ∀ r, bufRole i = some r → arg.toNat + roleSize c r ≤ c.bufBytes) :
    commandCheck c w arg = .ok i :=
  (commandCheck_ok_iff _ _ _ _).mpr ⟨hdecode, (operandError_none_iff _ _ _).mpr ⟨hwell, hrange⟩⟩

/-- With no move ahead of it, the engine runs the checked latched command. -/
theorem step_of_agenda_nil {s : State} {i : Instr} (hphase : s.phase = .running)
    (hi : commandCheck s.cfg s.lcmd s.larg = .ok i) (ha : s.agenda = []) : step s = exec i s := by
  rw [step, nextMove, ha]
  exact engine_running hphase hi

theorem step_of_agenda_core {s : State} {i : Instr} (hphase : s.phase = .running)
    (hi : commandCheck s.cfg s.lcmd s.larg = .ok i) {rest : List Move} (ha : s.agenda = .core :: rest) :
    step s = exec i { s with agenda := rest } := by
  rw [step, nextMove, ha]
  exact engine_running (s := { s with agenda := rest }) hphase hi

theorem withFetchWord_lcmd (s : State) (w : Word) : (s.withFetchWord 32 w.toNat).lcmd = w := by
  show BitVec.ofNat 32 (w.toNat % 2 ^ 32) = w
  rw [Nat.mod_eq_of_lt w.isLt, BitVec.ofNat_toNat, BitVec.setWidth_eq]

/-- Settles O4: the step is the engine's move on the latched word, which `withFetchWord` places ahead of the agenda. -/
theorem stepRunsTheLatchedCommand : Obligations.StepRunsTheLatchedCommand := by
  refine ⟨fun s i hphase hdecode hwell hrange => ?_, fun s hidle ha => ?_, fun s i hwell hrange => ?_⟩
  · have hi := commandCheck_of_wellFormed hdecode hwell hrange
    exact ⟨step_of_agenda_nil hphase hi, fun _ => step_of_agenda_core hphase hi⟩
  · rw [step, nextMove, ha]
    exact engine_idle hidle
  · have hi : commandCheck s.cfg (s.withFetchWord 32 (encode i).toNat).lcmd s.arg = .ok i := by
      rw [withFetchWord_lcmd]
      exact commandCheck_of_wellFormed (decode_encode i) hwell hrange
    cases ha : s.agenda with
    | nil =>
      have hfetch : (s.withFetchWord 32 (encode i).toNat).agenda = [] := by simp [State.withFetchWord, State.latchCommand, ha]
      rw [← hfetch]
      exact step_of_agenda_nil rfl hi hfetch
    | cons m rest =>
      exact step_of_agenda_core rfl hi (by simp [State.withFetchWord, State.latchCommand, ha])

end Sys2Proof.Machine
end

section
/-! PROOFS. The host's accesses to the aperture (spec/20_memory.md): which region of the map an offset is in, what a read and a write do
in each region, what a refused access leaves, and the words of the zeta ROMs. -/

namespace Sys2Proof.Machine

/-! ### The map (R71) -/

section
variable {c : Config} {off : Nat}

theorem regionOf_zeta_of_range (h : 0x1000 ≤ off ∧ off < 0x1400) : regionOf c off = .zeta ((off - 0x1000) / 4) := by
  simp (disch := omega) only [regionOf, if_pos, if_neg]

theorem regionOf_zetaInv_of_range (h : 0x1400 ≤ off ∧ off < 0x1800) : regionOf c off = .zetaInv ((off - 0x1400) / 4) := by
  simp (disch := omega) only [regionOf, if_pos, if_neg]

theorem regionOf_bufWord_of_range (h : 0x2000 ≤ off ∧ off < 0x2000 + c.bufBytes) : regionOf c off = .bufWord (off - 0x2000) := by
  simp (disch := omega) only [regionOf, if_pos, if_neg]

/-- R9: on a legal build BUF and the slots fit into their windows. -/
theorem storage_le_of_legal (h : c.legal = true) : c.bufBytes ≤ 0xE000 ∧ c.npoly ≤ 16 := by
  simp only [Config.legal, Bool.and_eq_true, decide_eq_true_eq] at h
  omega

theorem regionOf_coeff_of_range (hlegal : c.legal = true) (h : 0x10000 ≤ off ∧ off < 0x10000 + 1024 * c.npoly) :
    regionOf c off = .coeff ((off - 0x10000) / 4) := by
  have := storage_le_of_legal hlegal
  simp (disch := omega) only [regionOf, if_pos, if_neg]

/-- Between the register block and the ZETA window, between the ZETA and BUF windows, beyond BUF and beyond the last slot. -/
theorem regionOf_unmapped_of_range (hlegal : c.legal = true)
    (h : (0x100 ≤ off ∧ off < 0x1000) ∨ (0x1800 ≤ off ∧ off < 0x2000) ∨ (0x2000 + c.bufBytes ≤ off ∧ off < 0x10000)
      ∨ 0x10000 + 1024 * c.npoly ≤ off) : regionOf c off = .unmapped := by
  have := storage_le_of_legal hlegal
  rcases h with h | h | h | h <;> simp (disch := omega) only [regionOf, if_pos, if_neg]

end

/-- An offset below 128 KiB is its own 17-bit word. -/
theorem toNat_offset {n : Nat} (h : n < 0x20000) : (BitVec.ofNat 17 n).toNat = n := Nat.mod_eq_of_lt h

/-! ### What a refused access leaves (R345, R346) -/

theorem OnlyErrorRecord.of_eq {s t : State} (ht : t = { s with
    cmd := t.cmd, err := t.err, errcode := t.errcode, errinfo := t.errinfo, response := t.response, drawn := t.drawn }) :
    OnlyErrorRecord s t := by
  rw [ht]
  constructor <;> rfl

section
variable (s : State) (e : ErrCode) (w : Word)

theorem onlyErrorRecord_respond (r : Option Word) : OnlyErrorRecord s (s.respond r) := .of_eq rfl

theorem onlyErrorRecord_raiseError_respond (r : Option Word) : OnlyErrorRecord s ((s.raiseError e w).respond r) := .of_eq rfl

theorem onlyErrorRecord_refuseBusyRead (off : BitVec 17) : OnlyErrorRecord s (s.refuseBusyRead off) := .of_eq rfl

theorem records_raiseError_respond (r : Option Word) : Records e w s ((s.raiseError e w).respond r) := ⟨rfl, rfl, rfl⟩

theorem records_refuseBusyRead (off : BitVec 17) : Records .accessWhileBusy (offsetWord off) s (s.refuseBusyRead off) :=
  ⟨rfl, rfl, rfl⟩

end

/-! ### Reads and writes by region -/

theorem badAccess_eq_true_iff (width : AccessWidth) (off : BitVec 17) :
    badAccess width off = true ↔ width ≠ .w4 ∨ off.toNat % 4 ≠ 0 := by
  simp [badAccess]

section
variable (s : State) {off : BitVec 17} (halign : off.toNat % 4 = 0)
include halign

theorem hostRead_unmapped (h : regionOf s.cfg off.toNat = .unmapped) :
    hostRead .w4 off s = .next ((s.raiseError .badAddress (offsetWord off)).respond (some 0#32)) := by
  simp [hostRead, badAccess_w4_of_aligned halign, h]

theorem hostWrite_unmapped (v : Word) (h : regionOf s.cfg off.toNat = .unmapped) :
    hostWrite .w4 off v s = .next ((s.raiseError .badAddress (offsetWord off)).respond none) := by
  simp [hostWrite, badAccess_w4_of_aligned halign, h]

theorem hostRead_zeta {k : Nat} (h : regionOf s.cfg off.toNat = .zeta k) :
    hostRead .w4 off s = .next (s.respond (some (BitVec.ofNat 32 (zetas.getD k 0)))) := by
  simp [hostRead, badAccess_w4_of_aligned halign, h]

theorem hostRead_zetaInv {k : Nat} (h : regionOf s.cfg off.toNat = .zetaInv k) :
    hostRead .w4 off s = .next (s.respond (some (BitVec.ofNat 32 (zetasInv.getD k 0)))) := by
  simp [hostRead, badAccess_w4_of_aligned halign, h]

theorem hostWrite_rom (v : Word) (h : 0x1000 ≤ off.toNat ∧ off.toNat < 0x1800) : hostWrite .w4 off v s = .next (s.respond none) := by
  rcases Nat.lt_or_ge off.toNat 0x1400 with hk | hk
  · simp [hostWrite, badAccess_w4_of_aligned halign, regionOf_zeta_of_range ⟨h.1, hk⟩]
  · simp [hostWrite, badAccess_w4_of_aligned halign, regionOf_zetaInv_of_range ⟨hk, h.2⟩]

/-- The register block and the ZETA window can be read at any time (R75, R80). -/
theorem hostRead_registerOrRom (h : off.toNat < 0x100 ∨ (0x1000 ≤ off.toNat ∧ off.toNat < 0x1800)) :
    ∃ x, hostRead .w4 off s = .next (s.respond (some x)) := by
  rcases h with h | ⟨hlo, hhi⟩
  · exact ⟨_, hostRead_register s halign h⟩
  · rcases Nat.lt_or_ge off.toNat 0x1400 with hk | hk
    · exact ⟨_, hostRead_zeta s halign (regionOf_zeta_of_range ⟨hlo, hk⟩)⟩
    · exact ⟨_, hostRead_zetaInv s halign (regionOf_zetaInv_of_range ⟨hk, hhi⟩)⟩

section
variable (hbusy : s.busy = false)
include hbusy

theorem hostRead_bufWord {o : Nat} (h : regionOf s.cfg off.toNat = .bufWord o) :
    hostRead .w4 off s = s.withBytes o 4 fun bs => .next (s.respond (some (wordOfBytes bs))) := by
  simp [hostRead, badAccess_w4_of_aligned halign, h, hbusy]

theorem hostWrite_bufWord (v : Word) {o : Nat} (h : regionOf s.cfg off.toNat = .bufWord o) :
    hostWrite .w4 off v s = .next ((s.setBytes o (bytesOfWord v)).respond none) := by
  simp [hostWrite, badAccess_w4_of_aligned halign, h, hbusy]

theorem hostRead_coeff_written {key : Nat} {x : Word} (h : regionOf s.cfg off.toNat = .coeff key)
    (hx : Memory.read s.slots key = some x) : hostRead .w4 off s = .next (s.respond (some x)) := by
  simp [hostRead, badAccess_w4_of_aligned halign, h, hbusy, hx]

theorem hostRead_coeff_unwritten {key : Nat} (h : regionOf s.cfg off.toNat = .coeff key) (hx : Memory.read s.slots key = none) :
    hostRead .w4 off s = .fault (.unwrittenRead .slotFile) := by
  simp [hostRead, badAccess_w4_of_aligned halign, h, hbusy, hx]

theorem hostWrite_coeff (v : Word) {key : Nat} (h : regionOf s.cfg off.toNat = .coeff key) :
    hostWrite .w4 off v s = .next ((s.setCoeff key v).respond none) := by
  simp [hostWrite, badAccess_w4_of_aligned halign, h, hbusy]

end

/-! ### Both windows at once -/

section
variable (hlegal : s.cfg.legal = true)
  (hwindow : (0x2000 ≤ off.toNat ∧ off.toNat < 0x2000 + s.cfg.bufBytes)
    ∨ (0x10000 ≤ off.toNat ∧ off.toNat < 0x10000 + 1024 * s.cfg.npoly))
include hlegal hwindow

theorem hostRead_window_busy (hbusy : s.busy = true) : hostRead .w4 off s = .next (s.refuseBusyRead off) := by
  rcases hwindow with h | h
  · simp [hostRead, badAccess_w4_of_aligned halign, regionOf_bufWord_of_range h, hbusy]
  · simp [hostRead, badAccess_w4_of_aligned halign, regionOf_coeff_of_range hlegal h, hbusy]

theorem hostWrite_window_busy (v : Word) (hbusy : s.busy = true) :
    hostWrite .w4 off v s = .next ((s.raiseError .accessWhileBusy (offsetWord off)).respond none) := by
  rcases hwindow with h | h
  · simp [hostWrite, badAccess_w4_of_aligned halign, regionOf_bufWord_of_range h, hbusy]
  · simp [hostWrite, badAccess_w4_of_aligned halign, regionOf_coeff_of_range hlegal h, hbusy]

/-- With no command running a window read is never refused: it answers what the location holds, or is a fault. -/
theorem hostRead_window_idle (hbusy : s.busy = false) {t : State} (ht : hostRead .w4 off s = .next t) :
    ∃ r, t = s.respond r := by
  rcases hwindow with h | h
  · rw [hostRead_bufWord s halign hbusy (regionOf_bufWord_of_range h)] at ht
    obtain ⟨bs, -, hbs⟩ := (s.withBytes_next_iff _ _ _ _).mp ht
    cases hbs
    exact ⟨_, rfl⟩
  · have hregion := regionOf_coeff_of_range hlegal h
    cases hx : Memory.read s.slots ((off.toNat - 0x10000) / 4) with
    | none =>
      rw [hostRead_coeff_unwritten s halign hbusy hregion hx] at ht
      cases ht
    | some x =>
      rw [hostRead_coeff_written s halign hbusy hregion hx] at ht
      cases ht
      exact ⟨_, rfl⟩

end

end

/-- A read does not depend on what the access before it returned. -/
theorem hostRead_respond (width : AccessWidth) (off : BitVec 17) (s : State) (r : Option Word) :
    hostRead width off (s.respond r) = hostRead width off s := rfl

/-! ### Refused accesses (R76, R77, R80) -/

/-- Settles O20: the check of width and alignment comes first in a read and in a write. -/
theorem badAccessIsRefused : Obligations.BadAccessIsRefused := by
  intro s width off v h
  have hbad := (badAccess_eq_true_iff width off).mpr h
  exact ⟨⟨_, if_pos hbad, rfl, rfl, rfl, records_raiseError_respond .., onlyErrorRecord_raiseError_respond ..⟩,
    ⟨_, if_pos hbad, rfl, rfl, records_raiseError_respond .., onlyErrorRecord_raiseError_respond ..⟩⟩

/-- Settles O21: the map has nothing in these ranges, and BUSY is not looked at. -/
theorem badAddressIsRefused : Obligations.BadAddressIsRefused := by
  intro s off v hlegal halign h
  have hregion := regionOf_unmapped_of_range hlegal h
  exact ⟨⟨_, hostRead_unmapped s halign hregion, rfl, rfl, rfl, records_raiseError_respond .., onlyErrorRecord_raiseError_respond ..⟩,
    ⟨_, hostWrite_unmapped s halign v hregion, rfl, rfl, records_raiseError_respond .., onlyErrorRecord_raiseError_respond ..⟩⟩

/-- Settles O22: with BUSY set both windows refuse, and no other region looks at BUSY. -/
theorem windowsAreClosedWhileBusy : Obligations.WindowsAreClosedWhileBusy := by
  intro s off v hlegal hbusy halign
  refine ⟨fun h => ⟨?_, ?_⟩, hostRead_registerOrRom s halign⟩
  · exact ⟨_, _, hostRead_window_busy s halign hlegal h hbusy, rfl, rfl, records_refuseBusyRead .., onlyErrorRecord_refuseBusyRead ..⟩
  · exact ⟨_, hostWrite_window_busy s halign hlegal h v hbusy, rfl, records_raiseError_respond ..,
      onlyErrorRecord_raiseError_respond ..⟩

/-! ### Reads have no side effects (R78) -/

/-- Settles O23: `hostRead_cases` for the frame, `hostRead_respond` for the repetition. -/
theorem hostReadsHaveNoSideEffects : Obligations.HostReadsHaveNoSideEffects := by
  intro s
  refine ⟨fun width off t ht => ?_, fun off t hlegal halign hrange ht => ?_⟩
  · rcases hostRead_cases ht with ⟨r, rfl⟩ | ⟨e, w, -, rfl⟩ | ⟨-, rfl⟩
    · exact ⟨onlyErrorRecord_respond .., rfl⟩
    · exact ⟨onlyErrorRecord_raiseError_respond .., rfl⟩
    · exact ⟨onlyErrorRecord_refuseBusyRead .., rfl⟩
  · have hanswer : ∃ r, t = s.respond r := by
      rcases or_assoc.mpr hrange with hopen | ⟨hbusy, hwindow⟩
      · obtain ⟨x, hx⟩ := hostRead_registerOrRom s halign hopen
        cases hx.symm.trans ht
        exact ⟨_, rfl⟩
      · exact hostRead_window_idle s halign hlegal hwindow hbusy ht
    obtain ⟨r, rfl⟩ := hanswer
    exact ⟨rfl, (hostRead_respond .w4 off s r).trans ht⟩

/-! ### The POLY window (R73) -/

section
variable {k i : Nat}

/-- `x[k][i]` stands at `0x10000 + 1024·k + 4·i`. -/
theorem coeffOffset_region {c : Config} (hlegal : c.legal = true) (hk : k < c.npoly) (hi : i < 256) :
    (BitVec.ofNat 17 (0x10000 + 1024 * k + 4 * i)).toNat % 4 = 0
      ∧ regionOf c (BitVec.ofNat 17 (0x10000 + 1024 * k + 4 * i)).toNat = .coeff (slotKey k i) := by
  have := storage_le_of_legal hlegal
  rw [toNat_offset (by omega), regionOf_coeff_of_range hlegal (by omega), slotKey]
  exact ⟨by omega, congrArg _ (by omega)⟩

theorem setCoeff_coeff_same (s : State) (v : Word) : (s.setCoeff (slotKey k i) v).coeff k i = some v :=
  Memory.read_write_same ..

theorem setCoeff_coeff_other (s : State) (v : Word) {l j : Nat} (hi : i < 256) (hj : j < 256) (h : l ≠ k ∨ j ≠ i) :
    (s.setCoeff (slotKey k i) v).coeff l j = s.coeff l j := by
  have hkey : slotKey k i ≠ slotKey l j := by
    simp only [slotKey]
    omega
  exact (Memory.read_write ..).trans (if_neg hkey)

end

/-- Settles O24: the window's offset is the coefficient's key, and different coefficients have different keys. -/
theorem polyWindowIsTheSlotFile : Obligations.PolyWindowIsTheSlotFile := by
  intro s k i v hlegal hbusy hk hi
  obtain ⟨halign, hregion⟩ := coeffOffset_region hlegal hk hi
  refine ⟨⟨_, hostWrite_coeff s halign hbusy v hregion, rfl, setCoeff_coeff_same s v, fun l j hj h => ?_⟩,
    fun x hx => ?_, fun hx => ?_⟩
  · exact setCoeff_coeff_other s v hi hj h
  · exact hostRead_coeff_written s halign hbusy hregion hx
  · exact hostRead_coeff_unwritten s halign hbusy hregion hx

/-! ### The BUF window (R74) -/

theorem bufOffset_region {c : Config} (hlegal : c.legal = true) {o : Nat} (halign : o % 4 = 0) (ho : o < c.bufBytes) :
    (BitVec.ofNat 17 (0x2000 + o)).toNat % 4 = 0 ∧ regionOf c (BitVec.ofNat 17 (0x2000 + o)).toNat = .bufWord o := by
  have := storage_le_of_legal hlegal
  rw [toNat_offset (by omega), regionOf_bufWord_of_range (by omega)]
  exact ⟨by omega, congrArg _ (by omega)⟩

theorem length_bytesOfWord (v : Word) : (bytesOfWord v).length = 4 := by simp [bytesOfWord]

theorem getElem_bytesOfWord (v : Word) {d : Nat} (h : d < (bytesOfWord v).length) :
    (bytesOfWord v)[d] = BitVec.ofNat 8 (v.toNat / 2 ^ (8 * d)) := by
  simp [bytesOfWord, pow_mul]

theorem wordOfBytes_of_length_four {bs : List Byte} (h : bs.length = 4) : wordOfBytes bs
    = BitVec.ofNat 32 (bs[0].toNat + bs[1].toNat * 2 ^ 8 + bs[2].toNat * 2 ^ 16 + bs[3].toNat * 2 ^ 24) := by
  match bs, h with
  | [b₀, b₁, b₂, b₃], _ =>
    simp only [wordOfBytes, List.foldr, List.getElem_cons_zero, List.getElem_cons_succ]
    congr 1
    omega

/-- Settles O25: a store of four consecutive bytes, and a read of them that faults where one is unwritten. -/
theorem bufWindowIsLittleEndian : Obligations.BufWindowIsLittleEndian := by
  intro s o v hlegal hbusy ho hlt
  obtain ⟨halign, hregion⟩ := bufOffset_region hlegal ho hlt
  have hlen := length_bytesOfWord v
  refine ⟨⟨_, hostWrite_bufWord s halign hbusy v hregion, rfl, fun d hd => ?_, ?_⟩, fun hread => ?_, fun hread => ?_⟩
  · have hd : d < (bytesOfWord v).length := by omega
    rw [State.respond_bufByte, s.setBytes_bufByte_inside o d _ hd, getElem_bytesOfWord]
  · have hframe := s.setBytes_bufSameBut o (bytesOfWord v)
    rwa [hlen] at hframe
  · rw [hostRead_bufWord s halign hbusy hregion]
    obtain ⟨bs, hbs, hl, hval⟩ := s.withBytes_of_readable o 4 (fun bs => .next (s.respond (some (wordOfBytes bs)))) hread
    rw [hbs, wordOfBytes_of_length_four hl, hval, hval, hval, hval]
    rfl
  · rw [hostRead_bufWord s halign hbusy hregion]
    exact s.withBytes_unreadable o 4 _ hread

/-! ### The ZETA window (R75) -/

/-- The table of R162 is the one that R160 computes, word by word. -/
theorem zetas_eq_map_zetaWord : zetas = (List.range 256).map zetaWord := by decide +kernel

/-- The table of R162 is the one that R161 computes, word by word. -/
theorem zetasInv_eq_map_zetaInvWord : zetasInv = (List.range 256).map zetaInvWord := by decide +kernel

theorem getD_map_range (f : Nat → Nat) {n k : Nat} (h : k < n) : ((List.range n).map f).getD k 0 = f k := by
  simp [h]

theorem zetas_getD {k : Nat} (hk : k < 256) : zetas.getD k 0 = zetaWord k := by
  rw [zetas_eq_map_zetaWord, getD_map_range _ hk]

theorem zetasInv_getD {k : Nat} (hk : k < 256) : zetasInv.getD k 0 = zetaInvWord k := by
  rw [zetasInv_eq_map_zetaInvWord, getD_map_range _ hk]

/-- Settles O26: the window reads the two tables, and the tables are the ones computed from ROOT. -/
theorem zetaWindowReadsTheRoms : Obligations.ZetaWindowReadsTheRoms := by
  intro s k v hk
  have hzeta : (BitVec.ofNat 17 (0x1000 + 4 * k)).toNat = 0x1000 + 4 * k := toNat_offset (by omega)
  have hzetaInv : (BitVec.ofNat 17 (0x1400 + 4 * k)).toNat = 0x1400 + 4 * k := toNat_offset (by omega)
  refine ⟨?_, ?_, hostWrite_rom s (by omega) v (by omega), hostWrite_rom s (by omega) v (by omega)⟩
  · rw [hostRead_zeta s (by omega) (regionOf_zeta_of_range (by omega)), hzeta, zetas_getD (by omega)]
    simp [State.respond]
  · rw [hostRead_zetaInv s (by omega) (regionOf_zetaInv_of_range (by omega)), hzetaInv, zetasInv_getD (by omega)]
    simp [State.respond]

/-! ### The register block (R72) -/

theorem readRegister_unlisted (s : State) {off : Nat} (h : (0x034 ≤ off ∧ off < 0x040) ∨ 0x05C ≤ off) :
    s.readRegister off = 0#32 := by
  unfold State.readRegister
  split
  case h_21 => rfl
  all_goals omega

/-- Settles O29: a write reaches no register but at the four writable offsets, and a read finds none at an unlisted one. -/
theorem readOnlyRegistersIgnoreWrites : Obligations.ReadOnlyRegistersIgnoreWrites := by
  intro s off v halign hoff
  refine ⟨fun h => ?_, fun h => ?_⟩
  · rw [hostWrite_register s v halign hoff, writeRegister_of_not_writable s v h]
    rfl
  · rw [hostRead_register s halign hoff, readRegister_unlisted s h]
    rfl

end Sys2Proof.Machine
end

section
/-! PROOFS. Reading a command word (spec/30_encoding.md R100 to R107): every word selects one row of the opcode map or none, and a word
that fits its row's format is the encoding of the command read from it. -/

namespace Sys2Proof

/-- The word with opcode `op` that holds the slots of `w` in the fields of a format and 0 in the others (R101, R102). -/
def Format.reassemble (op : Nat) (w : Word) : Format → Word
  | .D => encodeFields op (rdField w) 0 0
  | .S => encodeFields op 0 (raField w) 0
  | .T => encodeFields op (rdField w) (raField w) (rbField w)

/-- The opcodes of a format (R105). -/
def Format.opcodes : Format → List Nat
  | .D => [0x01, 0x02, 0x04, 0x05, 0x08, 0x10, 0x11, 0x12, 0x20, 0x21, 0x22, 0x23, 0x24]
  | .S => [0x09, 0x18, 0x19, 0x1A, 0x1B, 0x1C]
  | .T => [0x03, 0x06, 0x07, 0x0A]

/-- The word has an opcode of the format, and no bit set outside it and the format's fields. -/
def Format.Fits (w : Word) (f : Format) : Prop := opField w ∈ f.opcodes ∧ (w &&& f.mask).toNat = opField w

end Sys2Proof

namespace Sys2Proof.Machine

/-! ### The fields of a word that fits a format -/

/-- What a mask whose zero bits are `lo` to `lo + n − 1` says of a word that it takes to `op`: the part below `lo` is `op`, and nothing
stands above the field. -/
theorem parts_of_and_mask {w mask : Word} {lo n op : Nat} (hlo : lo ≤ 32)
    (hmask : ∀ j < 32, mask.getLsbD j = (decide (j < lo) || decide (lo + n ≤ j))) (hop : op < 2 ^ lo)
    (h : w &&& mask = BitVec.ofNat 32 op) : w.toNat % 2 ^ lo = op ∧ w.toNat < 2 ^ (lo + n) := by
  have hkept {j : Nat} (hj : j < 32) (hj' : j < lo ∨ lo + n ≤ j) : w.toNat.testBit j = op.testBit j := by
    have hword : (w &&& mask).getLsbD j = (BitVec.ofNat 32 op).getLsbD j := by rw [h]
    rw [BitVec.getLsbD_and, BitVec.getLsbD_ofNat, hmask j hj] at hword
    rw [BitVec.testBit_toNat]
    simpa only [hj, hj', ← Bool.decide_or, decide_true, Bool.and_true, Bool.true_and] using hword
  have habove {j : Nat} (hj : lo ≤ j) : op.testBit j = false :=
    Nat.testBit_lt_two_pow (hop.trans_le (Nat.pow_le_pow_right (by decide) hj))
  refine ⟨Nat.eq_of_testBit_eq fun j => ?_, Nat.lt_pow_two_of_testBit _ fun j hj => ?_⟩
  · rw [Nat.testBit_mod_two_pow]
    by_cases hjlo : j < lo
    · simpa [hjlo] using hkept (by omega) (.inl hjlo)
    · simp [hjlo, habove (by omega : lo ≤ j)]
  · by_cases hj32 : j < 32
    · rw [hkept hj32 (.inr hj), habove (by omega)]
    · exact BitVec.testBit_toNat w ▸ BitVec.getLsbD_of_ge w j (by omega)

/-- A word with no bit set outside its opcode and its format's fields is what these fields hold (R102). -/
theorem reassemble_of_and_mask {w : Word} {f : Format} {op : Nat} (hop : op < 64) (h : w &&& f.mask = BitVec.ofNat 32 op) :
    f.reassemble op w = w := by
  refine BitVec.eq_of_toNat_eq ?_
  cases f with
  | D =>
    obtain ⟨hlow, hlt⟩ := parts_of_and_mask (lo := 8) (n := 4) (by decide) (by decide) (by omega) h
    simp only [Format.reassemble, encodeFields, rdField, Fin.val_ofNat, BitVec.toNat_ofNat]
    omega
  | S =>
    obtain ⟨hlow, hlt⟩ := parts_of_and_mask (lo := 12) (n := 4) (by decide) (by decide) (by omega) h
    simp only [Format.reassemble, encodeFields, raField, Fin.val_ofNat, BitVec.toNat_ofNat]
    omega
  | T =>
    obtain ⟨hlow, hlt⟩ := parts_of_and_mask (lo := 8) (n := 12) (by decide) (by decide) (by omega) h
    simp only [Format.reassemble, encodeFields, rdField, raField, rbField, Fin.val_ofNat, BitVec.toNat_ofNat]
    omega

/-! ### The rows of the opcode map (R105) -/

theorem opcode_mem_opcodes_iff (i : Instr) (f : Format) : i.opcode ∈ f.opcodes ↔ f = i.format := by
  cases f <;> cases i <;> simp [Instr.opcode, Instr.format, Format.opcodes]

theorem opField_lt (w : Word) : opField w < 64 := Nat.mod_lt _ (by decide)

/-- Decoding selects the row of OP and checks the word against its format, or there is no row. The command of the row holds the slots
that the word's fields name. -/
theorem decode_cases (w : Word) :
    (∃ f i, decode w = checkFields w f (opField w) i ∧ i.opcode = opField w ∧ i.format = f
        ∧ encode i = f.reassemble (opField w) w)
      ∨ ((∀ f : Format, opField w ∉ f.opcodes) ∧ decode w = .error .illegalOpcode) := by
  unfold decode
  split
  case h_24 =>
    refine .inr ⟨fun f => ?_, rfl⟩
    cases f <;> simp_all [Format.opcodes]
  all_goals
    rename_i hop
    rw [hop]
    exact .inl ⟨_, _, rfl, rfl, rfl, rfl⟩

theorem checkFields_ok_iff (w : Word) (f : Format) (op : Nat) (i j : Instr) :
    checkFields w f op i = .ok j ↔ w &&& f.mask = BitVec.ofNat 32 op ∧ i = j := by
  unfold checkFields
  split <;> simp [*]

/-- The word from which a command is read is the command's encoding. -/
theorem encode_of_decode {w : Word} {i : Instr} (h : decode w = .ok i) : encode i = w := by
  rcases decode_cases w with ⟨f, j, hdecode, -, -, hencode⟩ | ⟨-, herror⟩
  · obtain ⟨hmask, rfl⟩ := (checkFields_ok_iff _ _ _ _ _).mp (hdecode.symm.trans h)
    exact hencode.trans (reassemble_of_and_mask (opField_lt w) hmask)
  · cases herror.symm.trans h

theorem decode_ok_iff (i : Instr) (w : Word) : decode w = .ok i ↔ encode i = w :=
  ⟨encode_of_decode, fun h => h ▸ decode_encode i⟩

/-- Settles O2: `decode_encode` is the one direction, and a word that decodes fits its row, so its fields assemble to it again. -/
theorem decodeAndEncodeAgree : Obligations.DecodeAndEncodeAgree := decode_ok_iff

/-- Settles O1: each word is the encoding of its command. -/
theorem specExampleWordsDecode : Obligations.SpecExampleWordsDecode := by
  unfold Obligations.SpecExampleWordsDecode
  simp only [decode_ok_iff]
  decide

/-! ### The three outcomes of decoding (R107) -/

theorem exists_format_iff (P : Format → Prop) : (∃ f, P f) ↔ P .D ∨ P .S ∨ P .T := by
  constructor
  · rintro ⟨_ | _ | _, h⟩ <;> simp [h]
  · rintro (h | h | h) <;> exact ⟨_, h⟩

theorem and_mask_eq_ofNat_opField_iff (w : Word) (f : Format) :
    (w &&& f.mask).toNat = opField w ↔ w &&& f.mask = BitVec.ofNat 32 (opField w) := by
  have hop := opField_lt w
  rw [← BitVec.toNat_inj, BitVec.toNat_ofNat, Nat.mod_eq_of_lt (by omega)]

/-- A word with the opcode of a command fits one format at most, the command's. -/
theorem exists_fits_iff {w : Word} {i : Instr} (hop : i.opcode = opField w) :
    (∃ f : Format, f.Fits w) ↔ w &&& i.format.mask = BitVec.ofNat 32 (opField w) := by
  simp only [Format.Fits, ← hop, opcode_mem_opcodes_iff, exists_eq_left]
  rw [hop]
  exact and_mask_eq_ofNat_opField_iff w i.format

/-- Which of the three outcomes a word has, by the formats. -/
theorem decode_outcome (w : Word) :
    (decode w = .error .illegalOpcode ↔ ¬ ∃ f : Format, opField w ∈ f.opcodes)
      ∧ (decode w = .error .illegalField ↔ (∃ f : Format, opField w ∈ f.opcodes) ∧ ¬ ∃ f : Format, f.Fits w)
      ∧ ((∃ i, decode w = .ok i) ↔ ∃ f : Format, f.Fits w) := by
  rcases decode_cases w with ⟨f, i, hdecode, hop, rfl, -⟩ | ⟨hnone, hdecode⟩
  · have hknown : ∃ f : Format, opField w ∈ f.opcodes := ⟨_, hop ▸ (opcode_mem_opcodes_iff i _).mpr rfl⟩
    rw [hdecode, exists_fits_iff hop, checkFields]
    split
    next hmask => simp [hknown, hmask]
    next hmask => simp [hknown, hmask]
  · simp [hdecode, hnone, Format.Fits]

/-- Settles O3: the opcode lists and masks are those of the three formats. -/
theorem everyWordIsOneCommandOrOneError : Obligations.EveryWordIsOneCommandOrOneError := by
  intro w
  have houtcome := decode_outcome w
  simp only [exists_format_iff] at houtcome
  exact houtcome

end Sys2Proof.Machine
end

section
/-! PROOFS. No refusal: each operation that a move runs answers a next state or a fault, whatever the state. -/

namespace Sys2Proof.Machine

/-- The outcome is a next state or a fault. -/
def Modelled (o : Result) : Prop := ∀ r : Refusal, o ≠ .refused r

theorem modelled_next (t : State) : Modelled (.next t) := nofun

theorem modelled_fault (e : Fault) : Modelled (.fault e) := nofun

section
variable (s : State)

/-! ### The commands -/

theorem withPoly_modelled (k : Slot) {f : List Nat → Result} (h : ∀ p, Modelled (f p)) : Modelled (s.withPoly k f) := by
  unfold State.withPoly
  cases s.poly k with
  | some p => exact h p
  | none => exact modelled_fault _

theorem withBytes_modelled (off n : Nat) {f : List Byte → Result} (h : ∀ bs, Modelled (f bs)) :
    Modelled (s.withBytes off n f) := by
  unfold State.withBytes
  cases s.bufBytes off n with
  | some bs => exact h bs
  | none => exact modelled_fault _

theorem inPlace_modelled (f : List Nat → List Nat) (rd : Slot) : Modelled (inPlace f rd s) :=
  withPoly_modelled s rd fun _ => modelled_next _

theorem threeSlots_modelled (f : Nat → Nat → Nat) (rd ra rb : Slot) : Modelled (threeSlots f rd ra rb s) :=
  withPoly_modelled s ra fun _ => withPoly_modelled s rb fun _ => modelled_next _

theorem pack_modelled (r : Role) (ra : Slot) : Modelled (pack r ra s) :=
  withPoly_modelled s ra fun _ => modelled_next _

theorem unpack_modelled (r : Role) (rd : Slot) : Modelled (unpack r rd s) :=
  withBytes_modelled s _ _ fun _ => modelled_next _

theorem runSampler_modelled (k : SamplerKind) (rd : Slot) : Modelled (runSampler k rd s) := by
  obtain ⟨t, ht⟩ := runSampler_next k rd s
  exact ht ▸ modelled_next t

theorem exec_modelled (i : Instr) : Modelled (exec i s) := by
  cases i with
  | reduce rd | freeze rd | ntt rd | invntt rd | shl rd => exact inPlace_modelled s _ rd
  | pwmul rd ra rb | add rd ra rb | sub rd ra rb => exact threeSlots_modelled s _ rd ra rb
  | chknorm ra | power2round _ ra _ => exact withPoly_modelled s ra fun _ => modelled_next _
  | sampleUniform rd | sampleEta rd | sampleGamma1m1 rd => exact runSampler_modelled s _ rd
  | packEta ra | packT0 ra | packT1 ra | packZ ra | packW1 ra => exact pack_modelled s _ ra
  | unpackEta rd | unpackT0 rd | unpackT1 rd | unpackZ rd | unpackW1 rd => exact unpack_modelled s _ rd

/-! ### The moves -/

theorem engine_modelled : Modelled (engine s) := by
  unfold engine
  cases s.phase with
  | idle => exact modelled_next s
  | running =>
    cases commandCheck s.cfg s.lcmd s.larg with
    | ok i => exact exec_modelled s i
    | error e => exact modelled_next _

/-- A read goes on, but for one of unwritten storage. -/
theorem hostRead_modelled (width : AccessWidth) (off : BitVec 17) : Modelled (hostRead width off s) := by
  unfold hostRead
  split
  · exact modelled_next _
  · cases regionOf s.cfg off.toNat with
    | register | zeta _ | zetaInv _ | unmapped => exact modelled_next _
    | bufWord o =>
      cases s.busy
      · exact withBytes_modelled s o 4 fun _ => modelled_next _
      · exact modelled_next _
    | coeff key =>
      cases s.busy
      · dsimp only
        cases Memory.read s.slots key with
        | some v => exact modelled_next _
        | none => exact modelled_fault _
      · exact modelled_next _

theorem hostWrite_modelled (width : AccessWidth) (off : BitVec 17) (v : Word) : Modelled (hostWrite width off v s) := by
  obtain ⟨t, ht, -⟩ := hostWrite_cases width off v s
  exact ht ▸ modelled_next t

theorem deliver_modelled : Modelled (deliver s) := by
  unfold deliver
  split
  · exact modelled_next _
  · exact modelled_fault _

theorem discardLate_modelled : Modelled (discardLate s) := by
  unfold discardLate
  split
  · exact modelled_fault _
  · exact modelled_next _

theorem perform_modelled (m : Move) : Modelled (perform m s) := by
  cases m with
  | hostRead width off => exact hostRead_modelled s width off
  | hostWrite width off v => exact hostWrite_modelled s width off v
  | core => exact engine_modelled s
  | data => exact deliver_modelled s
  | lateData => exact discardLate_modelled s
  | powerOn => exact modelled_next _

end

/-- Settles O12: a step is one move, and every move's outcome is a next state or a fault. -/
theorem noStepIsRefused : Obligations.NoStepIsRefused := by
  intro s
  rcases step_eq s with ⟨-, heq⟩ | ⟨m, rest, -, heq⟩ <;> rw [heq]
  · exact engine_modelled s
  · exact perform_modelled _ m

end Sys2Proof.Machine
end

section
/-! PROOFS. The per-coefficient commands REDUCE, FREEZE, SHL, PWMUL, ADD and SUB: on sources that can be read each one ends in
`State.finish`, with the function it computes index by index, and the laws of reduction (spec/40_reduction.md section 1) say what
those functions are. -/

namespace Sys2Proof.Machine

/-! ### A command that writes one slot and completes -/

/-- The 256 integers of slot `k`, where they have been written. -/
def State.vals (s : State) (k : Slot) : List Nat := (List.range 256).map (s.val k)

/-- Completion with `g i` written to coefficient `i` of slot `k`. -/
def State.finish (s : State) (k : Slot) (g : Nat → Nat) : State := (s.setPoly k ((List.range 256).map g)).complete

section
variable (s : State)

theorem poly_eq_vals {k : Slot} (h : s.Readable k) : s.poly k = some (s.vals k) := by
  obtain ⟨p, hp, hlen, hval⟩ := s.poly_of_readable k h
  have hvals : p = s.vals k := List.ext_getElem (by simp [State.vals, hlen]) fun i hi _ => by simp [State.vals, hval i hi]
  rw [hp, hvals]

theorem setPoly_complete_completes (k : Slot) (p : List Nat) : Completes s.norm s (s.setPoly k p).complete :=
  ⟨by constructor <;> rfl, rfl, rfl, rfl, rfl⟩

theorem finish_completes (k : Slot) (g : Nat → Nat) : Completes s.norm s (s.finish k g) := setPoly_complete_completes s k _

theorem finish_slotsSameBut (k : Slot) (g : Nat → Nat) : SlotsSameBut [k] s (s.finish k g) :=
  s.setPoly_slotsSameBut k _ (by simp)

theorem finish_bufSame (k : Slot) (g : Nat → Nat) : BufSame s (s.finish k g) := fun _ => rfl

theorem finish_coeff (k : Slot) (g : Nat → Nat) {i : Nat} (hi : i < 256) :
    (s.finish k g).coeff k i = some (BitVec.ofNat 32 (g i)) := by
  have hlen : i < ((List.range 256).map g).length := by simpa using hi
  rw [State.finish, State.complete_coeff, s.setPoly_coeff_same k _ i hlen, List.getElem_map, List.getElem_range]

theorem finish_val (k : Slot) (g : Nat → Nat) {i : Nat} (hi : i < 256) : (s.finish k g).val k i = g i % 2 ^ 32 := by
  simp [State.val, finish_coeff s k g hi]

theorem finish_val_of_lt (k : Slot) (g : Nat → Nat) {i : Nat} (hi : i < 256) (hg : g i < 2 ^ 32) :
    (s.finish k g).val k i = g i := by
  rw [finish_val s k g hi, Nat.mod_eq_of_lt hg]

/-- What is known of a completed write, its coefficients read through an equation of words. -/
theorem finish_spec (k : Slot) {g : Nat → Nat} {w : Nat → Word} (hw : ∀ i, BitVec.ofNat 32 (g i) = w i) :
    Completes s.norm s (s.finish k g) ∧ SlotsSameBut [k] s (s.finish k g) ∧ BufSame s (s.finish k g)
      ∧ ∀ i < 256, (s.finish k g).coeff k i = some (w i) :=
  ⟨finish_completes s k g, finish_slotsSameBut s k g, finish_bufSame s k g,
    fun i hi => (finish_coeff s k g hi).trans (congrArg some (hw i))⟩

theorem inPlace_of_readable (f : List Nat → List Nat) {rd : Slot} (h : s.Readable rd) :
    inPlace f rd s = .next (s.setPoly rd (f (s.vals rd))).complete := by
  simp [inPlace, State.withPoly, poly_eq_vals s h]

theorem inPlace_map (f : Nat → Nat) {rd : Slot} (h : s.Readable rd) :
    inPlace (fun p => p.map f) rd s = .next (s.finish rd fun i => f (s.val rd i)) := by
  rw [inPlace_of_readable s _ h, State.vals, List.map_map]
  rfl

theorem threeSlots_of_readable (f : Nat → Nat → Nat) (rd : Slot) {ra rb : Slot} (ha : s.Readable ra) (hb : s.Readable rb) :
    threeSlots f rd ra rb s = .next (s.finish rd fun i => f (s.val ra i) (s.val rb i)) := by
  simp [threeSlots, State.withPoly, poly_eq_vals s ha, poly_eq_vals s hb, State.vals, State.finish, List.zipWith_map,
    List.zipWith_self]

/-! ### The commands -/

theorem exec_reduce {rd : Slot} (h : s.Readable rd) :
    exec (.reduce rd) s = .next (s.finish rd fun i => reduce32 (s.val rd i)) := inPlace_map s reduce32 h

theorem exec_freeze {rd : Slot} (h : s.Readable rd) :
    exec (.freeze rd) s = .next (s.finish rd fun i => freezeCoeff (s.val rd i)) := inPlace_map s freezeCoeff h

theorem exec_shl {rd : Slot} (h : s.Readable rd) :
    exec (.shl rd) s = .next (s.finish rd fun i => shlCoeff s.cfg.d (s.val rd i)) := inPlace_map s (shlCoeff s.cfg.d) h

variable (rd : Slot) {ra rb : Slot} (ha : s.Readable ra) (hb : s.Readable rb)
include ha hb

theorem exec_pwmul : exec (.pwmul rd ra rb) s = .next (s.finish rd fun i => mulCoeff (s.val ra i) (s.val rb i)) :=
  threeSlots_of_readable s mulCoeff rd ha hb

theorem exec_add : exec (.add rd ra rb) s = .next (s.finish rd fun i => addCoeff (s.val ra i) (s.val rb i)) :=
  threeSlots_of_readable s addCoeff rd ha hb

theorem exec_sub : exec (.sub rd ra rb) s = .next (s.finish rd fun i => subCoeff (s.val ra i) (s.val rb i)) :=
  threeSlots_of_readable s subCoeff rd ha hb

end

/-! ### The words that are written -/

theorem ofNat_w32 (v : Int) : BitVec.ofNat 32 (w32 v) = BitVec.ofInt 32 v :=
  BitVec.eq_of_toNat_eq (by simp [w32]; omega)

theorem ofNat_addCoeff (a b : Nat) : BitVec.ofNat 32 (addCoeff a b) = BitVec.ofNat 32 (a + b) := by
  rw [addCoeff, ofNat_w32, ← Int.natCast_add, BitVec.ofInt_natCast]

theorem ofNat_shlCoeff (d a : Nat) : BitVec.ofNat 32 (shlCoeff d a) = BitVec.ofNat 32 (a * 2 ^ d) := by
  rw [shlCoeff, ofNat_w32, ← BitVec.ofInt_natCast]
  norm_cast

theorem ofNat_subCoeff (a b : Nat) : BitVec.ofNat 32 (subCoeff a b) = BitVec.ofInt 32 ((a : Int) + 2 * 8380417 - b) :=
  ofNat_w32 _

/-! ### The laws of reduction (R131 to R134) -/

section
variable {a : Nat}

/-- The nine high bits of a `u32` are all that lies above bit 22. -/
theorem reduce32_of_lt (h : a < 2 ^ 32) : reduce32 a = a % 2 ^ 23 + a / 2 ^ 23 * 2 ^ 13 - a / 2 ^ 23 := by
  rw [reduce32, Nat.mod_eq_of_lt (show a / 2 ^ 23 < 2 ^ 9 by omega)]

/-- R132: each of the high bits' `2^23` is replaced by `2^13 − 1`, which is `q` less. -/
theorem reduce32_add_high_mul_q (h : a < 2 ^ 32) : reduce32 a + a / 2 ^ 23 * 8380417 = a := by
  rw [reduce32_of_lt h]
  omega

theorem reduce32_mod_q (h : a < 2 ^ 32) : reduce32 a % 8380417 = a % 8380417 := by
  rw [← Nat.add_mul_mod_self_right (reduce32 a) (a / 2 ^ 23), reduce32_add_high_mul_q h]

theorem reduce32_le (a : Nat) : reduce32 a ≤ 12574208 := by
  rw [reduce32]
  omega

/-- R133: below `2q`, one conditional subtraction gives the standard representative. -/
theorem csubq_of_lt (h : a < 2 * 8380417) : csubq a = a % 8380417 := by
  rcases Nat.lt_or_ge a 8380417 with hlt | hge
  · have hw : w32 ((a : Int) - q) = a + 2 ^ 32 - 8380417 := by simp only [w32, q]; omega
    rw [csubq, hw, if_pos (by omega), w32]
    simp only [q]
    omega
  · have hw : w32 ((a : Int) - q) = a - 8380417 := by simp only [w32, q]; omega
    rw [csubq, hw, if_neg (by omega)]
    omega

/-- R134. -/
theorem freezeCoeff_of_lt (h : a < 2 ^ 32) : freezeCoeff a = a % 8380417 := by
  have hle := reduce32_le a
  rw [freezeCoeff, csubq_of_lt (by omega), reduce32_mod_q h]

/-- R131: in contract nothing wraps, and the sum that Montgomery reduction shifts is a multiple of `2^32`, as
`QINV · q + 1` is. -/
theorem montred_mul_two_pow (h : a ≤ 8380417 * 2 ^ 32) :
    montred a * 2 ^ 32 = a + a % 2 ^ 32 * 4236238847 % 2 ^ 32 * 8380417 := by
  have hdvd : (a + a % 2 ^ 32 * 4236238847 % 2 ^ 32 * 8380417) % 2 ^ 32 = 0 := by omega
  rw [montred_eq, Nat.mod_eq_of_lt (by simp only [q]; omega), Nat.div_mul_cancel (Nat.dvd_of_mod_eq_zero hdvd)]

theorem montred_lt (h : a ≤ 8380417 * 2 ^ 32) : montred a < 2 * 8380417 := by
  have := montred_mul_two_pow h
  omega

/-- R131: `2^32 · RINV` is 1 modulo `q`. -/
theorem montred_mod_q (h : a ≤ 8380417 * 2 ^ 32) : montred a % 8380417 = a * 8265825 % 8380417 := by
  calc montred a % 8380417
      = montred a * 2 ^ 32 * 8265825 % 8380417 := by omega
    _ = (a + a % 2 ^ 32 * 4236238847 % 2 ^ 32 * 8380417) * 8265825 % 8380417 := by rw [montred_mul_two_pow h]
    _ = a * 8265825 % 8380417 := by omega

end

/-- R138: two factors below `22q` have a product in Montgomery reduction's contract. -/
theorem mul_le_of_lt_22q {a b : Nat} (ha : a < 22 * 8380417) (hb : b < 22 * 8380417) : a * b ≤ 8380417 * 2 ^ 32 :=
  (Nat.mul_le_mul ha.le hb.le).trans (by norm_num)

/-! ### The obligations -/

/-- Settles O33: each command's coefficient function is the rule's, FREEZE's by the freeze law. -/
theorem inPlaceCommandsComplete : Obligations.InPlaceCommandsComplete := by
  intro rd s h
  exact ⟨⟨_, exec_reduce s h, finish_spec s rd fun i => by rw [reduce32_of_lt (s.val_lt rd i)]⟩,
    ⟨_, exec_freeze s h, finish_spec s rd fun i => by rw [freezeCoeff_of_lt (s.val_lt rd i)]⟩,
    ⟨_, exec_shl s h, finish_spec s rd fun i => ofNat_shlCoeff _ _⟩⟩

/-- Settles O34: each command's coefficient function is the rule's, read from the old sources. -/
theorem threeSlotCommandsComplete : Obligations.ThreeSlotCommandsComplete := by
  intro rd ra rb s ha hb
  exact ⟨⟨_, exec_pwmul s rd ha hb, finish_spec s rd fun i => by rw [mulCoeff, montred_eq]⟩,
    ⟨_, exec_add s rd ha hb, finish_spec s rd fun i => ofNat_addCoeff _ _⟩,
    ⟨_, exec_sub s rd ha hb, finish_spec s rd fun i => ofNat_subCoeff _ _⟩⟩

/-- Settles O47: both conditions put the product in Montgomery reduction's contract, where its law applies. -/
theorem pwmulIsAMontgomeryProduct : Obligations.PwmulIsAMontgomeryProduct := by
  intro rd ra rb s ha hb
  refine ⟨_, exec_pwmul s rd ha hb, fun i hi hcontract => ?_⟩
  have hprod : s.val ra i * s.val rb i ≤ 8380417 * 2 ^ 32 := hcontract.elim id fun h => mul_le_of_lt_22q h.1 h.2
  have hlt := montred_lt hprod
  rw [finish_val_of_lt s rd _ hi (by rw [mulCoeff]; omega), mulCoeff]
  exact ⟨hlt, montred_mod_q hprod⟩

/-- Settles O48, by the law of partial reduction. -/
theorem reduceKeepsTheResidue : Obligations.ReduceKeepsTheResidue := by
  intro rd s h
  refine ⟨_, exec_reduce s h, fun i hi => ?_⟩
  have hle := reduce32_le (s.val rd i)
  rw [finish_val_of_lt s rd _ hi (by omega)]
  exact ⟨reduce32_mod_q (s.val_lt rd i), hle⟩

end Sys2Proof.Machine
end

section
/-! PROOFS. The layers of the two transforms, index by index: the machine's layer on a list of coefficients (R167, R173) and the
sequential pseudocode's layer on a slot (R166, R174) are one function `Butterfly.layerAt` of the old coefficients. -/

namespace Sys2Proof.Machine

/-- The two new values that a butterfly with twiddle `z` writes, from the old lower and the old upper value. -/
structure Butterfly where
  lower : Nat → Nat → Nat → Nat
  upper : Nat → Nat → Nat → Nat

namespace Butterfly
variable (f : Butterfly)

/-- A block of butterflies: first the new lower values, then the new upper ones. -/
def block (z : Nat) (lo hi : List Nat) : List Nat := List.zipWith (f.lower z) lo hi ++ List.zipWith (f.upper z) lo hi

/-- One butterfly, on the pair `(j, j + len)` of a slot. -/
def onPair (z len : Nat) (p : Nat → Nat) (j : Nat) : Nat → Nat := fun i =>
  if i = j + len then f.upper z (p j) (p (j + len)) else if i = j then f.lower z (p j) (p (j + len)) else p i

/-- Coefficient `i` after a layer of `blocks` blocks of `2·len` coefficients, block `b` with the twiddle `rom (k + b)`. -/
def layerAt (rom : Nat → Nat) (len blocks k : Nat) (p : Nat → Nat) (i : Nat) : Nat :=
  if i < 2 * len * blocks then
    if i % (2 * len) < len then f.lower (rom (k + i / (2 * len))) (p i) (p (i + len))
    else f.upper (rom (k + i / (2 * len))) (p (i - len)) (p i)
  else p i

section
variable {rom : Nat → Nat} {len blocks k b d : Nat} {p : Nat → Nat}

theorem layerAt_of_le {i : Nat} (h : 2 * len * blocks ≤ i) : f.layerAt rom len blocks k p i = p i :=
  if_neg (by omega)

theorem two_mul_mul_add_le (hb : b < blocks) : 2 * len * b + 2 * len ≤ 2 * len * blocks :=
  Nat.mul_succ (2 * len) b ▸ Nat.mul_le_mul_left _ hb

theorem layerAt_lower (hb : b < blocks) (hd : d < len) : f.layerAt rom len blocks k p (2 * len * b + d)
    = f.lower (rom (k + b)) (p (2 * len * b + d)) (p (2 * len * b + d + len)) := by
  have hle := two_mul_mul_add_le (len := len) hb
  rw [layerAt, if_pos (by omega), Nat.mul_add_mod, Nat.mod_eq_of_lt (by omega), if_pos hd, Nat.mul_add_div (by omega),
    Nat.div_eq_of_lt (by omega), Nat.add_zero]

theorem layerAt_upper (hb : b < blocks) (hd : d < len) : f.layerAt rom len blocks k p (2 * len * b + d + len)
    = f.upper (rom (k + b)) (p (2 * len * b + d)) (p (2 * len * b + d + len)) := by
  have hle := two_mul_mul_add_le (len := len) hb
  rw [layerAt, if_pos (by omega), Nat.add_assoc, Nat.mul_add_mod, Nat.mod_eq_of_lt (by omega), if_neg (by omega),
    Nat.mul_add_div (by omega), Nat.div_eq_of_lt (by omega), Nat.add_zero, ← Nat.add_assoc, Nat.add_sub_cancel]

/-- The indices of a layer are those of its pairs. -/
theorem exists_pair_of_lt {i : Nat} (hi : i < 2 * len * blocks) :
    ∃ b < blocks, ∃ d < len, i = 2 * len * b + d ∨ i = 2 * len * b + d + len := by
  have hpos : 0 < 2 * len := Nat.pos_of_ne_zero fun h => by simp [h] at hi
  have hdiv := Nat.div_add_mod i (2 * len)
  have hmod := Nat.mod_lt i hpos
  refine ⟨i / (2 * len), Nat.div_lt_of_lt_mul hi, ?_⟩
  rcases Nat.lt_or_ge (i % (2 * len)) len with h | h
  · exact ⟨_, h, .inl hdiv.symm⟩
  · exact ⟨i % (2 * len) - len, by omega, .inr (by omega)⟩

end

/-! ### The machine's layer -/

/-- The first block of a layer. -/
theorem block_map (rom : Nat → Nat) (len blocks k : Nat) (p : Nat → Nat) :
    f.block (rom k) ((List.range len).map p) ((List.range len).map fun d => p (len + d))
      = (List.range (2 * len)).map (f.layerAt rom len (blocks + 1) k p) := by
  have hlow {d : Nat} (hd : d < len) := f.layerAt_lower (rom := rom) (k := k) (p := p) blocks.succ_pos hd
  have hup {d : Nat} (hd : d < len) := f.layerAt_upper (rom := rom) (k := k) (p := p) blocks.succ_pos hd
  simp only [Nat.mul_zero, Nat.zero_add, Nat.add_zero, Nat.add_comm _ len] at hlow hup
  rw [Nat.two_mul, List.range_add, List.map_append, List.map_map, block, List.zipWith_map, List.zipWith_self, List.zipWith_map,
    List.zipWith_self]
  exact congrArg₂ _ (List.map_congr_left fun d hd => (hlow (List.mem_range.mp hd)).symm)
    (List.map_congr_left fun d hd => (hup (List.mem_range.mp hd)).symm)

/-- The blocks after the first one. -/
theorem layerAt_add (rom : Nat → Nat) {len blocks k : Nat} (p : Nat → Nat) {i : Nat} (hi : i < 2 * len * blocks) :
    f.layerAt rom len (blocks + 1) k p (2 * len + i) = f.layerAt rom len blocks (k + 1) (fun j => p (2 * len + j)) i := by
  obtain ⟨b, hb, d, hd, rfl | rfl⟩ := exists_pair_of_lt hi
  · rw [f.layerAt_lower hb hd]
    simpa [Nat.mul_succ, Nat.add_comm, Nat.add_left_comm] using
      f.layerAt_lower (rom := rom) (k := k) (p := p) (Nat.succ_lt_succ hb) hd
  · rw [f.layerAt_upper hb hd]
    simpa [Nat.mul_succ, Nat.add_comm, Nat.add_left_comm] using
      f.layerAt_upper (rom := rom) (k := k) (p := p) (Nat.succ_lt_succ hb) hd

/-- A layer of the machine on a slot, with the ROM's words given by `word`. -/
theorem layer_map {rom : List Nat} {word : Nat → Nat} {len blocks k : Nat}
    (hrom : ∀ b < blocks, rom.getD (k + b) 0 = word (k + b)) (p : Nat → Nat) :
    layer f.block rom len blocks k ((List.range (2 * len * blocks)).map p)
      = (List.range (2 * len * blocks)).map (f.layerAt word len blocks k p) := by
  induction blocks generalizing k p with
  | zero => rfl
  | succ n ih =>
    have hrest := ih (k := k + 1) (fun b hb => by simpa [Nat.add_assoc, Nat.add_comm 1] using hrom (b + 1) (by omega))
      fun i => p (2 * len + i)
    have hsplit (g : Nat → Nat) : (List.range (2 * len * (n + 1))).map g
        = (List.range (2 * len)).map g ++ (List.range (2 * len * n)).map fun i => g (2 * len + i) := by
      rw [Nat.mul_succ, Nat.add_comm, List.range_add, List.map_append, List.map_map]
      rfl
    have hfirst : ((List.range (2 * len)).map p).length = 2 * len := by simp
    have hhead : (List.range (2 * len)).map p = (List.range len).map p ++ (List.range len).map fun d => p (len + d) := by
      rw [Nat.two_mul, List.range_add, List.map_append, List.map_map]
      rfl
    rw [hsplit, hsplit, layer, List.drop_left' hfirst, hrest, show rom.getD k 0 = word k from hrom 0 n.succ_pos, hhead,
      List.append_assoc, List.take_left' (by simp), List.drop_left' (by simp), List.take_left' (by simp),
      f.block_map word len n k p]
    refine congrArg _ (List.map_congr_left fun i hi => ?_)
    exact (f.layerAt_add word p (List.mem_range.mp hi)).symm

/-! ### The pseudocode's layer -/

/-- The butterflies of the first `n` pairs of a block that starts at `base`. -/
theorem foldl_onPair (z len base : Nat) {n : Nat} (hn : n ≤ len) (p : Nat → Nat) (i : Nat) :
    (List.range n).foldl (fun p d => f.onPair z len p (base + d)) p i
      = if base ≤ i ∧ i < base + n then f.lower z (p i) (p (i + len))
        else if base + len ≤ i ∧ i < base + len + n then f.upper z (p (i - len)) (p i) else p i := by
  induction n generalizing i with
  | zero => rw [if_neg (by omega), if_neg (by omega)]; rfl
  | succ n ih =>
    have ih := ih (by omega)
    have hlow := ih (base + n)
    have hup := ih (base + n + len)
    rw [if_neg (by omega), if_neg (by omega)] at hlow hup
    rw [List.range_succ, List.foldl_append, List.foldl_cons, List.foldl_nil, onPair, hlow, hup]
    by_cases hi : i = base + n + len
    · rw [if_pos hi, if_neg (by omega), if_pos (by omega), hi, Nat.add_sub_cancel]
    by_cases hi' : i = base + n
    · rw [if_neg hi, if_pos hi', if_pos (by omega), hi']
    rw [if_neg hi, if_neg hi', ih]
    refine if_congr (by omega) rfl (if_congr (by omega) rfl rfl)

/-- The butterflies of the first `blocks` blocks of a layer. -/
theorem foldl_blocks (rom : Nat → Nat) (len blocks k : Nat) (p : Nat → Nat) :
    (List.range blocks).foldl (fun st b =>
        ((List.range len).foldl (fun p d => f.onPair (rom st.2) len p (2 * len * b + d)) st.1, st.2 + 1)) (p, k)
      = (f.layerAt rom len blocks k p, k + blocks) := by
  induction blocks with
  | zero => exact congrArg (·, k) (funext fun i => (f.layerAt_of_le (Nat.zero_le i)).symm)
  | succ n ih =>
    rw [List.range_succ, List.foldl_append, ih, List.foldl_cons, List.foldl_nil]
    refine congrArg (·, k + n + 1) (funext fun i => ?_)
    have hend : 2 * len * (n + 1) = 2 * len * n + 2 * len := Nat.mul_succ _ _
    have hold {j : Nat} (hj : 2 * len * n ≤ j) : f.layerAt rom len n k p j = p j := f.layerAt_of_le hj
    rw [f.foldl_onPair _ _ _ le_rfl]
    dsimp only
    rcases Nat.lt_or_ge i (2 * len * n) with hi | hi
    · obtain ⟨b, hb, d, hd, rfl | rfl⟩ := exists_pair_of_lt hi
      · rw [if_neg (by omega), if_neg (by omega), f.layerAt_lower hb hd, f.layerAt_lower (by omega) hd]
      · rw [if_neg (by omega), if_neg (by omega), f.layerAt_upper hb hd, f.layerAt_upper (by omega) hd]
    rcases Nat.lt_or_ge i (2 * len * n + len) with hlow | hlow
    · obtain ⟨d, rfl⟩ := Nat.exists_eq_add_of_le hi
      rw [if_pos (by omega), hold hi, hold (by omega), f.layerAt_lower n.lt_succ_self (by omega)]
    rcases Nat.lt_or_ge i (2 * len * n + 2 * len) with hup | hup
    · obtain ⟨d, rfl⟩ := Nat.exists_eq_add_of_le hlow
      rw [if_neg (by omega), if_pos (by omega), hold hi, hold (by omega), Nat.add_right_comm,
        f.layerAt_upper n.lt_succ_self (by omega), Nat.add_sub_cancel]
    · rw [if_neg (by omega), if_neg (by omega), hold hi, f.layerAt_of_le (by omega)]

/-- A layer of the pseudocode, with the running ROM index that it leaves. -/
theorem seqLayer_eq (rom : Nat → Nat) {len : Nat} (blocks : Nat) (hblocks : 128 / len = blocks) (k : Nat) (p : Nat → Nat) :
    seqLayer f.onPair rom (p, k) len = (f.layerAt rom len blocks k p, k + blocks) := by
  rw [seqLayer, hblocks]
  exact f.foldl_blocks rom len blocks k p

end Butterfly

/-! ### The two transforms -/

/-- The forward butterfly (R165). -/
@[simps] def forwardButterfly : Butterfly where
  lower z a b := w32 ((a : Int) + montred (z * b))
  upper z a b := w32 ((a : Int) + 2 * q - montred (z * b))

/-- The inverse butterfly (R175). -/
@[simps] def inverseButterfly : Butterfly where
  lower _ a b := w32 ((a : Int) + b)
  upper z a b := montred (z * w32 ((a : Int) + 256 * q - b))

theorem forwardBlock_eq : forwardBlock = forwardButterfly.block := by
  funext z lo hi
  simp only [forwardBlock, Butterfly.block, bind_pure_comp, List.map_eq_map, List.zipWith_map_left]
  rfl

theorem inverseBlock_eq : inverseBlock = inverseButterfly.block := by
  funext z lo hi
  simp only [inverseBlock, Butterfly.block, bind_pure_comp, List.map_eq_map, List.zipWith_map_left, List.zipWith_map_right]
  rfl

theorem seqForwardButterfly_eq : seqForwardButterfly = forwardButterfly.onPair := by
  funext z len p j i
  simp only [seqForwardButterfly, Butterfly.onPair, forwardButterfly, montgomery, wrap32, montred_eq, w32]
  rfl

theorem seqInverseButterfly_eq : seqInverseButterfly = inverseButterfly.onPair := by
  funext z len p j i
  simp only [seqInverseButterfly, Butterfly.onPair, inverseButterfly, montgomery, wrap32, montred_eq, w32]
  rfl

/-- The slot after the first `l` layers of NTT (R167). -/
def forwardStage (p : Nat → Nat) : Nat → Nat → Nat
  | 0 => p
  | l + 1 => forwardButterfly.layerAt zetaWord (2 ^ (7 - l)) (2 ^ l) (2 ^ l) (forwardStage p l)

/-- The slot after the first `l` layers of INVNTT (R173). -/
def inverseStage (p : Nat → Nat) : Nat → Nat → Nat
  | 0 => p
  | l + 1 => inverseButterfly.layerAt zetaInvWord (2 ^ l) (2 ^ (7 - l)) (256 - 2 ^ (8 - l)) (inverseStage p l)

theorem forwardStage_size {l : Nat} (hl : l < 8) : 2 * 2 ^ (7 - l) * 2 ^ l = 256 := by
  rw [Nat.mul_assoc, ← Nat.pow_add, Nat.sub_add_cancel (by omega)]

theorem inverseStage_size {l : Nat} (hl : l < 8) : 2 * 2 ^ l * 2 ^ (7 - l) = 256 := by
  rw [Nat.mul_assoc, ← Nat.pow_add, Nat.add_sub_cancel' (by omega)]

theorem two_pow_eight_sub {l : Nat} (hl : l < 8) : 2 ^ (8 - l) = 2 * 2 ^ (7 - l) := by
  rw [← Nat.pow_succ', Nat.succ_eq_add_one, ← Nat.sub_add_comm (by omega)]

theorem forwardLayer_map (p : Nat → Nat) {l : Nat} (hl : l < 8) : forwardLayer (l + 1) ((List.range 256).map (forwardStage p l))
    = (List.range 256).map (forwardStage p (l + 1)) := by
  have hrom : ∀ b < 2 ^ l, zetas.getD (2 ^ l + b) 0 = zetaWord (2 ^ l + b) := fun b hb => zetas_getD (by
    have : 2 ^ l ≤ 2 ^ 7 := Nat.pow_le_pow_right (by decide) (by omega)
    omega)
  have hmap := forwardButterfly.layer_map (len := 2 ^ (7 - l)) hrom (forwardStage p l)
  rw [forwardStage_size hl] at hmap
  rw [forwardLayer, forwardBlock_eq, Nat.succ_sub_succ_eq_sub, Nat.add_sub_cancel, hmap]
  rfl

theorem inverseLayer_map (p : Nat → Nat) {l : Nat} (hl : l < 8) : inverseLayer (l + 1) ((List.range 256).map (inverseStage p l))
    = (List.range 256).map (inverseStage p (l + 1)) := by
  have hrom : ∀ b < 2 ^ (7 - l), zetasInv.getD (256 - 2 ^ (8 - l) + b) 0 = zetaInvWord (256 - 2 ^ (8 - l) + b) := fun b hb =>
    zetasInv_getD (by
      have := two_pow_eight_sub hl
      have : 2 ^ (8 - l) ≤ 2 ^ 8 := Nat.pow_le_pow_right (by decide) (by omega)
      omega)
  have hmap := inverseButterfly.layer_map (len := 2 ^ l) hrom (inverseStage p l)
  rw [inverseStage_size hl] at hmap
  rw [inverseLayer, inverseBlock_eq, Nat.add_sub_cancel, Nat.succ_sub_succ_eq_sub, Nat.succ_sub_succ_eq_sub, hmap]
  rfl

/-- Layers 1 to 8 in order lead from stage 0 to stage 8. -/
theorem foldl_layers {layerOf : Nat → List Nat → List Nat} {stage : Nat → List Nat}
    (h : ∀ {l}, l < 8 → layerOf (l + 1) (stage l) = stage (l + 1)) :
    [1, 2, 3, 4, 5, 6, 7, 8].foldl (fun p l => layerOf l p) (stage 0) = stage 8 := by
  have hstages (n : Nat) (hn : n ≤ 8) : ((List.range n).map (· + 1)).foldl (fun p l => layerOf l p) (stage 0) = stage n := by
    induction n with
    | zero => rfl
    | succ n ih =>
      rw [List.range_succ, List.map_append, List.foldl_append, ih (by omega)]
      exact h hn
  exact hstages 8 le_rfl

theorem forwardNtt_map (p : Nat → Nat) : forwardNtt ((List.range 256).map p) = (List.range 256).map (forwardStage p 8) :=
  foldl_layers (stage := fun l => (List.range 256).map (forwardStage p l)) (forwardLayer_map p)

theorem inverseNtt_map (p : Nat → Nat) : inverseNtt ((List.range 256).map p)
    = (List.range 256).map fun i => montred (finalScale * inverseStage p 8 i) := by
  have hlayers := foldl_layers (stage := fun l => (List.range 256).map (inverseStage p l)) (inverseLayer_map p)
  exact (congrArg (List.map _) hlayers).trans List.map_map

theorem seqForwardNtt_eq (p : Nat → Nat) : seqForwardNtt p = forwardStage p 8 := by
  simp only [seqForwardNtt, seqForwardButterfly_eq, List.foldl_cons, List.foldl_nil, Butterfly.seqLayer_eq _ _ _ rfl]
  rfl

theorem seqInverseNtt_eq (p : Nat → Nat) : seqInverseNtt p = inverseStage p 8 := by
  simp only [seqInverseNtt, seqInverseButterfly_eq, List.foldl_cons, List.foldl_nil, Butterfly.seqLayer_eq _ _ _ rfl]
  rfl

/-! ### The commands -/

/-- The state after NTT of slot `rd`. -/
def State.afterNtt (s : State) (rd : Slot) : State := s.finish rd (forwardStage (s.val rd) 8)

/-- The state after INVNTT of slot `rd`. -/
def State.afterInvntt (s : State) (rd : Slot) : State := s.finish rd fun i => montred (finalScale * inverseStage (s.val rd) 8 i)

section
variable (s : State) {rd : Slot} (h : s.Readable rd)
include h

theorem exec_ntt : exec (.ntt rd) s = .next (s.afterNtt rd) := by
  refine (inPlace_of_readable s forwardNtt h).trans ?_
  rw [State.vals, forwardNtt_map]
  rfl

theorem exec_invntt : exec (.invntt rd) s = .next (s.afterInvntt rd) := by
  refine (inPlace_of_readable s inverseNtt h).trans ?_
  rw [State.vals, inverseNtt_map]
  rfl

end

/-- Settles O40: layer by layer, the machine and the pseudocode are the same function of the slot. -/
theorem nttIsTheSequentialTransform : Obligations.NttIsTheSequentialTransform := by
  intro rd s h
  exact ⟨_, exec_ntt s h, finish_spec s rd fun i => by rw [seqForwardNtt_eq]⟩

/-- Settles O41: layer by layer, the machine and the pseudocode are the same function of the slot. -/
theorem invnttIsTheSequentialTransform : Obligations.InvnttIsTheSequentialTransform := by
  intro rd s h
  exact ⟨_, exec_invntt s h, finish_spec s rd fun i => by rw [seqInverseNtt_eq, montred_eq, montgomery]⟩

end Sys2Proof.Machine
end

section
/-! PROOFS. The bounds of the two transforms, layer by layer (spec/41_ntt.md R168, R176, R177). -/

namespace Sys2Proof.Machine

/-- A bound that every butterfly of a layer keeps holds of the whole slot. -/
theorem Butterfly.layerAt_lt {f : Butterfly} {rom : Nat → Nat} {len blocks k n c : Nat} {p : Nat → Nat} (hn : 2 * len * blocks = n)
    (hpair : ∀ b < blocks, ∀ i < n, ∀ j < n, f.lower (rom (k + b)) (p i) (p j) < c ∧ f.upper (rom (k + b)) (p i) (p j) < c) :
    ∀ i < n, f.layerAt rom len blocks k p i < c := by
  subst hn
  intro i hi
  obtain ⟨b, hb, d, hd, rfl | rfl⟩ := exists_pair_of_lt hi
  · have hle := two_mul_mul_add_le (len := len) hb
    rw [f.layerAt_lower hb hd]
    exact (hpair b hb _ hi _ (by omega)).1
  · rw [f.layerAt_upper hb hd]
    exact (hpair b hb _ (by omega) _ hi).2

/-! ### The words of the tables -/

theorem zetaWord_lt (k : Nat) : zetaWord k < 8380417 := Nat.mod_lt _ (by decide)

/-- A `u32` times a word of the tables is in Montgomery reduction's contract (R165, R175). -/
theorem mul_le_of_lt {z a : Nat} (hz : z ≤ 8380417) (ha : a < 2 ^ 32) : z * a ≤ 8380417 * 2 ^ 32 := Nat.mul_le_mul hz ha.le

theorem w32_lt (v : Int) : w32 v < 2 ^ 32 := by
  rw [w32]
  omega

theorem montred_lt_two_pow (a : Nat) : montred a < 2 ^ 32 := by
  rw [montred_eq]
  omega

/-! ### Growth of the forward transform (R168) -/

/-- One forward butterfly adds at most `2q`, whether it wraps or not. -/
theorem forwardButterfly_lt {z a b c : Nat} (hz : z ≤ 8380417) (ha : a < c) (hb : b < 2 ^ 32) :
    forwardButterfly.lower z a b < c + 2 * 8380417 ∧ forwardButterfly.upper z a b < c + 2 * 8380417 := by
  have ht := montred_lt (mul_le_of_lt hz hb)
  rw [forwardButterfly_lower, forwardButterfly_upper, w32, w32, q]
  omega

theorem forwardStage_lt {p : Nat → Nat} {c : Nat} (hc : c + 16 * 8380417 ≤ 2 ^ 32) (hp : ∀ i < 256, p i < c) {l : Nat}
    (hl : l ≤ 8) : ∀ i < 256, forwardStage p l i < c + 2 * l * 8380417 := by
  induction l with
  | zero => exact hp
  | succ l ih =>
    have ih := ih (by omega)
    refine Butterfly.layerAt_lt (forwardStage_size hl) fun b _ i hi j hj => ?_
    have := ih j hj
    have hpair := forwardButterfly_lt (zetaWord_lt (2 ^ l + b)).le (ih i hi) (b := forwardStage p l j) (by omega)
    omega

theorem afterNtt_val_lt {s : State} {rd : Slot} {c : Nat} (hc : c + 16 * 8380417 ≤ 2 ^ 32)
    (hval : ∀ i < 256, s.val rd i < c) {i : Nat} (hi : i < 256) : (s.afterNtt rd).val rd i < c + 16 * 8380417 := by
  rw [State.afterNtt, finish_val s rd _ hi]
  exact (Nat.mod_le _ _).trans_lt (forwardStage_lt hc hval le_rfl i hi)

/-- Settles O42: each of the eight layers adds at most `2q`. -/
theorem nttGrowthIsAtMostSixteenQ : Obligations.NttGrowthIsAtMostSixteenQ := by
  intro rd s b h hb hval
  exact ⟨_, exec_ntt s h, fun i hi => afterNtt_val_lt hb hval hi⟩

/-! ### The inverse transform (R176, R177) -/

theorem inverseStage_lt_two_pow {p : Nat → Nat} (hp : ∀ i < 256, p i < 2 ^ 32) {l : Nat} (hl : l ≤ 8) :
    ∀ i < 256, inverseStage p l i < 2 ^ 32 := by
  cases l with
  | zero => exact hp
  | succ l =>
    refine Butterfly.layerAt_lt (inverseStage_size hl) fun b _ i _ j _ => ?_
    rw [inverseButterfly_lower, inverseButterfly_upper]
    exact ⟨w32_lt _, montred_lt_two_pow _⟩

/-- The final scaling brings every coefficient below `2q` (R176). -/
theorem finalScale_lt {v : Nat} (hv : v < 2 ^ 32) : montred (finalScale * v) < 2 * 8380417 :=
  montred_lt (mul_le_of_lt (by decide) hv)

/-- With inputs below `2q` the values at most double in each layer. -/
theorem inverseStage_lt {p : Nat → Nat} (hp : ∀ i < 256, p i < 2 * 8380417) {l : Nat} (hl : l ≤ 8) :
    ∀ i < 256, inverseStage p l i < 2 ^ l * (2 * 8380417) := by
  induction l with
  | zero => simpa [inverseStage] using hp
  | succ l ih =>
    have ih := ih (by omega)
    refine Butterfly.layerAt_lt (inverseStage_size hl) fun b _ i hi j hj => ⟨?_, ?_⟩
    · have hi := ih i hi
      have hj := ih j hj
      rw [inverseButterfly_lower, w32, pow_succ]
      omega
    · have hz : zetaInvWord (256 - 2 ^ (8 - l) + b) ≤ 8380417 := Nat.sub_le _ _
      rw [inverseButterfly_upper]
      exact (montred_lt (mul_le_of_lt hz (w32_lt _))).trans_le (Nat.le_mul_of_pos_left _ (by positivity))

end Sys2Proof.Machine
end

section
/-! PROOFS. What NTT computes modulo `q` (spec/41_ntt.md R171): each layer splits the polynomial's residue modulo `X^(2·len) − w²`
into those modulo `X^len − w` and `X^len + w`, down to the values at the odd powers of ROOT. -/

namespace Sys2Proof.Machine

open Finset in
theorem sum_range_two_mul {M : Type} [AddCommMonoid M] (f : Nat → M) (n : Nat) :
    ∑ m ∈ range (2 * n), f m = ∑ m ∈ range n, f (2 * m) + ∑ m ∈ range n, f (2 * m + 1) := by
  induction n with
  | zero => simp
  | succ n ih =>
    rw [Nat.mul_succ, sum_range_succ, sum_range_succ, ih, sum_range_succ, sum_range_succ]
    abel

/-! ### Residues modulo `q` -/

/-- The integers modulo `q`. -/
abbrev Residue := ZMod 8380417

/-- ROOT modulo `q` (R160). -/
def zeta : Residue := (1753 : Nat)

theorem natCast_eq_natCast_iff_mod (a b : Nat) : (a : Residue) = b ↔ a % 8380417 = b % 8380417 :=
  ZMod.natCast_eq_natCast_iff' a b 8380417

theorem zeta_pow_256 : zeta ^ 256 = -1 := by
  have h := (natCast_eq_natCast_iff_mod (1753 ^ 256 + 1) 0).mpr (by norm_num)
  rw [Nat.cast_add, Nat.cast_pow, Nat.cast_one, Nat.cast_zero] at h
  exact eq_neg_of_add_eq_zero_left h

/-! ### The exponents (R167, R171) -/

/-- The exponent of ROOT at which index `j` of a transform evaluates (R171). -/
def oddExponent (j : Nat) : Nat := 2 * bitReversal j + 1

/-- The bit reversals of the two members of a pair, over all the pairs of the eight layers: times `len`, the odd exponents are the
exponent of the layer's twiddle and, half a turn further, of its negative. -/
theorem oddExponent_pair : ∀ l < 8, ∀ b < 2 ^ l, ∀ d < 2 ^ (7 - l),
    oddExponent (2 * 2 ^ (7 - l) * b + d) * 2 ^ (7 - l) % 512 = bitReversal (2 ^ l + b)
      ∧ oddExponent (2 * 2 ^ (7 - l) * b + d + 2 ^ (7 - l)) * 2 ^ (7 - l) % 512 = bitReversal (2 ^ l + b) + 256 := by
  decide +kernel

section
variable {x : Residue} (hx : x ^ 256 = -1)
include hx

theorem pow_512 : x ^ 512 = 1 := by rw [pow_mul x 256 2, hx, neg_one_sq]

theorem pow_of_mod_512 {a b : Nat} (h : a % 512 = b) : x ^ a = x ^ b := h ▸ pow_eq_pow_mod a (pow_512 hx)

variable {l b d : Nat} (hl : l < 8) (hb : b < 2 ^ l) (hd : d < 2 ^ (7 - l))
include hl hb hd

/-- At the lower member of a pair the `len`-th power is the layer's twiddle. -/
theorem pow_lower : x ^ (oddExponent (2 * 2 ^ (7 - l) * b + d) * 2 ^ (7 - l)) = x ^ bitReversal (2 ^ l + b) :=
  pow_of_mod_512 hx (oddExponent_pair l hl b hb d hd).1

/-- At the upper member of a pair the `len`-th power is minus the layer's twiddle. -/
theorem pow_upper : x ^ (oddExponent (2 * 2 ^ (7 - l) * b + d + 2 ^ (7 - l)) * 2 ^ (7 - l)) = -x ^ bitReversal (2 ^ l + b) := by
  rw [pow_of_mod_512 hx (oddExponent_pair l hl b hb d hd).2, pow_add, hx, mul_neg_one]

/-- At both members of a pair the `2·len`-th power is the twiddle's square. -/
theorem pow_pair : x ^ (oddExponent (2 * 2 ^ (7 - l) * b + d) * (2 * 2 ^ (7 - l))) = (x ^ bitReversal (2 ^ l + b)) ^ 2
    ∧ x ^ (oddExponent (2 * 2 ^ (7 - l) * b + (d + 2 ^ (7 - l))) * (2 * 2 ^ (7 - l))) = (x ^ bitReversal (2 ^ l + b)) ^ 2 := by
  have hdouble (e n : Nat) : x ^ (e * (2 * n)) = (x ^ (e * n)) ^ 2 := by rw [← pow_mul, Nat.mul_left_comm, Nat.mul_comm]
  rw [hdouble, hdouble, ← Nat.add_assoc, pow_lower hx hl hb hd, pow_upper hx hl hb hd, neg_sq]
  exact ⟨rfl, rfl⟩

end

/-! ### The forward butterfly modulo `q` (R165) -/

theorem montred_cast {a : Nat} (h : a ≤ 8380417 * 2 ^ 32) : (montred a : Residue) = a * 8265825 := by
  exact_mod_cast (natCast_eq_natCast_iff_mod _ (a * 8265825)).mpr (montred_mod_q h)

/-- The Montgomery factor of a twiddle is what `montred` takes away (R160). -/
theorem zetaWord_cast (k : Nat) : (zetaWord k : Residue) * 8265825 = zeta ^ bitReversal k := by
  have hR := (natCast_eq_natCast_iff_mod (2 ^ 32 * 8265825) 1).mpr (by norm_num)
  rw [Nat.cast_mul, Nat.cast_one] at hR
  rw [zetaWord, ZMod.natCast_mod, Nat.cast_mul, Nat.cast_pow 1753, mul_assoc]
  exact (congrArg _ hR).trans (mul_one _)

/-- Where no sum wraps, the two new values are `a + w·b` and `a − w·b`. -/
theorem forwardButterfly_cast {k a b : Nat} (ha : a + 2 * 8380417 < 2 ^ 32) (hb : b < 2 ^ 32) :
    (forwardButterfly.lower (zetaWord k) a b : Residue) = a + zeta ^ bitReversal k * b
      ∧ (forwardButterfly.upper (zetaWord k) a b : Residue) = a - zeta ^ bitReversal k * b := by
  have hmul := mul_le_of_lt (zetaWord_lt k).le hb
  have ht := montred_lt hmul
  have hcast : (montred (zetaWord k * b) : Residue) = zeta ^ bitReversal k * b := by
    rw [montred_cast hmul, ← zetaWord_cast]
    push_cast
    ring
  have hq : ((8380417 : Nat) : Residue) = 0 := ZMod.natCast_self _
  have hlower : forwardButterfly.lower (zetaWord k) a b = a + montred (zetaWord k * b) := by
    rw [forwardButterfly_lower, w32]
    omega
  have hupper : forwardButterfly.upper (zetaWord k) a b + montred (zetaWord k * b) = a + 2 * 8380417 := by
    rw [forwardButterfly_upper, w32, q]
    omega
  refine ⟨by rw [hlower, Nat.cast_add, hcast], ?_⟩
  rw [eq_sub_iff_add_eq, ← hcast, ← Nat.cast_add, hupper, Nat.cast_add, Nat.cast_mul, hq, mul_zero, add_zero]

/-! ### The layers modulo `q` -/

/-- Coefficient `d` of the polynomial `Σ cᵢ·Xⁱ`, of degree below `len·n`, modulo `X^len − w`. -/
def residueCoeff (c : Nat → Residue) (len n : Nat) (w : Residue) (d : Nat) : Residue :=
  ∑ m ∈ Finset.range n, c (d + len * m) * w ^ m

/-- The residue modulo `X^len − w` from the one modulo `X^(2·len) − w²`. -/
theorem residueCoeff_two_mul (c : Nat → Residue) (len n : Nat) (w : Residue) (d : Nat) : residueCoeff c len (2 * n) w d
    = residueCoeff c (2 * len) n (w ^ 2) d + w * residueCoeff c (2 * len) n (w ^ 2) (d + len) := by
  have hindex (m : Nat) : d + len * (2 * m) = d + 2 * len * m ∧ d + len * (2 * m + 1) = d + len + 2 * len * m := by
    constructor <;> ring
  rw [residueCoeff, sum_range_two_mul, residueCoeff, residueCoeff, Finset.mul_sum]
  refine congrArg₂ _ (Finset.sum_congr rfl fun m _ => ?_) (Finset.sum_congr rfl fun m _ => ?_)
  · rw [(hindex m).1, pow_mul]
  · rw [(hindex m).2, pow_succ, pow_mul]
    ring

section
variable {p : Nat → Nat} (hp : ∀ i < 256, p i < 2 ^ 32 - 16 * 8380417)
include hp

/-- One layer modulo `q`, on a pair of indices. -/
theorem forwardStage_succ_cast {l b d : Nat} (hl : l < 8) (hb : b < 2 ^ l) (hd : d < 2 ^ (7 - l)) {j : Nat}
    (hj : 2 * 2 ^ (7 - l) * b + d = j) :
    (forwardStage p (l + 1) j : Residue) = forwardStage p l j + zeta ^ bitReversal (2 ^ l + b) * forwardStage p l (j + 2 ^ (7 - l))
      ∧ (forwardStage p (l + 1) (j + 2 ^ (7 - l)) : Residue)
        = forwardStage p l j - zeta ^ bitReversal (2 ^ l + b) * forwardStage p l (j + 2 ^ (7 - l)) := by
  have hsize := Butterfly.two_mul_mul_add_le (len := 2 ^ (7 - l)) hb
  rw [forwardStage_size hl] at hsize
  have hlt := forwardStage_lt (by decide) hp hl.le
  have hlow := hlt j (by omega)
  have hup := hlt (j + 2 ^ (7 - l)) (by omega)
  subst hj
  rw [forwardStage, forwardButterfly.layerAt_lower hb hd, forwardButterfly.layerAt_upper hb hd]
  exact forwardButterfly_cast (by omega) (by omega)

/-- After `l` layers, place `r` of block `a` holds coefficient `r` of the polynomial modulo `X^len − ROOT^(len · e)`, where `e` is
the odd exponent of the index. -/
theorem forwardStage_cast {l : Nat} (hl : l ≤ 8) : ∀ a < 2 ^ l, ∀ r < 2 ^ (8 - l),
    (forwardStage p l (2 ^ (8 - l) * a + r) : Residue) = residueCoeff (fun i => p i) (2 ^ (8 - l)) (2 ^ l)
      (zeta ^ (oddExponent (2 ^ (8 - l) * a + r) * 2 ^ (8 - l))) r := by
  induction l with
  | zero =>
    intro a ha r hr
    obtain rfl : a = 0 := by omega
    simp [forwardStage, residueCoeff]
  | succ l ih =>
    have ih := ih (by omega)
    rw [two_pow_eight_sub hl] at ih
    rw [Nat.succ_sub_succ_eq_sub]
    intro a ha d hd
    obtain ⟨b, hab⟩ := Nat.even_or_odd' a
    have hb : b < 2 ^ l := by
      rw [Nat.pow_succ] at ha
      omega
    obtain ⟨hsucc_low, hsucc_up⟩ := forwardStage_succ_cast hp hl hb hd rfl
    have hlow := ih b hb d (by omega)
    have hup := ih b hb (d + 2 ^ (7 - l)) (by omega)
    rw [(pow_pair zeta_pow_256 hl hb hd).1] at hlow
    rw [(pow_pair zeta_pow_256 hl hb hd).2, ← Nat.add_assoc] at hup
    rcases hab with rfl | rfl
    · rw [show 2 ^ (7 - l) * (2 * b) + d = 2 * 2 ^ (7 - l) * b + d by ring, pow_lower zeta_pow_256 hl hb hd, Nat.pow_succ',
        residueCoeff_two_mul, hsucc_low, hlow, hup]
    · rw [show 2 ^ (7 - l) * (2 * b + 1) + d = 2 * 2 ^ (7 - l) * b + d + 2 ^ (7 - l) by ring, pow_upper zeta_pow_256 hl hb hd,
        Nat.pow_succ', residueCoeff_two_mul, hsucc_up, hlow, hup, neg_sq, neg_mul, ← sub_eq_add_neg]

end

/-! ### The transform (R171) -/

/-- The value of the polynomial `Σ cᵢ·Xⁱ` at `x`. -/
def evalAt (c : Nat → Residue) (x : Residue) : Residue := ∑ i ∈ Finset.range 256, c i * x ^ i

/-- Slot `k` modulo `q`. -/
def State.residues (s : State) (k : Slot) (i : Nat) : Residue := s.val k i

/-- NTT evaluates the slot at the odd powers of ROOT. -/
theorem afterNtt_residues {s : State} {rd : Slot} (hval : ∀ i < 256, s.val rd i < 2 ^ 32 - 16 * 8380417) {j : Nat} (hj : j < 256) :
    (s.afterNtt rd).residues rd j = evalAt (s.residues rd) (zeta ^ oddExponent j) := by
  have hlt := forwardStage_lt (by decide) hval le_rfl j hj
  have hcast := forwardStage_cast hval le_rfl j hj 0 Nat.zero_lt_one
  rw [State.residues, State.afterNtt, finish_val_of_lt s rd _ hj (by omega)]
  simpa [residueCoeff, evalAt, State.residues] using hcast

/-- Settles O44: the last layer's residues are the values at the odd powers of ROOT. -/
theorem nttEvaluatesAtTheOddPowersOfRoot : Obligations.NttEvaluatesAtTheOddPowersOfRoot := by
  intro rd s h hval
  refine ⟨_, exec_ntt s h, fun j hj => (natCast_eq_natCast_iff_mod _ _).mp ?_⟩
  refine (afterNtt_residues hval hj).trans ?_
  simp only [evalAt, State.residues, zeta, oddExponent, Nat.cast_sum, Nat.cast_mul, Nat.cast_pow, ← pow_mul]

end Sys2Proof.Machine
end

section
/-! PROOFS. What INVNTT computes modulo `q` (spec/41_ntt.md R179): layer by layer, the sums over blocks of twice the size. -/

namespace Sys2Proof.Machine

/-! ### The inverse twiddles (R161) -/

/-- `ROOT^(−1)` modulo `q` (R179). -/
def zetaInv : Residue := (731434 : Nat)

theorem zeta_mul_zetaInv : zeta * zetaInv = 1 := by
  have h := (natCast_eq_natCast_iff_mod (1753 * 731434) 1).mpr (by norm_num)
  rwa [Nat.cast_mul, Nat.cast_one] at h

theorem zeta_pow_mul_zetaInv_pow (n : Nat) : zeta ^ n * zetaInv ^ n = 1 := by
  rw [← mul_pow, zeta_mul_zetaInv, one_pow]

theorem zetaInv_pow_256 : zetaInv ^ 256 = -1 := by
  have h := zeta_pow_mul_zetaInv_pow 256
  rw [zeta_pow_256, neg_one_mul] at h
  exact neg_eq_iff_eq_neg.mp h

/-- The ROM word of an inverse block is the one whose exponent, with that of the forward block, makes half a turn (R161). -/
theorem bitReversal_inverse_index : ∀ l < 8, ∀ b < 2 ^ (7 - l),
    bitReversal (255 - (256 - 2 ^ (8 - l) + b)) + bitReversal (2 ^ (7 - l) + b) = 256 := by
  decide +kernel

/-- The twiddle of an inverse layer is the inverse of the one of the forward layer that it undoes. -/
theorem zetaInvWord_cast {l b : Nat} (hl : l < 8) (hb : b < 2 ^ (7 - l)) :
    (zetaInvWord (256 - 2 ^ (8 - l) + b) : Residue) * 8265825 = zetaInv ^ bitReversal (2 ^ (7 - l) + b) := by
  have hindex := bitReversal_inverse_index l hl b hb
  generalize 256 - 2 ^ (8 - l) + b = k at hindex ⊢
  have hneg : (zetaInvWord k : Residue) * 8265825 = -zeta ^ bitReversal (255 - k) := by
    rw [← zetaWord_cast, zetaInvWord, Nat.cast_sub (zetaWord_lt _).le, ZMod.natCast_self, zero_sub, neg_mul]
  have hunit := zeta_pow_mul_zetaInv_pow (bitReversal (2 ^ (7 - l) + b))
  rw [hneg, ← one_mul (zetaInv ^ _), ← neg_neg (1 : Residue), ← zeta_pow_256, ← hindex, pow_add]
  linear_combination (zeta ^ bitReversal (255 - k)) * hunit

/-! ### The inverse butterfly modulo `q` (R175, R178) -/

/-- Where nothing wraps, the two new values are `a + b` and `z · RINV · (a − b)`. -/
theorem inverseButterfly_cast {z a b : Nat} (hz : z ≤ 8380417) (ha : a < 2 ^ 7 * (2 * 8380417)) (hb : b < 2 ^ 7 * (2 * 8380417)) :
    (inverseButterfly.lower z a b : Residue) = a + b
      ∧ (inverseButterfly.upper z a b : Residue) = z * 8265825 * (a - b) := by
  have hq : ((8380417 : Nat) : Residue) = 0 := ZMod.natCast_self _
  have hsum : w32 ((a : Int) + b) = a + b := by
    rw [w32]
    omega
  have hdiff : w32 ((a : Int) + 256 * q - b) + b = a + 256 * 8380417 := by
    rw [w32, q]
    omega
  have hdiff := congrArg (Nat.cast (R := Residue)) hdiff
  rw [Nat.cast_add, Nat.cast_add, Nat.cast_mul, hq, mul_zero, add_zero, ← eq_sub_iff_add_eq] at hdiff
  rw [inverseButterfly_lower, inverseButterfly_upper, hsum, montred_cast (mul_le_of_lt hz (w32_lt _)), Nat.cast_mul, hdiff,
    Nat.cast_add]
  exact ⟨rfl, by ring⟩

/-! ### The layers modulo `q` -/

/-- The terms of R179's sum for output `r` that a block of `n` inputs from index `a` on contributes. -/
def inverseSum (y : Nat → Residue) (a n r : Nat) : Residue :=
  ∑ s ∈ Finset.range n, y (a + s) * zetaInv ^ (oddExponent (a + s) * r)

theorem inverseSum_two_mul (y : Nat → Residue) (a n r : Nat) :
    inverseSum y a (2 * n) r = inverseSum y a n r + inverseSum y (a + n) n r := by
  rw [inverseSum, Nat.two_mul, Finset.sum_range_add]
  simp only [inverseSum, Nat.add_assoc]

/-- Where the `m`-th power is the same for the whole block, it comes out of the sum. -/
theorem inverseSum_add {y : Nat → Residue} {a n m : Nat} {w : Residue}
    (hw : ∀ s < n, zetaInv ^ (oddExponent (a + s) * m) = w) (r : Nat) : inverseSum y a n (r + m) = w * inverseSum y a n r := by
  rw [inverseSum, inverseSum, Finset.mul_sum]
  refine Finset.sum_congr rfl fun s hs => ?_
  rw [Nat.mul_add, pow_add, hw s (Finset.mem_range.mp hs)]
  ring

section
variable {p : Nat → Nat} (hp : ∀ i < 256, p i < 2 * 8380417)
include hp

/-- One layer modulo `q`, on a pair of indices. -/
theorem inverseStage_succ_cast {l b d : Nat} (hl : l < 8) (hb : b < 2 ^ (7 - l)) (hd : d < 2 ^ l) {j : Nat}
    (hj : 2 * 2 ^ l * b + d = j) :
    (inverseStage p (l + 1) j : Residue) = inverseStage p l j + inverseStage p l (j + 2 ^ l)
      ∧ (inverseStage p (l + 1) (j + 2 ^ l) : Residue)
        = zetaInv ^ bitReversal (2 ^ (7 - l) + b) * (inverseStage p l j - inverseStage p l (j + 2 ^ l)) := by
  have hsize := Butterfly.two_mul_mul_add_le (len := 2 ^ l) hb
  rw [inverseStage_size hl] at hsize
  have hpow : 2 ^ l ≤ 2 ^ 7 := Nat.pow_le_pow_right (by decide) (by omega)
  have hlt := inverseStage_lt hp hl.le
  have hlow := (hlt j (by omega)).trans_le (Nat.mul_le_mul_right _ hpow)
  have hup := (hlt (j + 2 ^ l) (by omega)).trans_le (Nat.mul_le_mul_right _ hpow)
  subst hj
  rw [← zetaInvWord_cast hl hb, inverseStage, inverseButterfly.layerAt_lower hb hd, inverseButterfly.layerAt_upper hb hd]
  exact inverseButterfly_cast (Nat.sub_le _ _) hlow hup

/-- After `l` layers, place `r` of a block holds the block's part of the sum for output `r`. -/
theorem inverseStage_cast {l : Nat} (hl : l ≤ 8) : ∀ a < 2 ^ (8 - l), ∀ r < 2 ^ l,
    (inverseStage p l (2 ^ l * a + r) : Residue) = inverseSum (fun i => p i) (2 ^ l * a) (2 ^ l) r := by
  induction l with
  | zero =>
    intro a ha r hr
    obtain rfl : r = 0 := by omega
    simp [inverseStage, inverseSum]
  | succ l ih =>
    have ih := ih (by omega)
    rw [two_pow_eight_sub hl] at ih
    rw [Nat.succ_sub_succ_eq_sub, Nat.pow_succ']
    intro b hb r hr
    have hlower (s : Nat) (hs : s < 2 ^ l) : zetaInv ^ (oddExponent (2 * 2 ^ l * b + s) * 2 ^ l)
        = zetaInv ^ bitReversal (2 ^ (7 - l) + b) := by
      simpa [Nat.sub_sub_self (Nat.le_of_lt_succ hl)] using
        pow_lower (d := s) zetaInv_pow_256 (show 7 - l < 8 by omega) hb (by rwa [Nat.sub_sub_self (by omega)])
    have hupper (s : Nat) (hs : s < 2 ^ l) : zetaInv ^ (oddExponent (2 * 2 ^ l * b + 2 ^ l + s) * 2 ^ l)
        = -zetaInv ^ bitReversal (2 ^ (7 - l) + b) := by
      simpa [Nat.sub_sub_self (Nat.le_of_lt_succ hl), Nat.add_right_comm] using
        pow_upper (d := s) zetaInv_pow_256 (show 7 - l < 8 by omega) hb (by rwa [Nat.sub_sub_self (by omega)])
    have hlow (d : Nat) (hd : d < 2 ^ l) := ih (2 * b) (by omega) d hd
    have hup (d : Nat) (hd : d < 2 ^ l) := ih (2 * b + 1) (by omega) d hd
    rw [show 2 ^ l * (2 * b) = 2 * 2 ^ l * b by ring] at hlow
    rw [show 2 ^ l * (2 * b + 1) = 2 * 2 ^ l * b + 2 ^ l by ring] at hup
    rcases Nat.lt_or_ge r (2 ^ l) with hr' | hr'
    · rw [(inverseStage_succ_cast hp hl hb hr' rfl).1, inverseSum_two_mul, hlow r hr', Nat.add_right_comm, hup r hr']
    · obtain ⟨d, rfl⟩ := Nat.exists_eq_add_of_le' hr'
      have hd : d < 2 ^ l := by omega
      rw [← Nat.add_assoc, (inverseStage_succ_cast hp hl hb hd rfl).2, inverseSum_two_mul, inverseSum_add hlower,
        inverseSum_add hupper, hlow d hd, Nat.add_right_comm, hup d hd]
      ring

end

/-! ### The transform (R176, R179) -/

theorem finalScale_cast {v : Nat} (hv : v < 2 ^ 32) :
    (montred (finalScale * v) : Residue) = 4193792 * 8347681 * v := by
  have hconst := (natCast_eq_natCast_iff_mod (finalScale * 8265825) (4193792 * 8347681)).mpr (by norm_num)
  rw [montred_cast (mul_le_of_lt (by decide) hv)]
  push_cast at hconst ⊢
  linear_combination (v : Residue) * hconst

section
variable {s : State} {rd : Slot} {i : Nat} (hi : i < 256)
include hi

theorem afterInvntt_val : (s.afterInvntt rd).val rd i = montred (finalScale * inverseStage (s.val rd) 8 i) :=
  finish_val_of_lt s rd _ hi (montred_lt_two_pow _)

theorem afterInvntt_val_lt : (s.afterInvntt rd).val rd i < 2 * 8380417 := by
  rw [afterInvntt_val hi]
  exact finalScale_lt (inverseStage_lt_two_pow (fun j _ => s.val_lt rd j) le_rfl i hi)

/-- INVNTT is the scaled inverse transform of the slot. -/
theorem afterInvntt_residues (hval : ∀ j < 256, s.val rd j < 2 * 8380417) :
    (s.afterInvntt rd).residues rd i = 4193792 * 8347681 * inverseSum (s.residues rd) 0 256 i := by
  have hcast := inverseStage_cast hval le_rfl 0 Nat.zero_lt_one i hi
  rw [Nat.mul_zero, Nat.zero_add] at hcast
  rw [State.residues, afterInvntt_val hi, finalScale_cast (inverseStage_lt_two_pow (fun j _ => s.val_lt rd j) le_rfl i hi)]
  exact congrArg _ hcast

end

/-- Settles O43: the final scaling bounds every output, and the last layer's sums are the inverse transform. -/
theorem invnttIsTheScaledInverseTransform : Obligations.InvnttIsTheScaledInverseTransform := by
  intro rd s h
  refine ⟨_, exec_invntt s h, fun i hi => afterInvntt_val_lt hi, fun hval i hi => (natCast_eq_natCast_iff_mod _ _).mp ?_⟩
  refine (afterInvntt_residues hi hval).trans ?_
  simp only [inverseSum, State.residues, zetaInv, oddExponent, Nat.zero_add, Nat.cast_mul, Nat.cast_sum, Nat.cast_pow,
    Nat.cast_ofNat]

end Sys2Proof.Machine
end

section
/-! PROOFS. The laws of the two transforms (spec/41_ntt.md R180, R181): the inverse sum of a polynomial's values is 256 times its
coefficients, and the product of two polynomials' values are the values of their product modulo `X^256 + 1`. -/

namespace Sys2Proof.Machine

/-! ### The inverse sum of the values of a polynomial -/

theorem bitReversal_involution : ∀ j < 256, bitReversal j < 256 ∧ bitReversal (bitReversal j) = j := by
  decide +kernel

theorem sum_bitReversal (f : Nat → Residue) : ∑ j ∈ Finset.range 256, f (bitReversal j) = ∑ m ∈ Finset.range 256, f m := by
  have hmem (j : Nat) (hj : j ∈ Finset.range 256) := bitReversal_involution j (Finset.mem_range.mp hj)
  exact Finset.sum_nbij' bitReversal bitReversal (fun j hj => Finset.mem_range.mpr (hmem j hj).1)
    (fun j hj => Finset.mem_range.mpr (hmem j hj).1) (fun j hj => (hmem j hj).2) (fun j hj => (hmem j hj).2) fun _ _ => rfl

theorem zeta_pow_oddExponent (j : Nat) : (zeta ^ oddExponent j) ^ 256 = -1 := by
  rw [pow_right_comm, zeta_pow_256]
  exact Odd.neg_one_pow ⟨bitReversal j, rfl⟩

theorem prime_q : Nat.Prime 8380417 := by norm_num

/-- ROOT has order 512 (R160): its even powers below it differ. -/
theorem eq_of_zeta_pow_two_mul_eq {i k : Nat} (hi : i < 256) (hk : k < 256) (h : zeta ^ (2 * i) = zeta ^ (2 * k)) : i = k := by
  have hneg : zeta ^ 2 ^ 8 ≠ 1 := by
    rw [show 2 ^ 8 = 256 from rfl, zeta_pow_256]
    decide
  have horder : orderOf zeta = 2 ^ 9 := orderOf_eq_prime_pow hneg (pow_512 zeta_pow_256)
  have := pow_injOn_Iio_orderOf (show 2 * i ∈ Set.Iio (orderOf zeta) by rw [horder, Set.mem_Iio]; omega)
    (show 2 * k ∈ Set.Iio (orderOf zeta) by rw [horder, Set.mem_Iio]; omega) h
  omega

/-- The rows of the two transforms are orthogonal. -/
theorem sum_zeta_pow_mul_zetaInv_pow {i k : Nat} (hi : i < 256) (hk : k < 256) :
    ∑ j ∈ Finset.range 256, (zeta ^ oddExponent j) ^ i * zetaInv ^ (oddExponent j * k) = if i = k then 256 else 0 := by
  have hterm (j : Nat) : (zeta ^ oddExponent j) ^ i * zetaInv ^ (oddExponent j * k)
      = (zeta ^ i * zetaInv ^ k) * ((zeta ^ i * zetaInv ^ k) ^ 2) ^ bitReversal j := by
    rw [pow_right_comm, Nat.mul_comm, pow_mul zetaInv, ← mul_pow, ← pow_mul, ← pow_succ']
    rfl
  simp only [hterm]
  rw [← Finset.mul_sum, sum_bitReversal fun m => ((zeta ^ i * zetaInv ^ k) ^ 2) ^ m]
  split
  case isTrue h => simp [h, zeta_pow_mul_zetaInv_pow]
  case isFalse h =>
    have := Fact.mk prime_q
    have hne : (zeta ^ i * zetaInv ^ k) ^ 2 ≠ 1 := fun hone => h (eq_of_zeta_pow_two_mul_eq hi hk (by
      linear_combination zeta ^ (2 * k) * hone - zeta ^ (2 * i) * (zeta ^ k * zetaInv ^ k + 1) * zeta_pow_mul_zetaInv_pow k))
    have hgeom := geom_sum_mul ((zeta ^ i * zetaInv ^ k) ^ 2) 256
    have hone : ((zeta ^ i * zetaInv ^ k) ^ 2) ^ 256 = 1 := by
      rw [← pow_mul, mul_pow, pow_right_comm zeta, pow_right_comm zetaInv, pow_512 zeta_pow_256, pow_512 zetaInv_pow_256, one_pow,
        one_pow, one_mul]
    rw [hone, sub_self] at hgeom
    rw [(mul_eq_zero.mp hgeom).resolve_right (sub_ne_zero.mpr hne), mul_zero]

/-- INVNTT's sum undoes NTT's evaluation, up to the factor 256. -/
theorem inverseSum_evalAt (c : Nat → Residue) {i : Nat} (hi : i < 256) :
    inverseSum (fun j => evalAt c (zeta ^ oddExponent j)) 0 256 i = 256 * c i := by
  calc inverseSum (fun j => evalAt c (zeta ^ oddExponent j)) 0 256 i
      = ∑ k ∈ Finset.range 256, c k * ∑ j ∈ Finset.range 256, (zeta ^ oddExponent j) ^ k * zetaInv ^ (oddExponent j * i) := by
        simp only [inverseSum, evalAt, Finset.sum_mul, Finset.mul_sum, mul_assoc, Nat.zero_add]
        exact Finset.sum_comm
    _ = ∑ k ∈ Finset.range 256, c k * if k = i then 256 else 0 :=
        Finset.sum_congr rfl fun k hk => by rw [sum_zeta_pow_mul_zetaInv_pow (Finset.mem_range.mp hk) hi]
    _ = 256 * c i := by simp [hi, mul_comm]

/-- INVNTT of a slot that holds the values of a polynomial, each times `w`. -/
theorem afterInvntt_residues_of_evalAt {s : State} {rd : Slot} {c : Nat → Residue} {w : Residue}
    (hval : ∀ j < 256, s.val rd j < 2 * 8380417) (hc : ∀ j < 256, s.residues rd j = w * evalAt c (zeta ^ oddExponent j))
    {i : Nat} (hi : i < 256) : (s.afterInvntt rd).residues rd i = 4193792 * w * c i := by
  have hconst := (natCast_eq_natCast_iff_mod (8347681 * 256) 1).mpr (by norm_num)
  push_cast at hconst
  have hsum : inverseSum (s.residues rd) 0 256 i = w * inverseSum (fun j => evalAt c (zeta ^ oddExponent j)) 0 256 i := by
    rw [inverseSum, inverseSum, Finset.mul_sum]
    refine Finset.sum_congr rfl fun j hj => ?_
    rw [Nat.zero_add, hc j (Finset.mem_range.mp hj), mul_assoc]
  rw [afterInvntt_residues hi hval, hsum, inverseSum_evalAt c hi]
  linear_combination 4193792 * w * c i * hconst

/-! ### Slots after a command that writes one of them -/

section
variable {s : State} {k : Slot} (g : Nat → Nat)

theorem finish_readable : (s.finish k g).Readable k := fun i hi => by rw [finish_coeff s k g hi, Option.isSome_some]

variable {j : Slot} (hj : j ≠ k)
include hj

theorem finish_coeff_other {i : Nat} (hi : i < 256) : (s.finish k g).coeff j i = s.coeff j i :=
  finish_slotsSameBut s k g j i hi fun d hd => by
    rw [List.mem_singleton.mp hd]
    exact Fin.val_ne_of_ne hj

theorem finish_readable_other (h : s.Readable j) : (s.finish k g).Readable j := fun i hi => by
  rw [finish_coeff_other g hj hi]
  exact h i hi

theorem finish_val_other {i : Nat} (hi : i < 256) : (s.finish k g).val j i = s.val j i := by
  rw [State.val, finish_coeff_other g hj hi, State.val]

end

/-! ### The round trip (R180) -/

/-- REDUCE leaves a slot with the same residues that meets INVNTT's bound (R132, R177). -/
theorem reduce_residues (s : State) (rd : Slot) {j : Nat} (hj : j < 256) :
    (s.finish rd fun i => reduce32 (s.val rd i)).val rd j < 2 * 8380417
      ∧ (s.finish rd fun i => reduce32 (s.val rd i)).residues rd j = s.residues rd j := by
  have hle := reduce32_le (s.val rd j)
  rw [State.residues, finish_val_of_lt s rd _ hj (by omega)]
  exact ⟨by omega, (natCast_eq_natCast_iff_mod _ _).mpr (reduce32_mod_q (s.val_lt rd j))⟩

theorem freeze_val (s : State) (rd : Slot) {i : Nat} (hi : i < 256) :
    (s.finish rd fun i => freezeCoeff (s.val rd i)).val rd i = s.val rd i % 8380417 := by
  have hfreeze := freezeCoeff_of_lt (s.val_lt rd i)
  rw [finish_val_of_lt s rd _ hi (by omega), hfreeze]

/-- Settles O45: after REDUCE the slot holds the values of its polynomial, within INVNTT's bound. -/
theorem nttReduceInvnttScalesByMont : Obligations.NttReduceInvnttScalesByMont := by
  intro rd s h hval
  refine ⟨_, _, _, _, exec_ntt s h, exec_reduce _ (finish_readable _), exec_invntt _ (finish_readable _),
    exec_freeze _ (finish_readable _), fun i hi => ?_⟩
  have hcast := afterInvntt_residues_of_evalAt (c := s.residues rd) (w := 1) (fun j hj => (reduce_residues (s.afterNtt rd) rd hj).1)
    (fun j hj => by rw [(reduce_residues (s.afterNtt rd) rd hj).2, afterNtt_residues hval hj, one_mul]) hi
  have hmod := (natCast_eq_natCast_iff_mod _ (4193792 * s.val rd i)).mp (hcast.trans (by simp [State.residues]))
  exact ⟨hmod, afterInvntt_val_lt hi, (freeze_val _ rd hi).trans hmod⟩

/-! ### The product modulo `X^256 + 1` (R181) -/

/-- Multiplying by `x^j` with `x^n = −1` moves the coefficients up by `j` places, those that pass the top with a minus sign. -/
theorem pow_mul_sum_of_pow_eq_neg_one {x : Residue} {n j : Nat} (hx : x ^ n = -1) (hj : j ≤ n) (b : Nat → Residue) :
    x ^ j * ∑ i ∈ Finset.range n, b i * x ^ i
      = ∑ k ∈ Finset.range n, (if j ≤ k then b (k - j) else -b (n + k - j)) * x ^ k := by
  obtain ⟨m, rfl⟩ := Nat.exists_eq_add_of_le hj
  have hinput := Finset.sum_range_add (fun i => b i * x ^ i) m j
  rw [Nat.add_comm m j] at hinput
  rw [hinput, Finset.sum_range_add, mul_add, Finset.mul_sum, Finset.mul_sum, add_comm]
  refine congrArg₂ _ (Finset.sum_congr rfl fun k hk => ?_) (Finset.sum_congr rfl fun k _ => ?_)
  · have hk := Finset.mem_range.mp hk
    rw [if_neg (by omega), show j + m + k - j = m + k by omega]
    linear_combination b (m + k) * x ^ k * hx
  · rw [if_pos (by omega), Nat.add_sub_cancel_left]
    ring

/-- Coefficient `i` of the product of two polynomials modulo `X^256 + 1`. -/
def negacyclic (a b : Nat → Residue) (i : Nat) : Residue :=
  ∑ j ∈ Finset.range 256, if j ≤ i then a j * b (i - j) else -(a j * b (256 + i - j))

/-- At a root of `X^256 + 1` the product's value is the product of the values. -/
theorem evalAt_mul_evalAt (a b : Nat → Residue) {x : Residue} (hx : x ^ 256 = -1) :
    evalAt a x * evalAt b x = evalAt (negacyclic a b) x := by
  calc evalAt a x * evalAt b x
      = ∑ j ∈ Finset.range 256, a j * (x ^ j * evalAt b x) := by rw [evalAt, Finset.sum_mul]; simp only [mul_assoc]
    _ = ∑ j ∈ Finset.range 256, ∑ k ∈ Finset.range 256, (if j ≤ k then a j * b (k - j) else -(a j * b (256 + k - j))) * x ^ k := by
        refine Finset.sum_congr rfl fun j hj => ?_
        rw [evalAt, pow_mul_sum_of_pow_eq_neg_one hx (Finset.mem_range.mp hj).le, Finset.mul_sum]
        refine Finset.sum_congr rfl fun k _ => ?_
        rw [← mul_assoc, mul_ite, mul_neg]
    _ = evalAt (negacyclic a b) x := by
        rw [Finset.sum_comm, evalAt]
        simp only [negacyclic, Finset.sum_mul]

/-- A slot that holds the values of the polynomial `c`, as NTT leaves them: within PWMUL's bound (R138). -/
structure State.HoldsValues (s : State) (k : Slot) (c : Nat → Residue) : Prop where
  readable : s.Readable k
  lt : ∀ j < 256, s.val k j < 22 * 8380417
  residues : ∀ j < 256, s.residues k j = evalAt c (zeta ^ oddExponent j)

theorem afterNtt_holdsValues {s : State} {rd : Slot} {p : Nat → Nat} (hp : ∀ i < 256, s.val rd i = p i)
    (hlt : ∀ i < 256, p i < 6 * 8380417) : (s.afterNtt rd).HoldsValues rd fun i => p i where
  readable := finish_readable _
  lt _ hj := afterNtt_val_lt (by decide) (fun i hi => hp i hi ▸ hlt i hi) hj
  residues j hj := by
    rw [afterNtt_residues (fun i hi => (hp i hi ▸ hlt i hi).trans (by decide)) hj, evalAt, evalAt]
    exact Finset.sum_congr rfl fun i hi => by rw [State.residues, hp i (Finset.mem_range.mp hi)]

theorem State.HoldsValues.afterNtt_other {s : State} {rd k : Slot} {c : Nat → Residue} (h : s.HoldsValues k c) (hk : k ≠ rd) :
    (s.afterNtt rd).HoldsValues k c where
  readable := finish_readable_other _ hk h.readable
  lt j hj := by
    rw [State.afterNtt, finish_val_other _ hk hj]
    exact h.lt j hj
  residues j hj := by
    rw [State.residues, State.afterNtt, finish_val_other _ hk hj]
    exact h.residues j hj

/-- PWMUL of two slots of values and INVNTT give the coefficients of the product: PWMUL's RINV and INVNTT's R cancel. -/
theorem exec_pwmul_invntt {s : State} (rd : Slot) {ra rb : Slot} {a b : Nat → Residue} (ha : s.HoldsValues ra a)
    (hb : s.HoldsValues rb b) : ∃ c d, exec (.pwmul rd ra rb) s = .next c ∧ exec (.invntt rd) c = .next d
      ∧ ∀ i < 256, d.val rd i < 2 * 8380417 ∧ d.residues rd i = negacyclic a b i := by
  have hprod {j : Nat} (hj : j < 256) := mul_le_of_lt_22q (ha.lt j hj) (hb.lt j hj)
  have hval {j : Nat} (hj : j < 256) : (s.finish rd fun i => mulCoeff (s.val ra i) (s.val rb i)).val rd j
      = mulCoeff (s.val ra j) (s.val rb j) := finish_val_of_lt s rd _ hj (montred_lt_two_pow _)
  have hconst := (natCast_eq_natCast_iff_mod (4193792 * 8265825) 1).mpr (by norm_num)
  push_cast at hconst
  refine ⟨_, _, exec_pwmul s rd ha.readable hb.readable, exec_invntt _ (finish_readable _),
    fun i hi => ⟨afterInvntt_val_lt hi, ?_⟩⟩
  rw [afterInvntt_residues_of_evalAt (c := negacyclic a b) (w := 8265825) (fun j hj => ?_) (fun j hj => ?_) hi]
  · linear_combination negacyclic a b i * hconst
  · rw [hval hj]
    exact montred_lt (hprod hj)
  · rw [State.residues, hval hj, mulCoeff, montred_cast (hprod hj), Nat.cast_mul, ← evalAt_mul_evalAt a b (zeta_pow_oddExponent j),
      ← ha.residues j hj, ← hb.residues j hj, State.residues, State.residues, mul_comm]

/-- A word congruent to a coefficient of the product, as R181 says it. -/
theorem dvd_sub_of_cast_eq_negacyclic {x i : Nat} {a b : Nat → Nat}
    (h : (x : Residue) = negacyclic (fun j => a j) (fun j => b j) i) :
    (8380417 : Int) ∣ (x : Int) - ∑ j ∈ Finset.range 256,
      (if j ≤ i then (a j * b (i - j) : Int) else -(a j * b (256 + i - j) : Int)) := by
  refine (ZMod.intCast_zmod_eq_zero_iff_dvd _ 8380417).mp ?_
  push_cast
  rw [h, negacyclic, sub_self]

/-- Settles O46: both NTTs leave values, and their products are the values of the product. -/
theorem negacyclicConvolution : Obligations.NegacyclicConvolution := by
  refine ⟨fun rd ra rb s hne ha hb hval => ?_, fun rd ra s ha hval => ?_⟩
  · have hva := (afterNtt_holdsValues (fun _ _ => rfl) fun i hi => (hval i hi).1).afterNtt_other (rd := rb) hne
    have hvb := afterNtt_holdsValues (s := s.afterNtt ra) (rd := rb) (fun i hi => finish_val_other _ hne.symm hi)
      fun i hi => (hval i hi).2
    obtain ⟨c, d, hc, hd, hspec⟩ := exec_pwmul_invntt rd hva hvb
    exact ⟨_, _, c, d, exec_ntt s ha, exec_ntt _ (finish_readable_other _ hne.symm hb), hc, hd,
      fun i hi => ⟨(hspec i hi).1, dvd_sub_of_cast_eq_negacyclic (hspec i hi).2⟩⟩
  · have hv := afterNtt_holdsValues (fun _ _ => rfl) hval
    obtain ⟨c, d, hc, hd, hspec⟩ := exec_pwmul_invntt rd hv hv
    exact ⟨_, c, d, exec_ntt s ha, hc, hd, fun i hi => ⟨(hspec i hi).1, dvd_sub_of_cast_eq_negacyclic (hspec i hi).2⟩⟩

end Sys2Proof.Machine
end

section
/-! PROOFS. The laws of polynomial arithmetic, the norm check and the power-of-two decomposition (spec/42_arith.md): for each of the
three, what its datapath gives as a natural number, then what its commands do on sources that can be read. -/

namespace Sys2Proof.Machine

/-! ### ADD, SUB and SHL as numbers (R200 to R205) -/

theorem addCoeff_eq (a b : Nat) : addCoeff a b = (a + b) % 2 ^ 32 := by
  rw [addCoeff, ← Int.natCast_add, w32_natCast]

theorem shlCoeff_eq (d a : Nat) : shlCoeff d a = a * 2 ^ d % 2 ^ 32 := by
  rw [shlCoeff, ← w32_natCast]
  norm_cast

/-- R203: where neither `a + 2q` nor the difference leaves the `u32` range, nothing wraps. -/
theorem subCoeff_add {a b : Nat} (hb : b ≤ a + 2 * 8380417) (ha : a + 2 * 8380417 < 2 ^ 32) :
    subCoeff a b + b = a + 2 * 8380417 := by
  simp only [subCoeff, w32, q]
  omega

/-- R205: a product of a coefficient below `2^(32−D)` does not wrap. -/
theorem mul_two_pow_lt {d a : Nat} (hd : d ≤ 32) (ha : a < 2 ^ (32 - d)) : a * 2 ^ d < 2 ^ 32 :=
  (Nat.mul_lt_mul_of_pos_right ha (Nat.two_pow_pos d)).trans_eq (by rw [← Nat.pow_add, Nat.sub_add_cancel hd])

/-- R9: D is 13 or 14. -/
theorem d_of_legal {c : Config} (h : c.legal = true) : c.d = 13 ∨ c.d = 14 := by
  simp only [Config.legal, Bool.and_eq_true, Bool.or_eq_true, beq_iff_eq] at h
  omega

/-- Settles O49: each sum, difference or product is below `2^32`, where the datapath keeps it. -/
theorem addSubShlAreExactInContract : Obligations.AddSubShlAreExactInContract := by
  intro rd ra rb s ha hb hlegal
  refine ⟨⟨_, exec_add s rd ha hb, fun i hi hsum => ?_⟩, ⟨_, exec_sub s rd ha hb, fun i hi hle hlt => ?_⟩,
    ⟨_, exec_shl s ha, fun i hi hlt => ?_⟩⟩
  · rw [finish_val s rd _ hi, addCoeff_eq, Nat.mod_mod, Nat.mod_eq_of_lt hsum]
  · rw [finish_val_of_lt s rd _ hi (w32_lt _), subCoeff_add hle hlt]
  · have hd : s.cfg.d ≤ 32 := by have := d_of_legal hlegal; omega
    rw [finish_val s ra _ hi, shlCoeff_eq, Nat.mod_mod, Nat.mod_eq_of_lt (mul_two_pow_lt hd hlt)]

/-! ### The norm checker's value (R210 to R212) -/

section
variable {t a : Nat}

/-- The mask of a clear sign bit is 0. -/
theorem flipSign_of_lt (h : t < 2 ^ 31) : flipSign t = t := by
  have hmask : w32 (asr t 31) = 0 := by
    simp only [asr, s32, w32]
    omega
  rw [flipSign, hmask, Nat.xor_zero]

/-- The mask of a set sign bit is all ones, so the flip is the complement. -/
theorem flipSign_of_le (h : 2 ^ 31 ≤ t) (hlt : t < 2 ^ 32) : flipSign t = 2 ^ 32 - 1 - t := by
  have hmask : w32 (asr t 31) = 2 ^ 32 - 1 := by
    simp only [asr, s32, w32]
    omega
  have hnot := congrArg BitVec.toNat (BitVec.xor_allOnes (x := BitVec.ofNat 32 t))
  rw [BitVec.toNat_xor, BitVec.toNat_not, BitVec.toNat_allOnes, BitVec.toNat_ofNat, Nat.mod_eq_of_lt hlt] at hnot
  rw [flipSign, hmask, hnot]

/-- R211: the table of the norm value. Up to HALFQ the difference `HALFQ − a` is nonnegative; above it the difference wraps, with the
sign bit set as far as `HALFQ + 2^31`. -/
theorem chkval_eq (h : a < 2 ^ 32) : chkval a = if a ≤ 4190208 then a else if a ≤ 8380417 then 8380417 - a
    else if a ≤ 4190208 + 2 ^ 31 then 2 ^ 32 + 8380417 - a else a := by
  rw [chkval]
  by_cases hsmall : a ≤ 4190208
  · have hdiff : w32 ((halfq : Int) - a) = 4190208 - a := by simp only [w32, halfq]; omega
    rw [hdiff, if_pos hsmall, flipSign_of_lt (by omega)]
    simp only [w32, halfq]
    omega
  · have hdiff : w32 ((halfq : Int) - a) = 2 ^ 32 + 4190208 - a := by simp only [w32, halfq]; omega
    rw [hdiff, if_neg hsmall]
    by_cases hsign : a ≤ 4190208 + 2 ^ 31
    · rw [flipSign_of_le (by omega) (by omega), if_pos hsign, w32]
      simp only [halfq]
      split <;> omega
    · rw [flipSign_of_lt (by omega), if_neg (by omega), if_neg hsign, w32]
      simp only [halfq]
      omega

/-- R212: up to q the norm value is the centered absolute value. -/
theorem chkval_of_le_q (h : a ≤ 8380417) : chkval a = (centeredRep a).natAbs := by
  rw [chkval_eq (by omega), if_pos h, centeredRep]
  split <;> split <;> omega

end

/-! ### CHKNORM -/

/-- Some coefficient of slot `k` has a norm value of at least the latched ARG. -/
def State.normReached (s : State) (k : Slot) : Bool := (s.vals k).any fun a => decide (s.bound ≤ chkval a)

theorem normReached_iff (s : State) (k : Slot) : s.normReached k = true ↔ ∃ i < 256, s.larg.toNat ≤ chkval (s.val k i) := by
  rw [← State.bound]
  simp [State.normReached, State.vals]

theorem exec_chknorm {s : State} {ra : Slot} (h : s.Readable ra) :
    exec (.chknorm ra) s = .next (s.setNorm (s.normReached ra)).complete :=
  State.withPoly_of_poly_eq_some (poly_eq_vals s h) _

theorem setNorm_complete_completes (s : State) (n : Bool) : Completes n s (s.setNorm n).complete :=
  ⟨by constructor <;> rfl, rfl, rfl, rfl, rfl⟩

/-- Settles O35: the values compared are the table's. -/
theorem chknormComparesEveryCoefficient : Obligations.ChknormComparesEveryCoefficient := by
  intro ra s h
  refine ⟨_, _, exec_chknorm h, setNorm_complete_completes s _, fun _ _ _ _ => rfl, fun _ => rfl, ?_⟩
  simp only [normReached_iff, chkval_eq (s.val_lt ra _)]

/-- Settles O36: up to q the values compared are the centered absolute values. -/
theorem chknormInContract : Obligations.ChknormInContract := by
  intro ra s h hle
  refine ⟨_, exec_chknorm h, rfl, (normReached_iff s ra).trans (exists_congr fun i => and_congr_right fun hi => ?_)⟩
  rw [chkval_of_le_q (hle i hi)]

/-! ### The two parts of a decomposition (R220 to R226) -/

theorem highPart_eq (d a : Nat) : highPart d a = (a + 2 ^ (d - 1) - 1) % 2 ^ 32 / 2 ^ d := by
  have hpos := Nat.two_pow_pos (d - 1)
  have hcast : (a : Int) + 2 ^ (d - 1) - 1 = (a + 2 ^ (d - 1) - 1 : Nat) := by
    push_cast [show 1 ≤ a + 2 ^ (d - 1) by omega]
    rfl
  rw [highPart, hcast, w32_natCast]

section
variable {d a : Nat} (hd : d = 13 ∨ d = 14)
include hd

/-- R226 with the range of R222: where the rounding does not wrap, the parts recompose to `a + q`, and the low part lies within
`2^(D−1)` of q. -/
theorem highPart_lowPart_of_lt (h : a < 2 ^ 32 - 2 ^ (d - 1) + 1) : highPart d a * 2 ^ d + lowPart d a = a + 8380417
    ∧ 8380417 < lowPart d a + 2 ^ (d - 1) ∧ lowPart d a ≤ 8380417 + 2 ^ (d - 1) := by
  rw [lowPart, highPart_eq, w32, q]
  rcases hd with rfl | rfl <;> omega

/-- R222: the high part of a standard representative fits the t1 field. -/
theorem highPart_lt (h : a < 8380417) : highPart d a < 2 ^ (23 - d) := by
  rw [highPart_eq]
  rcases hd with rfl | rfl <;> omega

end

/-! ### POWER2ROUND -/

/-- Completion with the high parts of slot `ra` in slot `rd` and its low parts in slot `rb`. -/
def State.decomposed (s : State) (rd ra rb : Slot) : State :=
  (s.finish rd fun i => highPart s.cfg.d (s.val ra i)).finish rb fun i => lowPart s.cfg.d (s.val ra i)

theorem exec_power2round {s : State} (rd : Slot) {ra : Slot} (rb : Slot) (h : s.Readable ra) :
    exec (.power2round rd ra rb) s = .next (s.decomposed rd ra rb) := by
  refine (State.withPoly_of_poly_eq_some (poly_eq_vals s h) _).trans ?_
  rw [State.vals, List.map_map, List.map_map]
  rfl

theorem SlotsSameBut.trans {ds es : List Slot} {s t u : State} (h : SlotsSameBut ds s t) (h' : SlotsSameBut es t u) :
    SlotsSameBut (ds ++ es) s u := fun k i hi hk =>
  (h' k i hi fun d hd => hk d (List.mem_append_right _ hd)).trans (h k i hi fun d hd => hk d (List.mem_append_left _ hd))

section
variable (s : State) (rd ra rb : Slot)

theorem decomposed_completes : Completes s.norm s (s.decomposed rd ra rb) := ⟨by constructor <;> rfl, rfl, rfl, rfl, rfl⟩

theorem decomposed_slotsSameBut : SlotsSameBut [rd, rb] s (s.decomposed rd ra rb) :=
  (finish_slotsSameBut s rd _).trans (finish_slotsSameBut _ rb _)

theorem decomposed_coeff_low {i : Nat} (hi : i < 256) :
    (s.decomposed rd ra rb).coeff rb i = some (BitVec.ofNat 32 (lowPart s.cfg.d (s.val ra i))) := finish_coeff _ rb _ hi

theorem decomposed_readable_low : (s.decomposed rd ra rb).Readable rb := finish_readable _

theorem decomposed_val_low {i : Nat} (hi : i < 256) :
    (s.decomposed rd ra rb).val rb i = lowPart s.cfg.d (s.val ra i) := finish_val_of_lt _ rb _ hi (w32_lt _)

variable {rd rb} (hne : rd ≠ rb)
include hne

theorem decomposed_coeff_high {i : Nat} (hi : i < 256) :
    (s.decomposed rd ra rb).coeff rd i = some (BitVec.ofNat 32 (highPart s.cfg.d (s.val ra i))) :=
  (finish_coeff_other _ hne hi).trans (finish_coeff s rd _ hi)

theorem decomposed_readable_high : (s.decomposed rd ra rb).Readable rd := finish_readable_other _ hne (finish_readable _)

theorem decomposed_val_high {i : Nat} (hi : i < 256) :
    (s.decomposed rd ra rb).val rd i = highPart s.cfg.d (s.val ra i) :=
  (finish_val_other _ hne hi).trans (finish_val_of_lt s rd _ hi ((Nat.div_le_self _ _).trans_lt (w32_lt _)))

end

/-- Settles O37: each slot holds its part's word. -/
theorem power2roundWritesBothParts : Obligations.Power2roundWritesBothParts := by
  intro rd ra rb s h hne _
  refine ⟨_, exec_power2round rd rb h, decomposed_completes s rd ra rb, decomposed_slotsSameBut s rd ra rb, fun _ => rfl,
    fun i hi => ?_⟩
  dsimp only
  rw [decomposed_coeff_high s ra hne hi, decomposed_coeff_low s rd ra rb hi, ← highPart_eq, lowPart, ofNat_w32]
  exact ⟨rfl, rfl⟩

/-- Settles O38, by the laws of the two parts: a standard representative is far from the wrap. -/
theorem power2roundDecomposes : Obligations.Power2roundDecomposes := by
  intro rd ra rb s h hne hlegal hlt
  refine ⟨_, exec_power2round rd rb h, fun i hi => ?_⟩
  have hd := d_of_legal hlegal
  have hbound : s.val ra i < 2 ^ 32 - 2 ^ (s.cfg.d - 1) + 1 := by
    have := hlt i hi
    rcases hd with hd | hd <;> rw [hd] <;> omega
  rw [decomposed_val_high s ra hne hi, decomposed_val_low s rd ra rb hi]
  exact ⟨highPart_lt hd (hlt i hi), highPart_lowPart_of_lt hd hbound⟩

/-! ### The recomposition (R226) -/

/-- SHL of `rd`, ADD of `rb` and FREEZE leave the standard representative of `x[rd] · 2^D + x[rb]`, where that is below `2^32`. -/
theorem exec_shl_add_freeze {s : State} {rd rb : Slot} (rc : Slot) (hne : rd ≠ rb) (hrd : s.Readable rd) (hrb : s.Readable rb) :
    ∃ u v w, exec (.shl rd) s = .next u ∧ exec (.add rc rd rb) u = .next v ∧ exec (.freeze rc) v = .next w
      ∧ ∀ i < 256, s.val rd i * 2 ^ s.cfg.d + s.val rb i < 2 ^ 32 →
        w.val rc i = (s.val rd i * 2 ^ s.cfg.d + s.val rb i) % 8380417 := by
  refine ⟨_, _, _, exec_shl s hrd, exec_add _ rc (finish_readable _) (finish_readable_other _ hne.symm hrb),
    exec_freeze _ (finish_readable _), fun i hi hsum => ?_⟩
  rw [freeze_val _ rc hi, finish_val _ rc _ hi, finish_val s rd _ hi, finish_val_other _ hne.symm hi, addCoeff_eq, shlCoeff_eq,
    Nat.mod_mod, Nat.mod_mod, Nat.mod_add_mod, Nat.mod_eq_of_lt hsum]

/-- Settles O39: the parts recompose to `a + q`, whose standard representative is `a`. -/
theorem recompositionGivesTheSourceBack : Obligations.RecompositionGivesTheSourceBack := by
  intro rd ra rb rc s h hne hlegal hlt
  obtain ⟨u, v, w, hu, hv, hw, hval⟩ := exec_shl_add_freeze rc hne (decomposed_readable_high s ra hne)
    (decomposed_readable_low s rd ra rb)
  refine ⟨_, u, v, w, exec_power2round rd rb h, hu, hv, hw, fun i hi => ?_⟩
  have hsum : (s.decomposed rd ra rb).val rd i * 2 ^ s.cfg.d + (s.decomposed rd ra rb).val rb i = s.val ra i + 8380417 := by
    rw [decomposed_val_high s ra hne hi, decomposed_val_low s rd ra rb hi]
    exact (highPart_lowPart_of_lt (d_of_legal hlegal) (hlt i hi)).1
  refine ⟨hsum, fun hstd => ?_⟩
  have hfrozen := hval i hi
  rw [(decomposed_completes s rd ra rb).cfg, hsum] at hfrozen
  rw [hfrozen (by omega), Nat.add_mod_right, Nat.mod_eq_of_lt hstd]

end Sys2Proof.Machine
end

section
/-! PROOFS. One step of a sampler (spec/43_samplers.md R243, R248): what it does in each state of its session, and the two ways in which
the inner loop on a sampler that tracks its stream can end. -/

namespace Sys2Proof.Machine

/-! ### The three forms of a step -/

theorem exec_samplerInstr (k : SamplerKind) (rd : Slot) (s : State) : exec (samplerInstr rd k) s = runSampler k rd s := by
  cases k <;> rfl

theorem firstRequest_eq_initialBlocks (c : Config) (k : SamplerKind) : firstRequest c k = initialBlocks c k := by cases k <;> rfl

theorem blockLength_eq_blockBytes (c : Config) (k : SamplerKind) : blockLength c k = blockBytes c k := by cases k <;> rfl

section
variable {s : State} (k : SamplerKind) (rd : Slot)

theorem runSampler_of_closed (hs : s.session = none) : runSampler k rd s = .next (samplerStart k s) := by
  rw [runSampler, hs]

theorem runSampler_of_waiting {p : Session} {m : Sampler} {n : Nat} (hs : s.session = some p) (hm : s.sampler = some m)
    (hq : s.squeeze = some n) : runSampler k rd s = .next s := by
  rw [runSampler, hs, hm, hq]

theorem runSampler_of_delivered {p : Session} {m : Sampler} (hs : s.session = some p) (hm : s.sampler = some m)
    (hq : s.squeeze = none) : runSampler k rd s =
      if (consumeDelivered s k m).got.length = 256 then .next (samplerFinish k rd (consumeDelivered s k m) s)
      else .next (samplerRefill (consumeDelivered s k m) s) := by
  rw [runSampler, hs, hm, hq]

end

/-- The nonce is the low 16 bits of the latched ARG (R245). -/
theorem State.nonce_eq_mod (s : State) : s.nonce = BitVec.ofNat 16 (s.larg.toNat % 2 ^ 16) := by
  apply BitVec.eq_of_toNat_eq
  simp [State.nonce]

/-- Settles O53: the first step is `samplerStart`. -/
theorem samplerOpensItsSession : Obligations.SamplerOpensItsSession := by
  intro k rd s hs
  dsimp only
  rw [exec_samplerInstr, runSampler_of_closed k rd hs, firstRequest_eq_initialBlocks, ← s.nonce_eq_mod]
  simp only [samplerStart, State.openSession, State.setSampler, State.sendSqueeze, List.append_assoc, List.cons_append,
    List.nil_append]

/-- Settles O54: a step with a SQUEEZE outstanding answers the same state. -/
theorem samplerWaitsForData : Obligations.SamplerWaitsForData := by
  intro k rd s hs hm hq
  obtain ⟨p, hs⟩ := Option.isSome_iff_exists.mp hs
  obtain ⟨m, hm⟩ := Option.isSome_iff_exists.mp hm
  obtain ⟨n, hq⟩ := Option.isSome_iff_exists.mp hq
  rw [exec_samplerInstr, runSampler_of_waiting k rd hs hm hq]

/-! ### DATA (R242, R244) -/

theorem deliver_of_outstanding {s : State} {p : Session} {n : Nat} {m : Sampler} (hs : s.session = some p)
    (hq : s.squeeze = some n) (hm : s.sampler = some m) : deliver s = .next { s with
      squeeze := none
      sampler := some { m with avail := m.avail + n * blockBytes s.cfg p.kind }
      portLog := s.portLog ++ [.data (n * blockBytes s.cfg p.kind)] } := by
  rw [deliver, hs, hq, hm]

theorem deliver_of_unasked {s : State} (hq : s.squeeze = none) : deliver s = .fault .sourceProtocol := by
  rw [deliver, hq]
  cases s.session <;> rfl

/-- Settles O55: the four cases of `deliver` and `discardLate`. -/
theorem dataIsDeliveredOrDiscarded : Obligations.DataIsDeliveredOrDiscarded := by
  intro s
  refine ⟨fun p n m hs hq hm => ?_, deliver_of_unasked, fun n hn => ?_, fun hzero => ?_⟩
  · dsimp only
    rw [blockLength_eq_blockBytes]
    exact deliver_of_outstanding hs hq hm
  · rw [perform, discardLate, hn]
  · rw [perform, discardLate, hzero]

/-! ### How the inner loop ends -/

/-- The delivered bytes hold the `n` chunks that are needed: the inner loop consumes exactly those, the last one new, and has its 256
coefficients. -/
structure Fills (k : SamplerKind) (m : Sampler) (s : State) (n : Nat) : Prop where
  needed : ChunksNeeded s.cfg k (s.streamByte k s.nonce) n
  got : (consumeDelivered s k m).got = (streamCoeffs s.cfg k (s.streamByte k s.nonce) n).take 256
  pos : (consumeDelivered s k m).pos = chunkBytes k * n
  delivered : chunkBytes k * n ≤ m.avail
  last_new : m.pos + chunkBytes k ≤ chunkBytes k * n

/-- The delivered bytes hold `n` whole chunks, which are not enough: the inner loop consumes all of them and is short. -/
structure Starves (k : SamplerKind) (m : Sampler) (s : State) (n : Nat) : Prop where
  short : (streamCoeffs s.cfg k (s.streamByte k s.nonce) n).length < 256
  got : (consumeDelivered s k m).got = streamCoeffs s.cfg k (s.streamByte k s.nonce) n
  pos : (consumeDelivered s k m).pos = chunkBytes k * n
  delivered : chunkBytes k * n ≤ m.avail
  next_missing : m.avail < chunkBytes k * (n + 1)

section
variable {k : SamplerKind} {m : Sampler} {s : State} {n : Nat}

theorem lt_of_streamCoeffs_length_lt {c : Config} {src : Nat → Byte} {n' : Nat}
    (h : (streamCoeffs c k src n).length < (streamCoeffs c k src n').length) : n < n' :=
  not_le.mp fun hle => (streamCoeffs_length_mono c k src hle).not_gt h

theorem Tracks.fills_or_starves (h : Tracks k m s) : (∃ n, Fills k m s n) ∨ ∃ n, Starves k m s n := by
  obtain ⟨-, n, -, -, hpos, hle, hgot, hfewer, hend⟩ := consumeDelivered_eq k s m h
  by_cases hfull : 256 ≤ (streamCoeffs s.cfg k (s.streamByte k s.nonce) n).length
  · refine .inl ⟨n, ⟨hfull, hfewer⟩, hgot, hpos, hle, ?_⟩
    -- the chunks of `m.pos` accept fewer than 256, so they are fewer than `n`
    obtain ⟨i, hi, hgot'⟩ := h.chunks
    have hlt : i < n := lt_of_streamCoeffs_length_lt ((hgot' ▸ h.short).trans_le hfull)
    calc m.pos + chunkBytes k = chunkBytes k * (i + 1) := by rw [hi, chunkLength_eq, Nat.mul_succ]
      _ ≤ chunkBytes k * n := Nat.mul_le_mul_left _ hlt
  · have hshort := not_le.mp hfull
    exact .inr ⟨n, hshort, hgot.trans (List.take_of_length_le hshort.le), hpos, hle, hend.resolve_left hfull⟩

/-- The fewest chunks are one number. -/
theorem ChunksNeeded.unique {c : Config} {src : Nat → Byte} {n' : Nat} (h : ChunksNeeded c k src n)
    (h' : ChunksNeeded c k src n') : n = n' := by
  refine le_antisymm (not_lt.mp fun hlt => ?_) (not_lt.mp fun hlt => ?_)
  · exact (h.2 n' hlt).not_ge h'.1
  · exact (h'.2 n hlt).not_ge h.1

theorem Fills.length_got (h : Fills k m s n) : (consumeDelivered s k m).got.length = 256 := by
  rw [h.got, List.length_take, Nat.min_eq_left h.needed.1]

theorem Starves.length_got_lt (h : Starves k m s n) : (consumeDelivered s k m).got.length < 256 := by
  rw [h.got]
  exact h.short

/-- A short sampler has less than the chunks that are needed. -/
theorem Starves.avail_lt (h : Starves k m s n) {n' : Nat} (hneeded : ChunksNeeded s.cfg k (s.streamByte k s.nonce) n') :
    m.avail < chunkBytes k * n' := by
  have hlt : n < n' := lt_of_streamCoeffs_length_lt (h.short.trans_le hneeded.1)
  exact h.next_missing.trans_le (Nat.mul_le_mul_left _ hlt)

section
variable (rd : Slot) (htracks : Tracks k m s) (hm : s.sampler = some m) (hq : s.squeeze = none)
include htracks hm hq

theorem Fills.runSampler_eq (h : Fills k m s n) :
    runSampler k rd s = .next (samplerFinish k rd (consumeDelivered s k m) s) := by
  rw [runSampler_of_delivered k rd htracks.opened hm hq, if_pos h.length_got]

theorem Starves.runSampler_eq (h : Starves k m s n) :
    runSampler k rd s = .next (samplerRefill (consumeDelivered s k m) s) := by
  rw [runSampler_of_delivered k rd htracks.opened hm hq, if_neg h.length_got_lt.ne]

end

/-- The step that leaves RUNNING is the one that has its 256 coefficients. -/
theorem runSampler_completes {rd : Slot} {t : State} (htracks : Tracks k m s) (hm : s.sampler = some m)
    (hrunning : s.phase = .running) (ht : runSampler k rd s = .next t) (hidle : t.phase = .idle) :
    ∃ n, Fills k m s n ∧ t = samplerFinish k rd (consumeDelivered s k m) s := by
  have hstays (h : t.phase = s.phase) : False := by
    rw [hidle, hrunning] at h
    cases h
  cases hq : s.squeeze with
  | some b =>
    cases (runSampler_of_waiting k rd htracks.opened hm hq).symm.trans ht
    exact (hstays rfl).elim
  | none =>
    rcases htracks.fills_or_starves with ⟨n, hfills⟩ | ⟨n, hstarves⟩
    · cases (hfills.runSampler_eq rd htracks hm hq).symm.trans ht
      exact ⟨n, hfills, rfl⟩
    · cases (hstarves.runSampler_eq rd htracks hm hq).symm.trans ht
      exact (hstays rfl).elim

end

end Sys2Proof.Machine
end

section
/-! PROOFS. The sampler state agrees with its stream (`State.StreamInv`) step by step: what the port's messages do to it, and every
other move leaves it alone or closes the session. -/

namespace Sys2Proof.Machine

/-! ### The port's messages -/

section
variable {k : SamplerKind} {m : Sampler} {s : State} {n : Nat}

/-- A session just opened (R248). -/
theorem tracks_samplerStart (k : SamplerKind) (s : State) :
    Tracks k ⟨[], 0, 0, initialBlocks s.cfg k⟩ (samplerStart k s) where
  opened := rfl
  chunks := ⟨0, rfl, rfl⟩
  short := Nat.zero_lt_succ 255
  delivered := Nat.zero_add _
  within := le_rfl
  requested := le_rfl
  needed := .inl rfl

/-- DATA turns the outstanding blocks into delivered bytes (R242). -/
theorem Tracks.deliver (h : Tracks k m s) (hq : s.squeeze = some n) (msgs : List PortMsg) (ms : Option Sampler) :
    Tracks k { m with avail := m.avail + n * blockBytes s.cfg k } { s with squeeze := none, sampler := ms, portLog := msgs } :=
  { h with
    delivered := by simpa [hq] using h.delivered
    within := Nat.le_add_right_of_le h.within }

/-- A short sampler has used up the blocks it asked for, so the one it asks for now is needed (R248). -/
theorem Tracks.refill (h : Tracks k m s) (hq : s.squeeze = none) (hstarves : Starves k m s n) :
    Tracks k { consumeDelivered s k m with blk := m.blk + 1 } (samplerRefill (consumeDelivered s k m) s) := by
  have hdelivered : m.avail = m.blk * blockBytes s.cfg k := by simpa [hq] using h.delivered
  exact
    { opened := h.opened
      chunks := ⟨n, hstarves.pos.trans (by rw [chunkLength_eq]), hstarves.got⟩
      short := hstarves.length_got_lt
      delivered := by
        show m.avail + 1 * blockBytes s.cfg k = (m.blk + 1) * blockBytes s.cfg k
        rw [hdelivered, Nat.add_mul]
      within := hstarves.pos.trans_le hstarves.delivered
      requested := Nat.le_succ_of_le h.requested
      needed := .inr (by
        show m.blk * blockBytes s.cfg k < (consumeDelivered s k m).pos + chunkLength k
        rw [← hdelivered, hstarves.pos, chunkLength_eq, ← Nat.mul_succ]
        exact hstarves.next_missing) }

end

/-! ### The moves -/

section
variable {s t : State}

theorem State.StreamInv.of_session_none (h : t.session = none) : t.StreamInv := fun p m hp _ => by
  rw [h] at hp
  cases hp

/-- Where a session is open the sampler state tracks its stream, if one sampler state does. -/
theorem State.StreamInv.of_tracks {k : SamplerKind} {m : Sampler} (h : Tracks k m t) (hm : t.sampler = some m) :
    t.StreamInv := fun p m' hp hm' => by
  cases h.opened.symm.trans hp
  cases hm.symm.trans hm'
  exact h

/-- The agreement does not speak of the fields listed here. -/
theorem State.StreamInv.of_unmentioned (h : s.StreamInv) (ht : t = { s with
    slots := t.slots, buf := t.buf, cmd := t.cmd, arg := t.arg, busy := t.busy, done := t.done, err := t.err, norm := t.norm
    errcode := t.errcode, ieDone := t.ieDone, ieErr := t.ieErr, errinfo := t.errinfo, sampleBytes := t.sampleBytes
    sampleBlocks := t.sampleBlocks, lcmd := t.lcmd, phase := t.phase, abandoned := t.abandoned, agenda := t.agenda
    response := t.response, portLog := t.portLog, drawn := t.drawn }) : t.StreamInv := by
  rw [ht]
  exact fun p m hp hm => { h p m hp hm with }

theorem State.Inv.session_none_of_idle (h : s.Inv) (hp : s.phase = .idle) : s.session = none :=
  h.session_none_of_sampler_none (h.sampler_none_of_idle hp)

/-- A soft reset leaves no session (R382). -/
theorem State.Inv.softReset_session (h : s.Inv) : s.softReset.session = none := by
  rcases softReset_cases s with ⟨-, heq⟩ | ⟨hp, heq⟩ <;> rw [heq]
  · exact h.abortRunning_closed.1
  · exact h.session_none_of_idle hp

/-- LARG, which holds the nonce, changes only where no session is open (R340). -/
theorem submit_streamInv (hinv : s.Inv) (h : s.StreamInv) (w : Word) : (s.submit w).StreamInv := by
  rcases submit_cases s w with ⟨-, heq⟩ | ⟨-, e, -, heq⟩ | ⟨hbusy, i, -, heq⟩ <;> rw [heq]
  · exact h.of_unmentioned rfl
  · exact h.of_unmentioned rfl
  · exact .of_session_none (hinv.session_none_of_idle (hinv.idle_of_not_busy hbusy))

theorem writeRegister_streamInv (hinv : s.Inv) (h : s.StreamInv) (off : Nat) (v : Word) :
    (s.writeRegister off v).StreamInv := by
  rcases writeRegister_cases s off v with ⟨-, heq⟩ | ⟨-, heq⟩ | ⟨-, heq⟩ | ⟨-, -, heq⟩ | ⟨-, -, heq⟩ | heq <;> rw [heq]
  · exact submit_streamInv hinv h v
  · exact h.of_unmentioned rfl
  · rw [writeStatus_eq]
    exact h.of_unmentioned rfl
  · exact .of_session_none hinv.softReset_session
  · exact h.of_unmentioned rfl
  · exact h

theorem hostWrite_streamInv {width : AccessWidth} {off : BitVec 17} {v : Word} (hinv : s.Inv) (h : s.StreamInv)
    (ht : hostWrite width off v s = .next t) : t.StreamInv := by
  obtain ⟨u, hu, hcases⟩ := hostWrite_cases width off v s
  cases hu.symm.trans ht
  rcases hcases with ⟨e, w, -, rfl⟩ | ⟨-, -, rfl⟩ | rfl | ⟨-, o, -, -, rfl⟩ | ⟨-, key, -, rfl⟩
  · exact h.of_unmentioned rfl
  · exact (writeRegister_streamInv hinv h _ v).of_unmentioned rfl
  · exact h.of_unmentioned rfl
  · exact h.of_unmentioned rfl
  · exact h.of_unmentioned rfl

theorem hostRead_streamInv {width : AccessWidth} {off : BitVec 17} (h : s.StreamInv) (ht : hostRead width off s = .next t) :
    t.StreamInv := by
  rcases hostRead_cases ht with ⟨r, rfl⟩ | ⟨e, w, -, rfl⟩ | ⟨-, rfl⟩ <;> exact h.of_unmentioned rfl

theorem deliver_streamInv (h : s.StreamInv) (ht : deliver s = .next t) : t.StreamInv := by
  obtain ⟨p, n, m, hp, hq, hm, rfl⟩ := deliver_cases ht
  exact .of_tracks ((h p m hp hm).deliver hq _ _) rfl

/-- One step of the sampler command that runs. -/
theorem exec_sampler_streamInv {i : Instr} {k : SamplerKind} (hinv : s.Inv) (h : s.StreamInv)
    (hi : commandCheck s.cfg s.lcmd s.larg = .ok i) (hk : samplerKind i = some k) (ht : exec i s = .next t) :
    t.StreamInv := by
  obtain ⟨rd, -, hexec⟩ := exec_sampler s hk
  rw [hexec] at ht
  rcases runSampler_cases ht with ⟨-, rfl⟩ | ⟨_, _, _, -, -, -, rfl⟩ | ⟨_, _, -, -, -, -, rfl⟩ | ⟨p, m, hp, hm, hq, hl, rfl⟩
  · exact .of_tracks (tracks_samplerStart k s) rfl
  · exact h
  · exact .of_session_none rfl
  · have hkind : p.kind = k := by
      obtain ⟨-, -, j, hj, hjk⟩ := hinv.session_latched p hp
      cases hi.symm.trans hj
      exact (Option.some.inj (hk.symm.trans hjk)).symm
    have htracks : Tracks k m s := hkind ▸ h p m hp hm
    rcases htracks.fills_or_starves with ⟨n, hfills⟩ | ⟨n, hstarves⟩
    · exact absurd hfills.length_got hl
    · exact .of_tracks (htracks.refill hq hstarves) rfl

theorem engine_streamInv (hinv : s.Inv) (h : s.StreamInv) (ht : engine s = .next t) : t.StreamInv := by
  rcases engine_cases ht with ⟨-, rfl⟩ | ⟨hp, i, hi, hexec⟩ | ⟨hp, e, he, -⟩
  · exact h
  · cases hk : samplerKind i with
    | none =>
      rw [(exec_plain hk hexec).shape]
      exact h.of_unmentioned rfl
    | some k => exact exec_sampler_streamInv hinv h hi hk hexec
  · obtain ⟨i, hi⟩ := hinv.latched hp
    cases he.symm.trans hi

theorem perform_streamInv (m : Move) (hinv : s.Inv) (h : s.StreamInv) (ht : perform m s = .next t) : t.StreamInv := by
  cases m with
  | hostRead width off => exact hostRead_streamInv h ht
  | hostWrite width off v => exact hostWrite_streamInv hinv h ht
  | core => exact engine_streamInv hinv h ht
  | data => exact deliver_streamInv h ht
  | lateData =>
    obtain ⟨n, -, rfl⟩ := discardLate_cases ht
    exact h.of_unmentioned rfl
  | powerOn =>
    cases ht
    exact .of_session_none rfl

end

/-- Settles O8: the move at the head of the agenda, or the engine's, keeps the agreement. -/
theorem stepKeepsSamplerOnItsStream : Obligations.StepKeepsSamplerOnItsStream := by
  intro s t hinv h ht
  rcases step_eq s with ⟨-, heq⟩ | ⟨m, rest, -, heq⟩ <;> rw [heq] at ht
  · exact engine_streamInv hinv h ht
  · exact perform_streamInv m (hinv.of_unmentioned rfl) (h.of_unmentioned rfl) ht

end Sys2Proof.Machine
end

section
/-! PROOFS. What a sampler writes (spec/43_samplers.md R249 to R254, R263, R273, R276): the accepted coefficients of the fewest chunks of
its stream, the counts that these chunks give, and the range of each kind. -/

namespace Sys2Proof.Machine

/-! ### The step that completes and the step that asks -/

section
variable {k : SamplerKind} {m : Sampler} {s : State} {n : Nat}

theorem samplerFinish_coeff (k : SamplerKind) (rd : Slot) (s : State) (hl : m.got.length = 256) {i : Nat} (hi : i < 256) :
    (samplerFinish k rd m s).coeff rd i = m.got[i]? := by
  have hlen : i < (m.got.map BitVec.toNat).length := by rwa [List.length_map, hl]
  have hi' : i < m.got.length := by rwa [hl]
  refine (s.setPoly_coeff_same rd _ i hlen).trans ?_
  rw [List.getElem_map, BitVec.ofNat_toNat, BitVec.setWidth_eq, List.getElem?_eq_getElem hi']

theorem samplerFinish_slotsSameBut (k : SamplerKind) (rd : Slot) (s : State) (hl : m.got.length = 256) :
    SlotsSameBut [rd] s (samplerFinish k rd m s) :=
  s.setPoly_slotsSameBut rd _ (by rw [List.length_map, hl])

theorem Fills.coeff (h : Fills k m s n) (rd : Slot) {i : Nat} (hi : i < 256) :
    (samplerFinish k rd (consumeDelivered s k m) s).coeff rd i = (streamCoeffs s.cfg k (s.streamByte k s.nonce) n)[i]? := by
  rw [samplerFinish_coeff k rd s h.length_got hi, h.got, List.getElem?_take_of_lt hi]

theorem Fills.sampleBytes (h : Fills k m s n) (rd : Slot) :
    (samplerFinish k rd (consumeDelivered s k m) s).sampleBytes
      = countWord (Config.freeBytesCount k s.nonce) (chunkBytes k * n) := by
  rw [← h.pos]
  rfl

theorem samplerFinish_sampleBlocks (k : SamplerKind) (rd : Slot) (m : Sampler) (s : State) :
    (samplerFinish k rd (consumeDelivered s k m) s).sampleBlocks = countWord (Config.freeBlocksCount k s.nonce) m.blk := rfl

end

/-- Settles O56: with the needed chunks delivered the inner loop ends filled, on that number of chunks. -/
theorem samplerCompletesAsIfFullyBuffered : Obligations.SamplerCompletesAsIfFullyBuffered := by
  intro k rd s m n hm hq htracks hneeded havail
  rw [chunkLength_eq] at havail ⊢
  obtain ⟨n', hfills⟩ : ∃ n', Fills k m s n' :=
    htracks.fills_or_starves.resolve_right fun ⟨_, hstarves⟩ => (hstarves.avail_lt hneeded).not_ge havail
  obtain rfl := hneeded.unique hfills.needed
  refine ⟨_, (exec_samplerInstr k rd s).trans (hfills.runSampler_eq rd htracks hm hq), rfl, rfl, rfl, rfl,
    fun i hi => hfills.coeff rd hi, fun hlt => ?_, countWord_of_lt _, rfl, rfl, rfl, rfl,
    samplerFinish_slotsSameBut k rd s hfills.length_got, fun _ => rfl, rfl, rfl, rfl, rfl, rfl, rfl, rfl, rfl, rfl, rfl, ?_,
    rfl, rfl, rfl, rfl⟩
  · rw [hfills.sampleBytes, countWord_of_lt _ hlt]
  · show s.abandoned + (if s.squeeze.isSome then 1 else 0) = s.abandoned
    rw [hq]
    rfl

/-- Settles O57: without the needed chunks the inner loop cannot end filled. -/
theorem shortSamplerAsksForOneBlock : Obligations.ShortSamplerAsksForOneBlock := by
  intro k rd s m hm hq htracks hshort
  obtain ⟨n, hstarves⟩ : ∃ n, Starves k m s n := htracks.fills_or_starves.resolve_left fun ⟨n, hfills⟩ => by
    have hlt := hshort n hfills.needed
    rw [chunkLength_eq] at hlt
    exact hlt.not_ge hfills.delivered
  exact ⟨_, _, (exec_samplerInstr k rd s).trans (hstarves.runSampler_eq rd htracks hm hq), rfl, rfl, rfl, rfl, rfl,
    htracks.refill hq hstarves, rfl, rfl, rfl, rfl, rfl, rfl, rfl, rfl, rfl, rfl, rfl, rfl, rfl, rfl, rfl, rfl, rfl, rfl, rfl,
    rfl, rfl, rfl, rfl, rfl⟩

/-! ### The counts (R250, R251) -/

theorem blockBytes_pos {c : Config} (h : c.legal = true) (k : SamplerKind) : 0 < blockBytes c k := by
  simp only [Config.legal, Bool.and_eq_true, decide_eq_true_eq] at h
  cases k <;> simp only [blockBytes] <;> omega

/-- A block beyond the first request was needed for the last chunk, so the blocks requested are the fewest that hold the bytes
consumed, or the first request. -/
theorem Fills.blk_eq {k : SamplerKind} {m : Sampler} {s : State} {n : Nat} (h : Fills k m s n) (htracks : Tracks k m s)
    (hq : s.squeeze = none) (hpos : 0 < blockBytes s.cfg k) :
    m.blk = max (initialBlocks s.cfg k) ((chunkBytes k * n + blockBytes s.cfg k - 1) / blockBytes s.cfg k) := by
  have henough : chunkBytes k * n ≤ m.blk * blockBytes s.cfg k := by
    have hdelivered : m.avail = m.blk * blockBytes s.cfg k := by simpa [hq] using htracks.delivered
    exact hdelivered ▸ h.delivered
  have hceil_le : (chunkBytes k * n + blockBytes s.cfg k - 1) / blockBytes s.cfg k ≤ m.blk := by
    rw [Nat.div_le_iff_le_mul_add_pred hpos, Nat.mul_comm (blockBytes s.cfg k) m.blk]
    omega
  rcases htracks.needed with hfirst | hmore
  · rw [← hfirst, max_eq_left hceil_le]
  · have hle_ceil : m.blk ≤ (chunkBytes k * n + blockBytes s.cfg k - 1) / blockBytes s.cfg k := by
      rw [Nat.le_div_iff_mul_le hpos]
      have hlast := h.last_new
      rw [chunkLength_eq, Nat.sub_mul, Nat.one_mul] at hmore
      omega
    have hceil := le_antisymm hle_ceil hceil_le
    rw [← hceil, max_eq_right htracks.requested]

theorem streamByte_eq_of_streams_eq {s s' : State} (h : s.streams = s'.streams) : s.streamByte = s'.streamByte := by
  unfold State.streamByte State.knownBytes
  rw [h]

/-- Settles O58: both runs end filled on the same number of chunks, which gives the coefficients and both counts. -/
theorem samplerResultDependsOnTheStreamAlone : Obligations.SamplerResultDependsOnTheStreamAlone := by
  intro k rd rd' s s' t t' m m' hcfg hlegal hstreams hnonce hm hm' hq hq' htracks htracks' ht ht' hidle hidle' hrunning hrunning'
  rw [exec_samplerInstr] at ht ht'
  obtain ⟨n, hfills, rfl⟩ := runSampler_completes htracks hm hrunning ht hidle
  obtain ⟨n', hfills', rfl⟩ := runSampler_completes htracks' hm' hrunning' ht' hidle'
  have hsrc : s.streamByte k s.nonce = s'.streamByte k s'.nonce := by rw [streamByte_eq_of_streams_eq hstreams, hnonce]
  have hneeded' := hfills'.needed
  rw [← hcfg, ← hsrc] at hneeded'
  obtain rfl := hfills.needed.unique hneeded'
  have hpos := blockBytes_pos hlegal k
  have hblk := hfills.blk_eq htracks hq hpos
  have hblk' := hfills'.blk_eq htracks' hq' (hcfg ▸ hpos)
  rw [← hcfg, ← hblk] at hblk'
  refine ⟨fun i hi => ?_, ?_, ?_, fun havail hlt => ?_⟩
  · rw [hfills.coeff rd hi, hfills'.coeff rd' hi, ← hcfg, ← hsrc]
  · rw [hfills.sampleBytes, hfills'.sampleBytes, hnonce]
  · rw [samplerFinish_sampleBlocks, samplerFinish_sampleBlocks, hnonce, hblk']
  · have hbytes := hfills.delivered.trans_lt havail
    rw [samplerFinish_sampleBlocks, hfills.sampleBytes, countWord_of_lt _ hlt, countWord_of_lt _ hbytes, BitVec.toNat_ofNat,
      BitVec.toNat_ofNat, Nat.mod_eq_of_lt hlt, Nat.mod_eq_of_lt hbytes, firstRequest_eq_initialBlocks,
      blockLength_eq_blockBytes]
    exact hblk

/-! ### The ranges (R254, R263, R273) -/

/-- The values of a kind's coefficients. -/
def InRange (c : Config) (k : SamplerKind) (v : Nat) : Prop :=
  match k with
  | .U => v < 8380417
  | .E => 8380417 ≤ v + c.eta ∧ v ≤ 8380417 + c.eta
  | .G => 8380417 + 1 ≤ v + c.gamma1 ∧ v + 1 ≤ 8380417 + c.gamma1

/-- The output of an accepted field, which the Q-bias keeps from going below 0 and the legal builds from wrapping. -/
theorem inRange_outField {c : Config} (h : c.legal = true) {k : SamplerKind} {t : Nat} (ht : acceptField c k t = true) :
    InRange c k (outField c k t) ∧ outField c k t < 2 ^ 32 := by
  simp only [Config.legal, Bool.and_eq_true, decide_eq_true_eq] at h
  cases k with
  | U =>
    have hlt : t < q := of_decide_eq_true ht
    exact ⟨hlt, hlt.trans (by decide)⟩
  | E =>
    have hle : t ≤ 2 * c.eta := of_decide_eq_true ht
    simp only [InRange, outField, q]
    omega
  | G =>
    have hle : t ≤ 2 * c.gamma1 - 2 := of_decide_eq_true ht
    simp only [InRange, outField, q]
    omega

theorem inRange_of_streamValue {c : Config} (h : c.legal = true) {k : SamplerKind} {t : Nat} {w : Word}
    (hw : streamValue c k t = some w) : InRange c k w.toNat := by
  rw [streamValue_eq, Option.ite_none_right_eq_some] at hw
  obtain ⟨haccepted, hw⟩ := hw
  obtain ⟨hrange, hlt⟩ := inRange_outField h haccepted
  rw [← Option.some.inj hw, BitVec.toNat_ofNat, Nat.mod_eq_of_lt hlt]
  exact hrange

theorem inRange_of_mem_streamCoeffs {c : Config} (h : c.legal = true) {k : SamplerKind} {src : Nat → Byte} {n : Nat} {w : Word}
    (hw : w ∈ streamCoeffs c k src n) : InRange c k w.toNat := by
  obtain ⟨j, -, hj⟩ := List.mem_flatMap.mp hw
  obtain ⟨t, -, ht⟩ := List.mem_filterMap.mp hj
  exact inRange_of_streamValue h ht

/-- Settles O59: each coefficient written is one that the stream gives. -/
theorem sampledCoefficientsAreInRange : Obligations.SampledCoefficientsAreInRange := by
  intro k rd s t m hlegal hm htracks hrunning ht hidle
  rw [exec_samplerInstr] at ht
  obtain ⟨n, hfills, rfl⟩ := runSampler_completes htracks hm hrunning ht hidle
  have hcoeff {i : Nat} (hi : i < 256) : ∃ w ∈ streamCoeffs s.cfg k (s.streamByte k s.nonce) n,
      (samplerFinish k rd (consumeDelivered s k m) s).coeff rd i = some w := by
    have hlen := hi.trans_le hfills.needed.1
    exact ⟨_, List.getElem_mem hlen, (hfills.coeff rd hi).trans (List.getElem?_eq_getElem hlen)⟩
  have hrange : ∀ i < 256, InRange s.cfg k ((samplerFinish k rd (consumeDelivered s k m) s).val rd i) := fun i hi => by
    obtain ⟨w, hw, heq⟩ := hcoeff hi
    rw [State.val, heq]
    exact inRange_of_mem_streamCoeffs hlegal hw
  refine ⟨fun i hi => ?_, by cases k <;> exact hrange⟩
  obtain ⟨w, -, heq⟩ := hcoeff hi
  rw [heq, Option.isSome_some]

end Sys2Proof.Machine
end

section
/-! PROOFS. The packers (spec/44_packing.md): a bit string is read by fields and joined from fields, the two are inverse, and PACK and
UNPACK are a join and a split of one such string with the field formulas of the roles (R290 to R298). -/

namespace Sys2Proof.Machine

/-! ### Fields of a bit string (R290) -/

/-- Field `i` of the bit string `v`: bits `i·w` to `i·w + w − 1`. -/
def fieldAt (w v i : Nat) : Nat := v / 2 ^ (i * w) % 2 ^ w

/-- The bit string of the `n` fields `g 0`, `g 1`, … of `w` bits. -/
def bitString (w n : Nat) (g : Nat → Nat) : Nat := joinFields w ((List.range n).map g)

theorem splitFields_eq_map_fieldAt (w n v : Nat) : splitFields w n v = (List.range n).map (fieldAt w v) := rfl

theorem joinFields_eq_ofDigits (w : Nat) (fs : List Nat) : joinFields w fs = Nat.ofDigits (2 ^ w) fs := by
  induction fs with
  | nil => rfl
  | cons f fs ih => rw [joinFields, Nat.ofDigits_cons, ih]

theorem fieldAt_lt (w v i : Nat) : fieldAt w v i < 2 ^ w := Nat.mod_lt _ (Nat.two_pow_pos w)

theorem testBit_fieldAt {w b : Nat} (v i : Nat) (hb : b < w) : (fieldAt w v i).testBit b = v.testBit (i * w + b) := by
  simp [fieldAt, Nat.testBit_mod_two_pow, Nat.testBit_div_two_pow, hb, Nat.add_comm]

theorem fieldAt_zero (w v : Nat) : fieldAt w v 0 = v % 2 ^ w := by simp [fieldAt]

theorem fieldAt_succ (w v i : Nat) : fieldAt w v (i + 1) = fieldAt w (v / 2 ^ w) i := by
  rw [fieldAt, fieldAt, Nat.div_div_eq_div_mul, ← Nat.pow_add, Nat.succ_mul, Nat.add_comm w]

theorem bitString_succ (w n : Nat) (g : Nat → Nat) :
    bitString w (n + 1) g = g 0 + 2 ^ w * bitString w n fun i => g (i + 1) := by
  simp [bitString, List.range_succ_eq_map, joinFields, Function.comp_def]

theorem bitString_congr {w n : Nat} {g h : Nat → Nat} (heq : ∀ i < n, g i = h i) : bitString w n g = bitString w n h := by
  rw [bitString, bitString, List.map_congr_left fun i hi => heq i (List.mem_range.mp hi)]

theorem bitString_lt {w n : Nat} {g : Nat → Nat} (hg : ∀ i < n, g i < 2 ^ w) (hw : 0 < w) : bitString w n g < 2 ^ (n * w) := by
  have hdigit : ∀ f ∈ (List.range n).map g, f < 2 ^ w := by simpa using hg
  have hlt := Nat.ofDigits_lt_base_pow_length (Nat.one_lt_two_pow hw.ne') hdigit
  rwa [← joinFields_eq_ofDigits, List.length_map, List.length_range, ← Nat.pow_mul, Nat.mul_comm] at hlt

/-- Splitting undoes joining. -/
theorem fieldAt_bitString {w n : Nat} {g : Nat → Nat} (hg : ∀ i < n, g i < 2 ^ w) {i : Nat} (hi : i < n) :
    fieldAt w (bitString w n g) i = g i := by
  induction n generalizing g i with
  | zero => omega
  | succ n ih =>
    have hfirst := hg 0 (by omega)
    rw [bitString_succ]
    cases i with
    | zero => rw [fieldAt_zero, Nat.add_mul_mod_self_left, Nat.mod_eq_of_lt hfirst]
    | succ i =>
      rw [fieldAt_succ, Nat.add_mul_div_left _ _ (Nat.two_pow_pos w), Nat.div_eq_of_lt hfirst, Nat.zero_add]
      exact ih (fun j hj => hg (j + 1) (by omega)) (by omega)

/-- Joining undoes splitting, on what the fields cover. -/
theorem bitString_fieldAt (w n v : Nat) : bitString w n (fieldAt w v) = v % 2 ^ (n * w) := by
  induction n generalizing v with
  | zero => simp [bitString, joinFields, Nat.mod_one]
  | succ n ih =>
    simp only [bitString_succ, fieldAt_zero, fieldAt_succ, ih]
    rw [Nat.succ_mul, Nat.add_comm, Nat.add_comm _ w, Nat.pow_add, Nat.mod_mul, Nat.add_comm]

/-! ### The bytes of BUF as a bit string -/

/-- The bit string of the `n` bytes of BUF from `off` on. -/
def State.bufString (s : State) (off n : Nat) : Nat := bitString 8 n fun j => s.byteVal (off + j)

section
variable (s : State)

theorem byteVal_lt (o : Nat) : s.byteVal o < 2 ^ 8 := by
  unfold State.byteVal
  cases s.bufByte o with
  | none => simp
  | some v => simpa using v.isLt

theorem bufString_lt (off n : Nat) : s.bufString off n < 2 ^ (n * 8) :=
  bitString_lt (fun _ _ => byteVal_lt s _) (by decide)

theorem fieldAt_bufString (off : Nat) {n j : Nat} (hj : j < n) : fieldAt 8 (s.bufString off n) j = s.byteVal (off + j) :=
  fieldAt_bitString (fun _ _ => byteVal_lt s _) hj

/-- R290: the bits of the bytes are the bits of the bit string. -/
theorem bufBit_eq_testBit (off : Nat) {n m : Nat} (hm : m < n * 8) : bufBit s off m = (s.bufString off n).testBit m := by
  have hbyte : m / 8 < n := Nat.div_lt_of_lt_mul (hm.trans_eq (Nat.mul_comm n 8))
  rw [bufBit, ← fieldAt_bufString s off hbyte, testBit_fieldAt _ _ (Nat.mod_lt m (by decide)), Nat.div_add_mod']

/-- A written byte is a field of the bit string. -/
theorem bufByte_eq_fieldAt {off n : Nat} (h : s.BytesReadable off n) {j : Nat} (hj : j < n) :
    s.bufByte (off + j) = some (BitVec.ofNat 8 (fieldAt 8 (s.bufString off n) j)) := by
  obtain ⟨v, hv⟩ := Option.isSome_iff_exists.mp (h j hj)
  simp [fieldAt_bufString s off hj, State.byteVal, hv]

end

/-! ### The field formulas of the roles (R291 to R293) -/

theorem centered_eq_centeredRep (x : Nat) : centered x = centeredRep x := rfl

theorem centered_emod (x : Nat) : centered x % 8380417 = (x % 8380417 : Nat) := by
  rw [centered_eq_centeredRep, centeredRep]
  split <;> omega

theorem centered_toNat_emod {z : Int} (hlow : -4190208 ≤ z) (hhigh : z ≤ 4190208) : centered (z % q).toNat = z := by
  rw [centered_eq_centeredRep, centeredRep]
  simp only [q]
  split <;> omega

theorem packField_lt (c : Config) (r : Role) (x : Nat) : packField c r x < 2 ^ packedWidth c r := by
  have hpos := Nat.two_pow_pos (packedWidth c r)
  rw [packField, roleWidth_eq_packedWidth]
  split
  · have := Int.emod_lt_of_pos ((roleOffset c r : Int) - centered x) (Int.natCast_pos.mpr hpos)
    omega
  · exact Nat.mod_lt _ hpos

section
variable {c : Config} (h : c.legal = true) (r : Role)
include h

theorem gamma1_pos_of_legal : 1 ≤ c.gamma1 := by
  simp only [Config.legal, Bool.and_eq_true, decide_eq_true_eq] at h
  omega

/-- The statements' fields in the machine's terms: a biased and a straight form. -/
theorem fieldOf_eq (x : Nat) :
    fieldOf c r x = if roleBiased r then (roleOffset c r : Int) - centered x else (x % 8380417 : Nat) := by
  have hgamma1 := gamma1_pos_of_legal h
  cases r <;> simp [fieldOf, roleBiased, roleOffset, centered_eq_centeredRep, hgamma1]

theorem valueOf_eq (f : Nat) : valueOf c r f = if roleBiased r then ((roleOffset c r : Int) - f) % 8380417 else f := by
  have hgamma1 := gamma1_pos_of_legal h
  cases r <;> simp [valueOf, roleBiased, roleOffset, hgamma1]

theorem packField_eq (x : Nat) : packField c r x = (fieldOf c r x % (2 ^ packedWidth c r : Nat)).toNat := by
  rw [packField, fieldOf_eq h, roleWidth_eq_packedWidth]
  split
  · rfl
  · rw [← Int.natCast_mod, Int.toNat_natCast]

theorem unpackValue_eq (f : Nat) : (unpackValue c r f : Int) = valueOf c r f := by
  rw [unpackValue, valueOf_eq h]
  split
  · exact Int.toNat_of_nonneg (Int.emod_nonneg _ (by decide))
  · rfl

/-- The fields of every role have 20 bits at most. -/
theorem packedWidth_bounds : 0 < packedWidth c r ∧ packedWidth c r ≤ 20 := by
  have hd := d_of_legal h
  simp only [Config.legal, Bool.and_eq_true, Bool.or_eq_true, beq_iff_eq] at h
  cases r with
  | eta => simp only [packedWidth]; split <;> omega
  | t0 | t1 | z | w1 => simp only [packedWidth]; omega

theorem roleOffset_le : roleOffset c r ≤ 2 ^ 19 := by
  have hd := d_of_legal h
  simp only [Config.legal, Bool.and_eq_true, decide_eq_true_eq] at h
  cases r with
  | t0 => exact Nat.pow_le_pow_right (by decide) (by omega)
  | eta | t1 | z | w1 => simp only [roleOffset]; omega

theorem field_lt_two_pow_20 {f : Nat} (hf : f < 2 ^ packedWidth c r) : f < 2 ^ 20 :=
  hf.trans_le (Nat.pow_le_pow_right (by decide) (packedWidth_bounds h r).2)

theorem unpackValue_lt {f : Nat} (hf : f < 2 ^ packedWidth c r) : unpackValue c r f < 2 ^ 32 := by
  have hlt := field_lt_two_pow_20 h r hf
  rw [unpackValue]
  simp only [q]
  split <;> omega

/-- R294 for one valid coefficient: the field is not reduced, and `OFF − (OFF − centered x)` is `x` modulo q. -/
theorem unpackValue_packField {x : Nat} (hnonneg : 0 ≤ fieldOf c r x) (hlt : fieldOf c r x < (2 ^ packedWidth c r : Nat)) :
    unpackValue c r (packField c r x) = x % 8380417 := by
  have hfield : (packField c r x : Int) = fieldOf c r x := by
    rw [packField_eq h, Int.emod_eq_of_lt hnonneg hlt, Int.toNat_of_nonneg hnonneg]
  have hvalue := unpackValue_eq h r (packField c r x)
  rw [valueOf_eq h, hfield, fieldOf_eq h] at hvalue
  split at hvalue
  · rw [sub_sub_cancel, centered_emod] at hvalue
    exact Int.ofNat_inj.mp hvalue
  · exact Int.ofNat_inj.mp hvalue

/-- R294 for one field: `OFF − f` is its own centered representative, and a straight field is below q. -/
theorem packField_unpackValue {f : Nat} (hf : f < 2 ^ packedWidth c r) : packField c r (unpackValue c r f) = f := by
  have hlt := field_lt_two_pow_20 h r hf
  have hoff := roleOffset_le h r
  have hfield : fieldOf c r (unpackValue c r f) = f := by
    rw [fieldOf_eq h, unpackValue]
    split
    · have hcentered : centered (((roleOffset c r : Int) - f) % q).toNat = roleOffset c r - f :=
        centered_toNat_emod (by omega) (by omega)
      rw [hcentered, sub_sub_cancel]
    · rw [Nat.mod_eq_of_lt (by omega)]
  rw [packField_eq h, hfield, ← Int.natCast_mod, Int.toNat_natCast, Nat.mod_eq_of_lt hf]

end

/-! ### PACK (R297) -/

/-- The packed string of slot `k`. -/
def State.packedString (s : State) (r : Role) (k : Slot) : Nat :=
  bitString (packedWidth s.cfg r) 256 fun i => packField s.cfg r (s.val k i)

/-- The bytes of the packed string. -/
def State.packedBytes (s : State) (r : Role) (k : Slot) : List Byte :=
  (List.range (packedSize s.cfg r)).map fun j => BitVec.ofNat 8 (fieldAt 8 (s.packedString r k) j)

/-- Completion with the packed bytes of slot `k` in BUF. -/
def State.packed (s : State) (r : Role) (k : Slot) : State := (s.setBytes s.larg.toNat (s.packedBytes r k)).complete

/-- R290: the fields fill the bytes. -/
theorem packedSize_mul_eight (c : Config) (r : Role) : packedSize c r * 8 = 256 * packedWidth c r := by
  rw [packedSize]
  omega

theorem fieldAt_packedString (s : State) (r : Role) (k : Slot) {i : Nat} (hi : i < 256) :
    fieldAt (packedWidth s.cfg r) (s.packedString r k) i = packField s.cfg r (s.val k i) :=
  fieldAt_bitString (fun _ _ => packField_lt _ _ _) hi

theorem length_packedBytes (s : State) (r : Role) (k : Slot) : (s.packedBytes r k).length = packedSize s.cfg r := by
  simp [State.packedBytes]

theorem packPoly_vals (s : State) (r : Role) (k : Slot) : packPoly s.cfg r (s.vals k) = s.packedBytes r k := by
  rw [packPoly, splitFields_eq_map_fieldAt, roleSize_eq_packedSize, roleWidth_eq_packedWidth, State.vals, List.map_map,
    List.map_map]
  rfl

section
variable {s : State} (r : Role) {k : Slot}

theorem exec_pack (h : s.Readable k) : exec (packInstr k r) s = .next (s.packed r k) := by
  rw [exec_packInstr, pack, State.withPoly_of_poly_eq_some (poly_eq_vals s h), packPoly_vals]
  rfl

theorem packed_completes : Completes s.norm s (s.packed r k) := ⟨by constructor <;> rfl, rfl, rfl, rfl, rfl⟩

theorem packed_bufSameBut : BufSameBut s.larg.toNat (packedSize s.cfg r) s (s.packed r k) := by
  have hframe := s.setBytes_bufSameBut s.larg.toNat (s.packedBytes r k)
  rwa [length_packedBytes] at hframe

theorem packed_bufByte {j : Nat} (hj : j < packedSize s.cfg r) :
    (s.packed r k).bufByte (s.larg.toNat + j) = some (BitVec.ofNat 8 (fieldAt 8 (s.packedString r k) j)) := by
  have hlen : j < (s.packedBytes r k).length := hj.trans_eq (length_packedBytes s r k).symm
  rw [State.packed, State.complete_bufByte, State.setBytes_bufByte_inside _ _ _ _ hlen]
  simp [State.packedBytes]

theorem packed_bytesReadable : (s.packed r k).BytesReadable s.larg.toNat (packedSize s.cfg r) := fun j hj => by
  rw [packed_bufByte r hj, Option.isSome_some]

variable (hlegal : s.cfg.legal = true)
include hlegal

/-- BUF then holds the packed string. -/
theorem packed_bufString : (s.packed r k).bufString s.larg.toNat (packedSize s.cfg r) = s.packedString r k := by
  have hbyte : ∀ j < packedSize s.cfg r, (s.packed r k).byteVal (s.larg.toNat + j) = fieldAt 8 (s.packedString r k) j :=
    fun j hj => by
      rw [State.byteVal, packed_bufByte r hj, Option.map_some, Option.getD_some, BitVec.toNat_ofNat,
        Nat.mod_eq_of_lt (fieldAt_lt 8 _ j)]
  have hlt : s.packedString r k < 2 ^ (256 * packedWidth s.cfg r) :=
    bitString_lt (fun _ _ => packField_lt _ _ _) (packedWidth_bounds hlegal r).1
  rw [State.bufString, bitString_congr hbyte, bitString_fieldAt, packedSize_mul_eight, Nat.mod_eq_of_lt hlt]

end

/-- Bit `b` of field `i` lies within the string. -/
theorem bit_index_lt (c : Config) (r : Role) {i b : Nat} (hi : i < 256) (hb : b < packedWidth c r) :
    i * packedWidth c r + b < packedSize c r * 8 := by
  rw [packedSize_mul_eight]
  have hle := Nat.mul_le_mul_right (packedWidth c r) (show i + 1 ≤ 256 from hi)
  rw [Nat.succ_mul] at hle
  omega

/-- Settles O50: BUF holds the packed string, whose fields are those of the role. -/
theorem packWritesTheBitString : Obligations.PackWritesTheBitString := by
  intro r ra s h hlegal
  refine ⟨_, exec_pack r h, packed_completes r, fun _ _ _ _ => rfl, packed_bufSameBut r, packed_bytesReadable r,
    fun i hi b hb => ?_⟩
  rw [bufBit_eq_testBit _ _ (bit_index_lt s.cfg r hi hb), packed_bufString r hlegal, ← testBit_fieldAt _ _ hb,
    fieldAt_packedString s r ra hi, packField_eq hlegal]

/-! ### UNPACK (R298) -/

/-- Field `i` of the packed bytes that the latched ARG points to. -/
def State.bufField (s : State) (r : Role) (i : Nat) : Nat :=
  fieldAt (packedWidth s.cfg r) (s.bufString s.larg.toNat (packedSize s.cfg r)) i

theorem bufField_lt (s : State) (r : Role) (i : Nat) : s.bufField r i < 2 ^ packedWidth s.cfg r := fieldAt_lt _ _ _

/-- Completion with the values of the packed bytes in slot `k`. -/
def State.unpacked (s : State) (r : Role) (k : Slot) : State := s.finish k fun i => unpackValue s.cfg r (s.bufField r i)

theorem exec_unpack {s : State} (r : Role) (k : Slot) (h : s.BytesReadable s.larg.toNat (packedSize s.cfg r)) :
    exec (unpackInstr k r) s = .next (s.unpacked r k) := by
  rw [exec_unpackInstr, unpack, roleSize_eq_packedSize]
  obtain ⟨bs, hrun, hlen, hval⟩ := s.withBytes_of_readable _ _
    (fun bs => .next (s.setPoly k (unpackBytes s.cfg r bs)).complete) h
  have hbytes : bs.map BitVec.toNat = (List.range (packedSize s.cfg r)).map fun j => s.byteVal (s.larg.toNat + j) :=
    List.ext_getElem (by simp [hlen]) fun j hj _ => by simpa using hval j (by simpa using hj)
  refine hrun.trans ?_
  rw [unpackBytes, splitFields_eq_map_fieldAt, roleWidth_eq_packedWidth, hbytes, List.map_map]
  rfl

/-- Settles O51: the fields are those of the bytes' bit string. -/
theorem unpackReadsTheBitString : Obligations.UnpackReadsTheBitString := by
  intro r rd s h hlegal
  refine ⟨_, exec_unpack r rd h, finish_completes s rd _, finish_slotsSameBut s rd _, finish_bufSame s rd _,
    fun i hi => ⟨s.bufField r i, bufField_lt s r i, fun b hb => ?_, ?_⟩⟩
  · rw [bufBit_eq_testBit _ _ (bit_index_lt s.cfg r hi hb), State.bufField, testBit_fieldAt _ _ hb]
  · rw [State.unpacked, finish_coeff s rd _ hi, ← unpackValue_eq hlegal, BitVec.ofInt_natCast]

/-! ### The round trips (R294) -/

section
variable {s : State} (r : Role) (k : Slot) (hlegal : s.cfg.legal = true)
include hlegal

theorem unpacked_val {i : Nat} (hi : i < 256) : (s.unpacked r k).val k i = unpackValue s.cfg r (s.bufField r i) :=
  finish_val_of_lt s k _ hi (unpackValue_lt hlegal r (bufField_lt s r i))

theorem packed_bufField {i : Nat} (hi : i < 256) : (s.packed r k).bufField r i = packField s.cfg r (s.val k i) :=
  (congrArg (fieldAt _ · i) (packed_bufString r hlegal)).trans (fieldAt_packedString s r k hi)

/-- Packing what was unpacked joins the fields that the bytes were split into. -/
theorem unpacked_packedString :
    (s.unpacked r k).packedString r k = s.bufString s.larg.toNat (packedSize s.cfg r) := by
  have hfield : ∀ i < 256, packField s.cfg r ((s.unpacked r k).val k i) = s.bufField r i := fun i hi => by
    rw [unpacked_val r k hlegal hi, packField_unpackValue hlegal r (bufField_lt s r i)]
  have hlt := bufString_lt s s.larg.toNat (packedSize s.cfg r)
  rw [packedSize_mul_eight] at hlt
  calc (s.unpacked r k).packedString r k
      = bitString (packedWidth s.cfg r) 256 (s.bufField r) := bitString_congr hfield
    _ = s.bufString s.larg.toNat (packedSize s.cfg r) % 2 ^ (256 * packedWidth s.cfg r) := bitString_fieldAt _ _ _
    _ = s.bufString s.larg.toNat (packedSize s.cfg r) := Nat.mod_eq_of_lt hlt

end

/-- Settles O52: both round trips come down to one field, on the bit string that lies between. -/
theorem packAndUnpackAreInverse : Obligations.PackAndUnpackAreInverse := by
  intro r ra rd s hlegal
  constructor
  · intro h hvalid
    refine ⟨_, _, exec_pack r h, exec_unpack r rd (packed_bytesReadable r), fun i hi => ?_⟩
    obtain ⟨hnonneg, hlt⟩ := hvalid i hi
    calc ((s.packed r ra).unpacked r rd).val rd i
        = unpackValue s.cfg r ((s.packed r ra).bufField r i) := unpacked_val (s := s.packed r ra) r rd hlegal hi
      _ = unpackValue s.cfg r (packField s.cfg r (s.val ra i)) := by rw [packed_bufField r ra hlegal hi]
      _ = s.val ra i % 8380417 := unpackValue_packField hlegal r hnonneg hlt
  · intro h
    refine ⟨_, _, exec_unpack r rd h, exec_pack r (finish_readable _), fun o => ?_⟩
    by_cases ho : o < s.larg.toNat ∨ s.larg.toNat + packedSize s.cfg r ≤ o
    · exact packed_bufSameBut (s := s.unpacked r rd) r o ho
    · obtain ⟨j, rfl⟩ := Nat.exists_eq_add_of_le (show s.larg.toNat ≤ o by omega)
      have hj : j < packedSize s.cfg r := by omega
      rw [bufByte_eq_fieldAt s h hj, ← unpacked_packedString r rd hlegal]
      exact packed_bufByte (s := s.unpacked r rd) r hj

end Sys2Proof.Machine
end

section
/-! PROOFS. Submitting a command and the error record (spec/60_exceptions.md R340 to R347): what a CMD write leaves by the outcome of
the checks, which of them a decoded word fails, and that the first error is kept until it is acknowledged. -/

namespace Sys2Proof.Machine

/-! ### The error record (R345) -/

/-- With ERR set a later error sets nothing. -/
theorem State.raiseError_of_err {s : State} (h : s.err = true) (e : ErrCode) (w : Word) : s.raiseError e w = s := by
  unfold State.raiseError
  simp only [h, if_true]
  rw [← h]

/-- Settles O16: the first error sets ERR, under which a second one sets nothing, and a write of 1 to bit 2 is `ackError`'s. -/
theorem firstErrorIsKeptUntilCleared : Obligations.FirstErrorIsKeptUntilCleared := by
  refine ⟨fun s e w => ⟨⟨rfl, rfl, rfl⟩, .of_eq rfl, rfl, rfl, rfl⟩,
    fun s e f v w => State.raiseError_of_err (s.raiseError_err e v) f w, fun s v hv => ?_⟩
  refine ⟨_, statusWriteOnlyAcknowledges s v, ?_, if_pos hv, if_pos hv⟩
  simp [hv]

/-! ### The checks on a decoded word (R342) -/

/-- The commands that `bufRole` gives a role are that role's PACK and UNPACK (R291). -/
theorem bufRole_eq_some_iff (i : Instr) (r : Role) :
    bufRole i = some r ↔ ∃ p, i = packInstr p r ∨ i = unpackInstr p r := by
  constructor
  · intro h
    cases i with
    | packEta p | packT0 p | packT1 p | packZ p | packW1 p => cases h; exact ⟨p, .inl rfl⟩
    | unpackEta p | unpackT0 p | unpackT1 p | unpackZ p | unpackW1 p => cases h; exact ⟨p, .inr rfl⟩
    | _ => cases h
  · rintro ⟨p, rfl | rfl⟩ <;> cases r <;> rfl

section
variable {c : Config} {i : Instr} {arg : Word}

theorem operandError_badSlot (hslots : i.slotsExist c = false) : operandError c i arg = some .badSlot := by
  simp [operandError, hslots]

theorem operandError_aliased (hslots : i.slotsExist c = true) (hdest : i.destinationsDiffer = false) :
    operandError c i arg = some .aliased := by
  simp [operandError, hslots, hdest]

theorem operandError_bufRange {r : Role} (hwf : i.wellFormed c = true) (hrole : bufRole i = some r)
    (hrange : c.bufBytes < arg.toNat + roleSize c r) : operandError c i arg = some .bufRange := by
  obtain ⟨hslots, hdest⟩ := Bool.and_eq_true_iff.mp hwf
  simp [operandError, hslots, hdest, hrole, hrange]

theorem commandCheck_of_operandError {w : Word} {e : ErrCode} (hdecode : decode w = .ok i)
    (he : operandError c i arg = some e) : commandCheck c w arg = .error e := by
  simp [commandCheck, hdecode, he]

end

/-- Acceptance creates a sampler state at 0 exactly for the opcodes of the samplers (R44, R105, R248). -/
theorem freshSampler_eq_ite_of_decode {w : Word} {i : Instr} (h : decode w = .ok i) :
    freshSampler w = if w.toNat % 64 ∈ [0x10, 0x11, 0x12] then some ⟨[], 0, 0, 0⟩ else none := by
  rw [freshSampler_of_decode h, samplerKind_of_decode h]
  by_cases hU : w.toNat % 64 = 0x10
  · simp [hU]
  by_cases hE : w.toNat % 64 = 0x11
  · simp [hE]
  by_cases hG : w.toNat % 64 = 0x12
  · simp [hG]
  · simp [hU, hE, hG]

/-! ### A write to CMD -/

/-- What a host write of `w` to CMD leaves. -/
def State.afterCmdWrite (s : State) (w : Word) : State := (s.submit w).respond none

theorem hostWrite_cmd (s : State) (w : Word) : hostWrite .w4 0x40#17 w s = .next (s.afterCmdWrite w) :=
  hostWrite_register s w (by decide) (by decide)

/-- CMD holds the word, accepted or not (R340). -/
theorem afterCmdWrite_cmd (s : State) (w : Word) : (s.afterCmdWrite w).cmd = w := by
  unfold State.afterCmdWrite
  rcases submit_cases s w with ⟨-, heq⟩ | ⟨-, _, -, heq⟩ | ⟨-, _, -, heq⟩ <;> rw [heq] <;> rfl

section
variable {s : State} {w : Word}

/-- The first check of R342: with a command running no word is looked at. -/
theorem submit_of_busy (hbusy : s.busy = true) : s.submit w = ({ s with cmd := w } : State).raiseError .cmdWhileBusy w := by
  simp [State.submit, hbusy]

theorem submit_of_error {e : ErrCode} (hbusy : s.busy = false) (h : commandCheck s.cfg w s.arg = .error e) :
    s.submit w = ({ s with cmd := w } : State).raiseError e w := by
  simp [State.submit, hbusy, h]

theorem submit_of_ok {i : Instr} (hbusy : s.busy = false) (h : commandCheck s.cfg w s.arg = .ok i) :
    s.submit w = ({ s with cmd := w } : State).accept w := by
  simp [State.submit, hbusy, h]

/-- A refused word is recorded and changes nothing else (R345, R346). -/
theorem afterCmdWrite_refused {e : ErrCode} (h : s.submit w = ({ s with cmd := w } : State).raiseError e w) :
    Records e w s (s.afterCmdWrite w) ∧ OnlyErrorRecord s (s.afterCmdWrite w) := by
  rw [State.afterCmdWrite, h]
  exact ⟨⟨rfl, rfl, rfl⟩, .of_eq rfl⟩

end

/-- Settles O14: BUSY is tested before the word is, and the refusal touches the error record alone. -/
theorem commandWhileBusyIsRefused : Obligations.CommandWhileBusyIsRefused := fun s w hbusy =>
  ⟨_, hostWrite_cmd s w, afterCmdWrite_cmd s w, afterCmdWrite_refused (submit_of_busy hbusy)⟩

/-- Settles O13: the clauses are the branches of `commandCheck` in their order; each error is refused alike, and a word that passes
them all is accepted. -/
theorem submissionChecksInOrder : Obligations.SubmissionChecksInOrder := by
  intro s w hbusy
  have hrefused {e : ErrCode} (he : commandCheck s.cfg w s.arg = .error e) := afterCmdWrite_refused (submit_of_error hbusy he)
  refine ⟨_, hostWrite_cmd s w, afterCmdWrite_cmd s w, fun hopcode => hrefused (by simp [commandCheck, hopcode]),
    fun hfield => hrefused (by simp [commandCheck, hfield]), fun i hdecode => ?_⟩
  have hoperand {e : ErrCode} (he : operandError s.cfg i s.arg = some e) :=
    hrefused (commandCheck_of_operandError hdecode he)
  refine ⟨fun hslots => hoperand (operandError_badSlot hslots),
    fun hslots hdest => hoperand (operandError_aliased hslots hdest), fun hwf r p hrole hrange => ?_, fun hwf hrange => ?_⟩
  · rw [← roleSize_eq_packedSize] at hrange
    exact hoperand (operandError_bufRange hwf ((bufRole_eq_some_iff i r).mpr ⟨p, hrole⟩) hrange)
  · have hinBuf : ∀ r, bufRole i = some r → s.arg.toNat + roleSize s.cfg r ≤ s.cfg.bufBytes := fun r hr => by
      obtain ⟨p, hp⟩ := (bufRole_eq_some_iff i r).mp hr
      exact roleSize_eq_packedSize s.cfg r ▸ hrange r p hp
    have hok := (commandCheck_ok_iff _ _ _ _).mpr ⟨hdecode, (operandError_none_iff _ _ _).mpr ⟨hwf, hinBuf⟩⟩
    rw [State.afterCmdWrite, submit_of_ok hbusy hok]
    simp [freshSampler_eq_ite_of_decode hdecode]

end Sys2Proof.Machine
end

section
/-! PROOFS. The two resets (spec/70_reset_and_hazards.md R380 to R383): what both clear, what a soft reset does to the stream port, and
which coefficients and bytes an aborted command leaves alone. -/

namespace Sys2Proof.Machine

/-! ### The registers that both resets clear (R380) -/

section
variable (s : State)

theorem clearRegisters_statusWord : s.clearRegisters.statusWord = 0#32 := by
  simp [State.statusWord, ErrCode.code]

theorem clearRegisters_readRegister : ∀ off ∈ [0x040, 0x044, 0x048, 0x04C, 0x050, 0x054, 0x058],
    s.clearRegisters.readRegister off = 0#32 := by
  simp only [List.forall_mem_cons]
  exact ⟨rfl, rfl, clearRegisters_statusWord s, rfl, rfl, rfl, rfl, List.forall_mem_nil _⟩

theorem clearRegisters_irq : s.clearRegisters.irq = false := rfl

theorem powerOn_readRegister (off : Nat) : s.powerOn.readRegister off = s.clearRegisters.readRegister off := rfl

end

/-- The reset state has every register clear already. -/
theorem reset_clearRegisters : State.reset.clearRegisters = State.reset := rfl

/-- Settles O5: the reset state has its registers clear and its stores empty. -/
theorem resetState : Obligations.ResetState :=
  ⟨rfl, clearRegisters_readRegister State.reset, rfl, clearRegisters_irq State.reset, rfl, rfl, rfl, rfl, rfl, rfl, rfl,
    fun _ _ => rfl, fun _ => rfl⟩

theorem reset_storageInv : State.reset.StorageInv :=
  ⟨by decide, rfl, List.forall_mem_nil _, rfl, List.forall_mem_nil _⟩

/-- Settles O6: the engine is idle over empty stores, and no session is open whose stream the sampler would have to follow. -/
theorem resetMeetsInvariant : Obligations.ResetMeetsInvariant :=
  ⟨reset_clearRegisters ▸ reset_storageInv.clearRegisters rfl rfl, .of_session_none rfl⟩

/-- Settles O32: the registers are cleared, the stores emptied, and the session is dropped without a message. -/
theorem powerOnResetIsComplete : Obligations.PowerOnResetIsComplete := fun s =>
  ⟨s.powerOn, rfl, rfl, fun off hoff => (powerOn_readRegister s off).trans (clearRegisters_readRegister s off hoff),
    clearRegisters_irq s, rfl, rfl, rfl, rfl, rfl, rfl, rfl, rfl, fun _ _ => rfl, fun _ => rfl⟩

/-! ### The write that performs a soft reset (R37, R382) -/

/-- Bit 0 of a CONTROL write is SOFT_RESET, busy or not. -/
theorem hostWrite_softReset (s : State) {v : Word} (hv : v.getLsbD 0 = true) :
    hostWrite .w4 0x4C#17 v s = .next (s.softReset.respond none) := by
  rw [hostWrite_register s v (by decide) (by decide)]
  show Host.Outcome.next ((s.writeControl v).respond none) = _
  rw [State.writeControl, if_pos hv]

/-- An abort sends CLOSE when a session is open, which abandons its SQUEEZE (R244, R382). -/
theorem State.Inv.abortRunning_port {s : State} (h : s.Inv) :
    s.abortRunning.abandoned = s.abandoned + (if s.squeeze.isSome = true then 1 else 0)
      ∧ s.abortRunning.portLog = s.portLog ++ (if s.session.isSome = true then [.closed] else []) := by
  obtain ⟨m, b, d, habort⟩ := abortRunning_shape s
  rw [habort]
  split
  · exact ⟨rfl, rfl⟩
  · rename_i hclosed
    have hsqueeze := h.squeeze_none_of_session_none (Option.not_isSome_iff_eq_none.mp hclosed)
    simp [hsqueeze]

/-- A soft reset clears the registers of a state whose session is closed. -/
theorem State.Inv.softReset_shape {s : State} (h : s.Inv) : ∃ u : State, s.softReset = u.clearRegisters
    ∧ u.session = none ∧ u.squeeze = none
    ∧ u.abandoned = s.abandoned + (if s.squeeze.isSome = true then 1 else 0)
    ∧ u.portLog = s.portLog ++ (if s.session.isSome = true then [.closed] else []) := by
  rcases softReset_cases s with ⟨-, heq⟩ | ⟨hp, heq⟩
  · exact ⟨s.abortRunning, heq, h.abortRunning_closed.1, h.abortRunning_closed.2, h.abortRunning_port⟩
  · have hsession := h.session_none_of_idle hp
    have hsqueeze := h.squeeze_none_of_session_none hsession
    exact ⟨s, heq, hsession, hsqueeze, by simp [hsqueeze], by simp [hsession]⟩

/-- Settles O30: the write ends in the cleared registers of a state whose session is closed. -/
theorem softResetClearsTheRegisters : Obligations.SoftResetClearsTheRegisters := by
  intro s v h hv
  obtain ⟨u, hshape, hsession, hsqueeze, habandoned, hlog⟩ := h.softReset_shape
  refine ⟨_, hostWrite_softReset s hv, ?_⟩
  rw [hshape]
  exact ⟨rfl, rfl, rfl, rfl, rfl, rfl, rfl, rfl, rfl, rfl, rfl, rfl, rfl, rfl, rfl, rfl, hsession, hsqueeze,
    clearRegisters_irq u, habandoned, hlog⟩

/-! ### The draws of an abort (R383) -/

theorem length_freeWords (first n : Nat) : (freeWords first n).length = n := by simp [freeWords]

theorem length_freeBytes (first n : Nat) : (freeBytes first n).length = n := by simp [freeBytes]

section
variable (s : State)

theorem havocSlot_slotsSameBut (k : Slot) : SlotsSameBut [k] s (s.havocSlot k) := fun j i hi hj => by
  refine Memory.read_writeRange_outside _ _ _ _ ?_
  have hne : j ≠ k.val := hj k (List.mem_singleton_self k)
  rw [length_freeWords, slotKey, slotKey]
  omega

theorem havocSlot_readable (k : Slot) : (s.havocSlot k).Readable k := fun i hi => by
  have hread := Memory.read_writeRange_inside s.slots (slotKey k 0) i (freeWords s.drawn 256) (by rwa [length_freeWords])
  exact Option.isSome_of_eq_some hread

theorem havocBytes_bufSameBut (off n : Nat) : BufSameBut off n s (s.havocBytes off n) := fun o ho =>
  Memory.read_writeRange_outside _ _ _ _ (by rwa [length_freeBytes])

theorem havocBytes_bytesReadable (off n : Nat) : (s.havocBytes off n).BytesReadable off n := fun j hj =>
  Option.isSome_of_eq_some (Memory.read_writeRange_inside s.buf off j (freeBytes s.drawn n) (by rwa [length_freeBytes]))

end

/-- A slot that can be read can be read after any slot is drawn. -/
theorem State.Readable.havocSlot {s : State} {j : Slot} (h : s.Readable j) (k : Slot) : (s.havocSlot k).Readable j := by
  by_cases hjk : j = k
  · exact hjk ▸ havocSlot_readable s j
  · intro i hi
    rw [havocSlot_slotsSameBut s k j i hi (by simpa using Fin.val_ne_of_ne hjk)]
    exact h i hi

theorem foldl_havocSlot_slotsSameBut (ds : List Slot) (s : State) : SlotsSameBut ds s (ds.foldl State.havocSlot s) := by
  induction ds generalizing s with
  | nil => exact fun _ _ _ _ => rfl
  | cons k ds ih => exact (havocSlot_slotsSameBut s k).trans (ih (s.havocSlot k))

/-- Drawn slots can be read, and so can those that could before. -/
theorem foldl_havocSlot_readable {ds : List Slot} {s : State} {d : Slot} (h : d ∈ ds ∨ s.Readable d) :
    (ds.foldl State.havocSlot s).Readable d := by
  induction ds generalizing s with
  | nil => exact h.resolve_left List.not_mem_nil
  | cons k ds ih =>
    refine ih ?_
    rcases h with hd | hd
    · rcases List.mem_cons.mp hd with rfl | hd
      · exact .inr (havocSlot_readable s d)
      · exact .inl hd
    · exact .inr (hd.havocSlot k)

/-! ### The destination set of a command (R383) -/

theorem destinationTable_eq (i : Instr) : destinationTable i = (destSlots i, destRole i) := by cases i <;> rfl

section
variable (s : State) (i : Instr)

theorem havocDestinations_slots : (s.havocDestinations i).slots = ((destSlots i).foldl State.havocSlot s).slots := by
  unfold State.havocDestinations
  cases destRole i <;> rfl

theorem havocDestinations_slotsSameBut : SlotsSameBut (destSlots i) s (s.havocDestinations i) := by
  unfold SlotsSameBut State.coeff
  rw [havocDestinations_slots]
  exact foldl_havocSlot_slotsSameBut (destSlots i) s

theorem havocDestinations_readable {d : Slot} (hd : d ∈ destSlots i) : (s.havocDestinations i).Readable d := by
  unfold State.Readable State.coeff
  rw [havocDestinations_slots]
  exact foldl_havocSlot_readable (.inl hd)

variable {i}

/-- A command that is no PACK draws no byte. -/
theorem havocDestinations_buf (h : destRole i = none) : (s.havocDestinations i).buf = s.buf := by
  obtain ⟨m, d, hslots⟩ := foldl_havocSlot_shape (destSlots i) s
  simp only [State.havocDestinations, h, hslots]

/-- A PACK draws SIZE_r bytes of BUF from LARG on. -/
theorem havocDestinations_bytes {r : Role} (h : destRole i = some r) :
    BufSameBut s.larg.toNat (packedSize s.cfg r) s (s.havocDestinations i)
      ∧ (s.havocDestinations i).BytesReadable s.larg.toNat (packedSize s.cfg r) := by
  obtain ⟨m, d, hslots⟩ := foldl_havocSlot_shape (destSlots i) s
  simp only [State.havocDestinations, h, hslots, roleSize_eq_packedSize]
  exact ⟨havocBytes_bufSameBut { s with slots := m, drawn := d } _ _, havocBytes_bytesReadable _ _ _⟩

end

/-! ### What a soft reset leaves of the data (R383) -/

theorem softReset_of_idle {s : State} (hp : s.phase = .idle) : s.softReset = s.clearRegisters := by
  rw [State.softReset, hp]

/-- With a command running, a soft reset draws its destination set, and beyond that touches only registers and the port. -/
theorem softReset_of_running {s : State} {i : Instr} (hp : s.phase = .running) (hi : decode s.lcmd = .ok i) :
    s.softReset = (s.havocDestinations i).clearRegisters
      ∨ s.softReset = (s.havocDestinations i).closeSession.clearRegisters := by
  simp only [State.softReset, hp, State.abortRunning, hi]
  split
  · exact .inr rfl
  · exact .inl rfl

/-- Settles O31: with no command running a reset touches no storage, and with one it draws the destination set, which is the table's. -/
theorem softResetKeepsDataOutsideTheDestinations : Obligations.SoftResetKeepsDataOutsideTheDestinations := by
  intro s v hv
  refine ⟨fun hp => ⟨_, hostWrite_softReset s hv, ?_⟩, fun i hp hi => ⟨_, hostWrite_softReset s hv, ?_⟩⟩
  · rw [softReset_of_idle hp]
    exact ⟨rfl, rfl⟩
  · rw [destinationTable_eq]
    have hslots := havocDestinations_slotsSameBut s i
    have hdrawn (d : Slot) (hd : d ∈ destSlots i) := havocDestinations_readable s i hd
    have hbytes (r : Role) (hr : destRole i = some r) := havocDestinations_bytes s hr
    rcases softReset_of_running hp hi with heq | heq <;> rw [heq] <;> exact ⟨hslots, hdrawn, hbytes, havocDestinations_buf s⟩

end Sys2Proof.Machine
end
